-- ==== Sys2Proof/Word.lean ====
section
/-! DEFINITION. The values of the machine. The spec states every rule on mathematical integers, "a value of N bits lies in
[0, 2^N)" (00_scope.md R12), with widths that are construction parameters (R5, R6): so a cell, a word and an address are
natural numbers in this model, and that each stays below its width is an invariant of its own (State.Inv in Safety.lean,
log entry 2). -/

namespace Sys2Proof

/-- mask_N = 2^N − 1, the value of N bits that are all ones (00_scope.md R12). -/
def mask (n : Nat) : Nat :=
  2 ^ n - 1

end Sys2Proof
end

