-- ==== Sys2Proof/Config.lean ====
section
/-! DEFINITION. The construction-time parameters of the block (00_scope.md R5 to R8). "None of these changes after
construction" (R8): State carries one Config that no step writes (log entry 1). -/

namespace Sys2Proof

/-- The three logical spaces (00_scope.md R20, 20_memory.md R64). -/
inductive Space where
  | ram | program | stack
deriving DecidableEq, Repr

/-- The memory map: which names share a backing array. These five are all the partitions of the three names
(20_memory.md R65). -/
inductive MemMap where
  /-- Every name has an array of its own, the default (R66). -/
  | separate
  | ramProgram
  | ramStack
  | programStack
  /-- All three names are one array. -/
  | shared
deriving DecidableEq, Repr

/-- FLAG_POS: the bit of F at which each flag stands (10_state.md R36). -/
structure FlagPos where
  z : Nat
  c : Nat
  s : Nat
  o : Nat
deriving DecidableEq, Repr

/-- A configuration of the block (00_scope.md R5, R6, R8). -/
structure Config where
  /-- `char_bit`, CB: bits of a cell (R5). -/
  cellBits : Nat
  /-- `word_size`, WS: cells of a word (R6). -/
  wordCells : Nat
  /-- `addr_size`, AS: cells of an address (R6). -/
  addrCells : Nat
  /-- `ram_size`: requested cells of ram (R8). -/
  ramSize : Nat
  /-- `stack_size`: requested cells of stack (R8). -/
  stackSize : Nat
  /-- MAP (R8, 20_memory.md R65). -/
  map : MemMap
  /-- OPMAP: the opcode value of each form, the forms in the order of 30_encoding.md R104 (R103). -/
  opmap : List Nat
  /-- FLAG_POS (10_state.md R36). -/
  flagPos : FlagPos
  /-- OUT_MAP: the cells whose host byte is not their value modulo 256, with that byte (92_eei_decisions.md D21). -/
  outMap : List (Nat × BitVec 8)
deriving DecidableEq, Repr

/-- The default configuration: 9/7/5, 1024 and 256 cells, no alias, the opcodes 1 to 96, flags at bits 0 to 3,
host bytes modulo 256 (00_scope.md R5, R6, R8; 20_memory.md R66; 30_encoding.md R104; 10_state.md R36; D21). -/
def Config.default : Config where
  cellBits := 9
  wordCells := 7
  addrCells := 5
  ramSize := 1024
  stackSize := 256
  map := .separate
  opmap := List.range' 1 96
  flagPos := { z := 0, c := 1, s := 2, o := 3 }
  outMap := []

end Sys2Proof
end

