-- ==== Sys2Proof/Machine/Codec.lean ====
section
/-! DEFINITION. Widths, signed readings and the endian codec (00_scope.md R6, R12, R13; 20_memory.md R60 to R62). -/

namespace Sys2Proof

/-- W, the word width in bits (00_scope.md R6). -/
def Config.wordBits (c : Config) : Nat :=
  c.wordCells * c.cellBits

/-- AW, the address width in bits (00_scope.md R6). -/
def Config.addrBits (c : Config) : Nat :=
  c.addrCells * c.cellBits

/-- The two's-complement reading of an n-bit value (00_scope.md R13). -/
def signed (n v : Nat) : Int :=
  if v.testBit (n - 1) then (v : Int) - (2 ^ n : Nat) else v

/-- MIN_N = −2^(N−1) (00_scope.md R13). -/
def minSigned (n : Nat) : Int :=
  -((2 ^ (n - 1) : Nat) : Int)

/-- MAX_N = 2^(N−1) − 1 (00_scope.md R13). -/
def maxSigned (n : Nat) : Int :=
  ((2 ^ (n - 1) : Nat) : Int) - 1

/-- An integer modulo 2^n, the non-negative remainder (00_scope.md R12). -/
def ofInt (n : Nat) (x : Int) : Nat :=
  (x % (2 ^ n : Nat)).toNat

/-- `pack(v, n, true)`: n cells of `cb` bits, cell 0 least significant; what lies above n cells is dropped
(20_memory.md R60, R62). -/
def packLE (cb v : Nat) : Nat → List Nat
  | 0 => []
  | n + 1 => v % 2 ^ cb :: packLE cb (v / 2 ^ cb) n

/-- `pack(v, n, le)`: with `le` false, cell 0 is the most significant (20_memory.md R60). -/
def pack (cb v n : Nat) (le : Bool) : List Nat :=
  if le then packLE cb v n else (packLE cb v n).reverse

/-- `unpack(cells, true)`: Σ c[i]·2^(i·CB) (20_memory.md R61). -/
def unpackLE (cb : Nat) : List Nat → Nat
  | [] => 0
  | x :: xs => x + 2 ^ cb * unpackLE cb xs

/-- `unpack(cells, le)` (20_memory.md R61). -/
def unpack (cb : Nat) (cells : List Nat) (le : Bool) : Nat :=
  if le then unpackLE cb cells else unpackLE cb cells.reverse

end Sys2Proof
end

