-- ==== Sys2Proof/Syntax.lean ====
section
/-! DEFINITION. The syntax of the machine: registers, width tags, fault kinds, operand classes, instruction formats, and
the 96 instruction forms of the opcode map (30_encoding.md rule R104), once with their operands (`Instr`) and once
without (`Form`). -/

namespace Sys2Proof

/-- The six registers, in the order of their register ids (10_state.md R30, R31). -/
inductive Reg where
  | a | b | c | ip | sp | f
deriving DecidableEq, Repr

/-- The width at which a register is read or written (00_scope.md R20, 10_state.md R32, R33). -/
inductive Tag where
  | byte | word | addr
deriving DecidableEq, Repr

/-- The seven fault kinds (60_exceptions.md R301). -/
inductive FaultKind where
  /-- UNKNOWN_OPCODE: the opcode cell holds a value the opcode map does not assign. -/
  | unknownOpcode
  /-- OUT_OF_BOUNDS: an access past the end of a space, or a register write that would leave SP above size(stack). -/
  | outOfBounds
  /-- READ_ONLY_WRITE: a write through the name program. -/
  | readOnlyWrite
  /-- STACK_OVERFLOW: a push or call frame that does not fit. -/
  | stackOverflow
  /-- STACK_UNDERFLOW: a pop or ret below the bottom of the stack. -/
  | stackUnderflow
  /-- DIV_BY_ZERO: divisor 0 of div or mod. -/
  | divByZero
  /-- BAD_REGISTER: a register-id cell whose value is not 0 .. 5. -/
  | badRegister
deriving DecidableEq, Repr

/-- The five operand classes (30_encoding.md R90). -/
inductive OperandClass where
  | r | ib | iw | ia | io
deriving DecidableEq, Repr

/-- A decoded operand: a register, an unsigned immediate (ib, iw, ia), or a signed offset (io). -/
inductive Operand where
  | reg (r : Reg)
  | imm (v : Nat)
  | off (d : Int)
deriving DecidableEq, Repr

/-- The instruction formats (30_encoding.md R92); the two letters of a form are its operand classes in stream order. -/
inductive Format where
  | N | R | RR | RIB | RIW | RIA | IAR | IA | IO
deriving DecidableEq, Repr

/-- The ten conditions of the conditional jumps (42_control_flow.md R232). -/
inductive Condition where
  | e | ne | b | be | a | ae | l | le | g | ge
deriving DecidableEq, Repr

/-- The 96 instruction forms without their operands: the domain of OPMAP (30_encoding.md R103, R104). -/
inductive Form where
  | movbI2r | movwI2r | movbR2r | movwR2r | movbM2r | movwM2r
  | movbR2m | movwR2m | ldb | ldw | lda | stb
  | stw | sta | lpb | addBReg | addBImm | addWReg
  | addWImm | subBReg | subBImm | subWReg | subWImm | mulBReg
  | mulBImm | mulWReg | mulWImm | divBReg | divBImm | divWReg
  | divWImm | modBReg | modBImm | modWReg | modWImm | andBReg
  | andBImm | andWReg | andWImm | orBReg | orBImm | orWReg
  | orWImm | xorBReg | xorBImm | xorWReg | xorWImm | shlBReg
  | shlBImm | shlWReg | shlWImm | shrBReg | shrBImm | shrWReg
  | shrWImm | cmpBReg | cmpBImm | cmpWReg | cmpWImm | notB
  | notW | negB | negW | jmp | jmpRel | je
  | jeRel | jne | jneRel | jb | jbRel | jbe
  | jbeRel | ja | jaRel | jae | jaeRel | jl
  | jlRel | jle | jleRel | jg | jgRel | jge
  | jgeRel | call | callRel | loop | loopRel | ret
  | push | pop | input | output | seek | halt
deriving DecidableEq, Repr

/-- The instructions: one constructor for each row of the opcode table, with its decoded operands. Register ids are
decoded to `Reg`; a byte, word or address immediate is the unsigned value read; an offset is signed (R90, R91). -/
inductive Instr where
  /-- `movb.i2r`, R131. -/
  | movbI2r (rd : Reg) (imm : Nat)
  /-- `movw.i2r`, R132. -/
  | movwI2r (rd : Reg) (imm : Nat)
  /-- `movb.r2r`, R133. -/
  | movbR2r (rd rs : Reg)
  /-- `movw.r2r`, R134. -/
  | movwR2r (rd rs : Reg)
  /-- `movb.m2r`, R135. -/
  | movbM2r (rd : Reg) (addr : Nat)
  /-- `movw.m2r`, R136. -/
  | movwM2r (rd : Reg) (addr : Nat)
  /-- `movb.r2m`, R137. -/
  | movbR2m (addr : Nat) (rs : Reg)
  /-- `movw.r2m`, R138. -/
  | movwR2m (addr : Nat) (rs : Reg)
  /-- `ldb`, R139. -/
  | ldb (rd ra : Reg)
  /-- `ldw`, R140. -/
  | ldw (rd ra : Reg)
  /-- `lda`, R141. -/
  | lda (rd ra : Reg)
  /-- `stb`, R142. -/
  | stb (ra rs : Reg)
  /-- `stw`, R143. -/
  | stw (ra rs : Reg)
  /-- `sta`, R144. -/
  | sta (ra rs : Reg)
  /-- `lpb`, R145. -/
  | lpb (rd ra : Reg)
  /-- `add.b`, R170. -/
  | addBReg (rd rs : Reg)
  /-- `add.b`, R171. -/
  | addBImm (rd : Reg) (imm : Nat)
  /-- `add.w`, R172. -/
  | addWReg (rd rs : Reg)
  /-- `add.w`, R173. -/
  | addWImm (rd : Reg) (imm : Nat)
  /-- `sub.b`, R174. -/
  | subBReg (rd rs : Reg)
  /-- `sub.b`, R175. -/
  | subBImm (rd : Reg) (imm : Nat)
  /-- `sub.w`, R176. -/
  | subWReg (rd rs : Reg)
  /-- `sub.w`, R177. -/
  | subWImm (rd : Reg) (imm : Nat)
  /-- `mul.b`, R178. -/
  | mulBReg (rd rs : Reg)
  /-- `mul.b`, R179. -/
  | mulBImm (rd : Reg) (imm : Nat)
  /-- `mul.w`, R180. -/
  | mulWReg (rd rs : Reg)
  /-- `mul.w`, R181. -/
  | mulWImm (rd : Reg) (imm : Nat)
  /-- `div.b`, R182. -/
  | divBReg (rd rs : Reg)
  /-- `div.b`, R183. -/
  | divBImm (rd : Reg) (imm : Nat)
  /-- `div.w`, R184. -/
  | divWReg (rd rs : Reg)
  /-- `div.w`, R185. -/
  | divWImm (rd : Reg) (imm : Nat)
  /-- `mod.b`, R186. -/
  | modBReg (rd rs : Reg)
  /-- `mod.b`, R187. -/
  | modBImm (rd : Reg) (imm : Nat)
  /-- `mod.w`, R188. -/
  | modWReg (rd rs : Reg)
  /-- `mod.w`, R189. -/
  | modWImm (rd : Reg) (imm : Nat)
  /-- `and.b`, R190. -/
  | andBReg (rd rs : Reg)
  /-- `and.b`, R191. -/
  | andBImm (rd : Reg) (imm : Nat)
  /-- `and.w`, R192. -/
  | andWReg (rd rs : Reg)
  /-- `and.w`, R193. -/
  | andWImm (rd : Reg) (imm : Nat)
  /-- `or.b`, R194. -/
  | orBReg (rd rs : Reg)
  /-- `or.b`, R195. -/
  | orBImm (rd : Reg) (imm : Nat)
  /-- `or.w`, R196. -/
  | orWReg (rd rs : Reg)
  /-- `or.w`, R197. -/
  | orWImm (rd : Reg) (imm : Nat)
  /-- `xor.b`, R198. -/
  | xorBReg (rd rs : Reg)
  /-- `xor.b`, R199. -/
  | xorBImm (rd : Reg) (imm : Nat)
  /-- `xor.w`, R200. -/
  | xorWReg (rd rs : Reg)
  /-- `xor.w`, R201. -/
  | xorWImm (rd : Reg) (imm : Nat)
  /-- `shl.b`, R202. -/
  | shlBReg (rd rs : Reg)
  /-- `shl.b`, R203. -/
  | shlBImm (rd : Reg) (imm : Nat)
  /-- `shl.w`, R204. -/
  | shlWReg (rd rs : Reg)
  /-- `shl.w`, R205. -/
  | shlWImm (rd : Reg) (imm : Nat)
  /-- `shr.b`, R206. -/
  | shrBReg (rd rs : Reg)
  /-- `shr.b`, R207. -/
  | shrBImm (rd : Reg) (imm : Nat)
  /-- `shr.w`, R208. -/
  | shrWReg (rd rs : Reg)
  /-- `shr.w`, R209. -/
  | shrWImm (rd : Reg) (imm : Nat)
  /-- `cmp.b`, R210. -/
  | cmpBReg (rd rs : Reg)
  /-- `cmp.b`, R211. -/
  | cmpBImm (rd : Reg) (imm : Nat)
  /-- `cmp.w`, R212. -/
  | cmpWReg (rd rs : Reg)
  /-- `cmp.w`, R213. -/
  | cmpWImm (rd : Reg) (imm : Nat)
  /-- `not.b`, R214. -/
  | notB (rd : Reg)
  /-- `not.w`, R215. -/
  | notW (rd : Reg)
  /-- `neg.b`, R216. -/
  | negB (rd : Reg)
  /-- `neg.w`, R217. -/
  | negW (rd : Reg)
  /-- `jmp`, R234. -/
  | jmp (addr : Nat)
  /-- `jmp.rel`, R235. -/
  | jmpRel (off : Int)
  /-- `je`, R236. -/
  | je (addr : Nat)
  /-- `je.rel`, R237. -/
  | jeRel (off : Int)
  /-- `jne`, R238. -/
  | jne (addr : Nat)
  /-- `jne.rel`, R239. -/
  | jneRel (off : Int)
  /-- `jb`, R240. -/
  | jb (addr : Nat)
  /-- `jb.rel`, R241. -/
  | jbRel (off : Int)
  /-- `jbe`, R242. -/
  | jbe (addr : Nat)
  /-- `jbe.rel`, R243. -/
  | jbeRel (off : Int)
  /-- `ja`, R244. -/
  | ja (addr : Nat)
  /-- `ja.rel`, R245. -/
  | jaRel (off : Int)
  /-- `jae`, R246. -/
  | jae (addr : Nat)
  /-- `jae.rel`, R247. -/
  | jaeRel (off : Int)
  /-- `jl`, R248. -/
  | jl (addr : Nat)
  /-- `jl.rel`, R249. -/
  | jlRel (off : Int)
  /-- `jle`, R250. -/
  | jle (addr : Nat)
  /-- `jle.rel`, R251. -/
  | jleRel (off : Int)
  /-- `jg`, R252. -/
  | jg (addr : Nat)
  /-- `jg.rel`, R253. -/
  | jgRel (off : Int)
  /-- `jge`, R254. -/
  | jge (addr : Nat)
  /-- `jge.rel`, R255. -/
  | jgeRel (off : Int)
  /-- `call`, R256. -/
  | call (addr : Nat)
  /-- `call.rel`, R257. -/
  | callRel (off : Int)
  /-- `loop`, R258. -/
  | loop (addr : Nat)
  /-- `loop.rel`, R259. -/
  | loopRel (off : Int)
  /-- `ret`, R260. -/
  | ret
  /-- `push`, R270. -/
  | push (rs : Reg)
  /-- `pop`, R271. -/
  | pop (rd : Reg)
  /-- `in`, R280. -/
  | input
  /-- `out`, R281. -/
  | output
  /-- `seek`, R282. -/
  | seek (rc rr : Reg)
  /-- `halt`, R283. -/
  | halt
deriving DecidableEq, Repr

end Sys2Proof
end

