-- ==== Sys2Proof/Machine/Encoding.lean ====
section
/-! DEFINITION. The opcode map and the instruction formats as tables (30_encoding.md R90, R92, R93, R103, R104), read by
the decoder and the encoder alike. -/

namespace Sys2Proof

/-- A form's number in the manual's order, which is its opcode under the default map (R104). -/
def Form.number : Form → Nat
  | .movbI2r => 1
  | .movwI2r => 2
  | .movbR2r => 3
  | .movwR2r => 4
  | .movbM2r => 5
  | .movwM2r => 6
  | .movbR2m => 7
  | .movwR2m => 8
  | .ldb => 9
  | .ldw => 10
  | .lda => 11
  | .stb => 12
  | .stw => 13
  | .sta => 14
  | .lpb => 15
  | .addBReg => 16
  | .addBImm => 17
  | .addWReg => 18
  | .addWImm => 19
  | .subBReg => 20
  | .subBImm => 21
  | .subWReg => 22
  | .subWImm => 23
  | .mulBReg => 24
  | .mulBImm => 25
  | .mulWReg => 26
  | .mulWImm => 27
  | .divBReg => 28
  | .divBImm => 29
  | .divWReg => 30
  | .divWImm => 31
  | .modBReg => 32
  | .modBImm => 33
  | .modWReg => 34
  | .modWImm => 35
  | .andBReg => 36
  | .andBImm => 37
  | .andWReg => 38
  | .andWImm => 39
  | .orBReg => 40
  | .orBImm => 41
  | .orWReg => 42
  | .orWImm => 43
  | .xorBReg => 44
  | .xorBImm => 45
  | .xorWReg => 46
  | .xorWImm => 47
  | .shlBReg => 48
  | .shlBImm => 49
  | .shlWReg => 50
  | .shlWImm => 51
  | .shrBReg => 52
  | .shrBImm => 53
  | .shrWReg => 54
  | .shrWImm => 55
  | .cmpBReg => 56
  | .cmpBImm => 57
  | .cmpWReg => 58
  | .cmpWImm => 59
  | .notB => 60
  | .notW => 61
  | .negB => 62
  | .negW => 63
  | .jmp => 64
  | .jmpRel => 65
  | .je => 66
  | .jeRel => 67
  | .jne => 68
  | .jneRel => 69
  | .jb => 70
  | .jbRel => 71
  | .jbe => 72
  | .jbeRel => 73
  | .ja => 74
  | .jaRel => 75
  | .jae => 76
  | .jaeRel => 77
  | .jl => 78
  | .jlRel => 79
  | .jle => 80
  | .jleRel => 81
  | .jg => 82
  | .jgRel => 83
  | .jge => 84
  | .jgeRel => 85
  | .call => 86
  | .callRel => 87
  | .loop => 88
  | .loopRel => 89
  | .ret => 90
  | .push => 91
  | .pop => 92
  | .input => 93
  | .output => 94
  | .seek => 95
  | .halt => 96

/-- The forms in the order of their numbers: OPMAP lists its opcode values in this order (R104). -/
def Form.all : List Form :=
  [.movbI2r, .movwI2r, .movbR2r, .movwR2r, .movbM2r, .movwM2r,
   .movbR2m, .movwR2m, .ldb, .ldw, .lda, .stb,
   .stw, .sta, .lpb, .addBReg, .addBImm, .addWReg,
   .addWImm, .subBReg, .subBImm, .subWReg, .subWImm, .mulBReg,
   .mulBImm, .mulWReg, .mulWImm, .divBReg, .divBImm, .divWReg,
   .divWImm, .modBReg, .modBImm, .modWReg, .modWImm, .andBReg,
   .andBImm, .andWReg, .andWImm, .orBReg, .orBImm, .orWReg,
   .orWImm, .xorBReg, .xorBImm, .xorWReg, .xorWImm, .shlBReg,
   .shlBImm, .shlWReg, .shlWImm, .shrBReg, .shrBImm, .shrWReg,
   .shrWImm, .cmpBReg, .cmpBImm, .cmpWReg, .cmpWImm, .notB,
   .notW, .negB, .negW, .jmp, .jmpRel, .je,
   .jeRel, .jne, .jneRel, .jb, .jbRel, .jbe,
   .jbeRel, .ja, .jaRel, .jae, .jaeRel, .jl,
   .jlRel, .jle, .jleRel, .jg, .jgRel, .jge,
   .jgeRel, .call, .callRel, .loop, .loopRel, .ret,
   .push, .pop, .input, .output, .seek, .halt]

/-- A form's format (R92, R104). -/
def Form.format : Form → Format
  | .movbI2r => .RIB
  | .movwI2r => .RIW
  | .movbR2r => .RR
  | .movwR2r => .RR
  | .movbM2r => .RIA
  | .movwM2r => .RIA
  | .movbR2m => .IAR
  | .movwR2m => .IAR
  | .ldb => .RR
  | .ldw => .RR
  | .lda => .RR
  | .stb => .RR
  | .stw => .RR
  | .sta => .RR
  | .lpb => .RR
  | .addBReg => .RR
  | .addBImm => .RIB
  | .addWReg => .RR
  | .addWImm => .RIW
  | .subBReg => .RR
  | .subBImm => .RIB
  | .subWReg => .RR
  | .subWImm => .RIW
  | .mulBReg => .RR
  | .mulBImm => .RIB
  | .mulWReg => .RR
  | .mulWImm => .RIW
  | .divBReg => .RR
  | .divBImm => .RIB
  | .divWReg => .RR
  | .divWImm => .RIW
  | .modBReg => .RR
  | .modBImm => .RIB
  | .modWReg => .RR
  | .modWImm => .RIW
  | .andBReg => .RR
  | .andBImm => .RIB
  | .andWReg => .RR
  | .andWImm => .RIW
  | .orBReg => .RR
  | .orBImm => .RIB
  | .orWReg => .RR
  | .orWImm => .RIW
  | .xorBReg => .RR
  | .xorBImm => .RIB
  | .xorWReg => .RR
  | .xorWImm => .RIW
  | .shlBReg => .RR
  | .shlBImm => .RIB
  | .shlWReg => .RR
  | .shlWImm => .RIW
  | .shrBReg => .RR
  | .shrBImm => .RIB
  | .shrWReg => .RR
  | .shrWImm => .RIW
  | .cmpBReg => .RR
  | .cmpBImm => .RIB
  | .cmpWReg => .RR
  | .cmpWImm => .RIW
  | .notB => .R
  | .notW => .R
  | .negB => .R
  | .negW => .R
  | .jmp => .IA
  | .jmpRel => .IO
  | .je => .IA
  | .jeRel => .IO
  | .jne => .IA
  | .jneRel => .IO
  | .jb => .IA
  | .jbRel => .IO
  | .jbe => .IA
  | .jbeRel => .IO
  | .ja => .IA
  | .jaRel => .IO
  | .jae => .IA
  | .jaeRel => .IO
  | .jl => .IA
  | .jlRel => .IO
  | .jle => .IA
  | .jleRel => .IO
  | .jg => .IA
  | .jgRel => .IO
  | .jge => .IA
  | .jgeRel => .IO
  | .call => .IA
  | .callRel => .IO
  | .loop => .IA
  | .loopRel => .IO
  | .ret => .N
  | .push => .R
  | .pop => .R
  | .input => .N
  | .output => .N
  | .seek => .RR
  | .halt => .N

/-- The operand classes of a format, in stream order (R92). -/
def Format.classes : Format → List OperandClass
  | .N => []
  | .R => [.r]
  | .RR => [.r, .r]
  | .RIB => [.r, .ib]
  | .RIW => [.r, .iw]
  | .RIA => [.r, .ia]
  | .IAR => [.ia, .r]
  | .IA => [.ia]
  | .IO => [.io]

/-- A form's operand classes (R104). -/
def Form.classes (f : Form) : List OperandClass :=
  f.format.classes

/-- How many cells an operand of a class takes (R90). -/
def OperandClass.cells (c : Config) : OperandClass → Nat
  | .r => 1
  | .ib => 1
  | .iw => c.wordCells
  | .ia => c.addrCells
  | .io => c.addrCells

/-- An instruction's length in cells: 1 and its operands' cells (R93). -/
def Form.length (c : Config) (f : Form) : Nat :=
  1 + (f.classes.map (OperandClass.cells c)).sum

/-- The length of the longest form, 2 + WS or 2 + AS (R104's length column). -/
def Config.longest (c : Config) : Nat :=
  2 + max c.wordCells c.addrCells

/-- The opcode value OPMAP gives a form (R103). -/
def Config.opcode (c : Config) (f : Form) : Nat :=
  c.opmap.getD (f.number - 1) 0

/-- The form to which the first of the listed opcode values equal to `op` belongs. -/
def lookupForm (op : Nat) : List Nat → List Form → Option Form
  | v :: vs, f :: fs => if v = op then some f else lookupForm op vs fs
  | _, _ => none

/-- OPMAP's inverse: the form with opcode value `op`, none if OPMAP assigns it to no form (R98, R105). -/
def Config.formOf (c : Config) (op : Nat) : Option Form :=
  lookupForm op c.opmap Form.all

/-- A register's id (10_state.md R31). -/
def Reg.id : Reg → Nat
  | .a => 0
  | .b => 1
  | .c => 2
  | .ip => 3
  | .sp => 4
  | .f => 5

/-- The register an id selects, none for an id above 5 (10_state.md R31, 30_encoding.md R101). -/
def Reg.ofId : Nat → Option Reg
  | 0 => some .a
  | 1 => some .b
  | 2 => some .c
  | 3 => some .ip
  | 4 => some .sp
  | 5 => some .f
  | _ => none

/-- The form of an instruction. -/
def Instr.form : Instr → Form
  | .movbI2r _ _ => .movbI2r
  | .movwI2r _ _ => .movwI2r
  | .movbR2r _ _ => .movbR2r
  | .movwR2r _ _ => .movwR2r
  | .movbM2r _ _ => .movbM2r
  | .movwM2r _ _ => .movwM2r
  | .movbR2m _ _ => .movbR2m
  | .movwR2m _ _ => .movwR2m
  | .ldb _ _ => .ldb
  | .ldw _ _ => .ldw
  | .lda _ _ => .lda
  | .stb _ _ => .stb
  | .stw _ _ => .stw
  | .sta _ _ => .sta
  | .lpb _ _ => .lpb
  | .addBReg _ _ => .addBReg
  | .addBImm _ _ => .addBImm
  | .addWReg _ _ => .addWReg
  | .addWImm _ _ => .addWImm
  | .subBReg _ _ => .subBReg
  | .subBImm _ _ => .subBImm
  | .subWReg _ _ => .subWReg
  | .subWImm _ _ => .subWImm
  | .mulBReg _ _ => .mulBReg
  | .mulBImm _ _ => .mulBImm
  | .mulWReg _ _ => .mulWReg
  | .mulWImm _ _ => .mulWImm
  | .divBReg _ _ => .divBReg
  | .divBImm _ _ => .divBImm
  | .divWReg _ _ => .divWReg
  | .divWImm _ _ => .divWImm
  | .modBReg _ _ => .modBReg
  | .modBImm _ _ => .modBImm
  | .modWReg _ _ => .modWReg
  | .modWImm _ _ => .modWImm
  | .andBReg _ _ => .andBReg
  | .andBImm _ _ => .andBImm
  | .andWReg _ _ => .andWReg
  | .andWImm _ _ => .andWImm
  | .orBReg _ _ => .orBReg
  | .orBImm _ _ => .orBImm
  | .orWReg _ _ => .orWReg
  | .orWImm _ _ => .orWImm
  | .xorBReg _ _ => .xorBReg
  | .xorBImm _ _ => .xorBImm
  | .xorWReg _ _ => .xorWReg
  | .xorWImm _ _ => .xorWImm
  | .shlBReg _ _ => .shlBReg
  | .shlBImm _ _ => .shlBImm
  | .shlWReg _ _ => .shlWReg
  | .shlWImm _ _ => .shlWImm
  | .shrBReg _ _ => .shrBReg
  | .shrBImm _ _ => .shrBImm
  | .shrWReg _ _ => .shrWReg
  | .shrWImm _ _ => .shrWImm
  | .cmpBReg _ _ => .cmpBReg
  | .cmpBImm _ _ => .cmpBImm
  | .cmpWReg _ _ => .cmpWReg
  | .cmpWImm _ _ => .cmpWImm
  | .notB _ => .notB
  | .notW _ => .notW
  | .negB _ => .negB
  | .negW _ => .negW
  | .jmp _ => .jmp
  | .jmpRel _ => .jmpRel
  | .je _ => .je
  | .jeRel _ => .jeRel
  | .jne _ => .jne
  | .jneRel _ => .jneRel
  | .jb _ => .jb
  | .jbRel _ => .jbRel
  | .jbe _ => .jbe
  | .jbeRel _ => .jbeRel
  | .ja _ => .ja
  | .jaRel _ => .jaRel
  | .jae _ => .jae
  | .jaeRel _ => .jaeRel
  | .jl _ => .jl
  | .jlRel _ => .jlRel
  | .jle _ => .jle
  | .jleRel _ => .jleRel
  | .jg _ => .jg
  | .jgRel _ => .jgRel
  | .jge _ => .jge
  | .jgeRel _ => .jgeRel
  | .call _ => .call
  | .callRel _ => .callRel
  | .loop _ => .loop
  | .loopRel _ => .loopRel
  | .ret => .ret
  | .push _ => .push
  | .pop _ => .pop
  | .input => .input
  | .output => .output
  | .seek _ _ => .seek
  | .halt => .halt

/-- The operands of an instruction in stream order, destination first (R92). -/
def Instr.operands : Instr → List Operand
  | .movbI2r rd imm => [.reg rd, .imm imm]
  | .movwI2r rd imm => [.reg rd, .imm imm]
  | .movbR2r rd rs => [.reg rd, .reg rs]
  | .movwR2r rd rs => [.reg rd, .reg rs]
  | .movbM2r rd addr => [.reg rd, .imm addr]
  | .movwM2r rd addr => [.reg rd, .imm addr]
  | .movbR2m addr rs => [.imm addr, .reg rs]
  | .movwR2m addr rs => [.imm addr, .reg rs]
  | .ldb rd ra => [.reg rd, .reg ra]
  | .ldw rd ra => [.reg rd, .reg ra]
  | .lda rd ra => [.reg rd, .reg ra]
  | .stb ra rs => [.reg ra, .reg rs]
  | .stw ra rs => [.reg ra, .reg rs]
  | .sta ra rs => [.reg ra, .reg rs]
  | .lpb rd ra => [.reg rd, .reg ra]
  | .addBReg rd rs => [.reg rd, .reg rs]
  | .addBImm rd imm => [.reg rd, .imm imm]
  | .addWReg rd rs => [.reg rd, .reg rs]
  | .addWImm rd imm => [.reg rd, .imm imm]
  | .subBReg rd rs => [.reg rd, .reg rs]
  | .subBImm rd imm => [.reg rd, .imm imm]
  | .subWReg rd rs => [.reg rd, .reg rs]
  | .subWImm rd imm => [.reg rd, .imm imm]
  | .mulBReg rd rs => [.reg rd, .reg rs]
  | .mulBImm rd imm => [.reg rd, .imm imm]
  | .mulWReg rd rs => [.reg rd, .reg rs]
  | .mulWImm rd imm => [.reg rd, .imm imm]
  | .divBReg rd rs => [.reg rd, .reg rs]
  | .divBImm rd imm => [.reg rd, .imm imm]
  | .divWReg rd rs => [.reg rd, .reg rs]
  | .divWImm rd imm => [.reg rd, .imm imm]
  | .modBReg rd rs => [.reg rd, .reg rs]
  | .modBImm rd imm => [.reg rd, .imm imm]
  | .modWReg rd rs => [.reg rd, .reg rs]
  | .modWImm rd imm => [.reg rd, .imm imm]
  | .andBReg rd rs => [.reg rd, .reg rs]
  | .andBImm rd imm => [.reg rd, .imm imm]
  | .andWReg rd rs => [.reg rd, .reg rs]
  | .andWImm rd imm => [.reg rd, .imm imm]
  | .orBReg rd rs => [.reg rd, .reg rs]
  | .orBImm rd imm => [.reg rd, .imm imm]
  | .orWReg rd rs => [.reg rd, .reg rs]
  | .orWImm rd imm => [.reg rd, .imm imm]
  | .xorBReg rd rs => [.reg rd, .reg rs]
  | .xorBImm rd imm => [.reg rd, .imm imm]
  | .xorWReg rd rs => [.reg rd, .reg rs]
  | .xorWImm rd imm => [.reg rd, .imm imm]
  | .shlBReg rd rs => [.reg rd, .reg rs]
  | .shlBImm rd imm => [.reg rd, .imm imm]
  | .shlWReg rd rs => [.reg rd, .reg rs]
  | .shlWImm rd imm => [.reg rd, .imm imm]
  | .shrBReg rd rs => [.reg rd, .reg rs]
  | .shrBImm rd imm => [.reg rd, .imm imm]
  | .shrWReg rd rs => [.reg rd, .reg rs]
  | .shrWImm rd imm => [.reg rd, .imm imm]
  | .cmpBReg rd rs => [.reg rd, .reg rs]
  | .cmpBImm rd imm => [.reg rd, .imm imm]
  | .cmpWReg rd rs => [.reg rd, .reg rs]
  | .cmpWImm rd imm => [.reg rd, .imm imm]
  | .notB rd => [.reg rd]
  | .notW rd => [.reg rd]
  | .negB rd => [.reg rd]
  | .negW rd => [.reg rd]
  | .jmp addr => [.imm addr]
  | .jmpRel off => [.off off]
  | .je addr => [.imm addr]
  | .jeRel off => [.off off]
  | .jne addr => [.imm addr]
  | .jneRel off => [.off off]
  | .jb addr => [.imm addr]
  | .jbRel off => [.off off]
  | .jbe addr => [.imm addr]
  | .jbeRel off => [.off off]
  | .ja addr => [.imm addr]
  | .jaRel off => [.off off]
  | .jae addr => [.imm addr]
  | .jaeRel off => [.off off]
  | .jl addr => [.imm addr]
  | .jlRel off => [.off off]
  | .jle addr => [.imm addr]
  | .jleRel off => [.off off]
  | .jg addr => [.imm addr]
  | .jgRel off => [.off off]
  | .jge addr => [.imm addr]
  | .jgeRel off => [.off off]
  | .call addr => [.imm addr]
  | .callRel off => [.off off]
  | .loop addr => [.imm addr]
  | .loopRel off => [.off off]
  | .ret => []
  | .push rs => [.reg rs]
  | .pop rd => [.reg rd]
  | .input => []
  | .output => []
  | .seek rc rr => [.reg rc, .reg rr]
  | .halt => []

/-- The instruction of a form with no operand. -/
def build0 (i : Instr) : List Operand → Option Instr
  | [] => some i
  | _ => none

/-- The instruction of a form with one register. -/
def buildR (i : Reg → Instr) : List Operand → Option Instr
  | [.reg r] => some (i r)
  | _ => none

/-- The instruction of a form with two registers. -/
def buildRR (i : Reg → Reg → Instr) : List Operand → Option Instr
  | [.reg r, .reg q] => some (i r q)
  | _ => none

/-- The instruction of a form with a register and an immediate. -/
def buildRI (i : Reg → Nat → Instr) : List Operand → Option Instr
  | [.reg r, .imm v] => some (i r v)
  | _ => none

/-- The instruction of a form with an immediate address and a register. -/
def buildIR (i : Nat → Reg → Instr) : List Operand → Option Instr
  | [.imm v, .reg r] => some (i v r)
  | _ => none

/-- The instruction of a form with one immediate address. -/
def buildI (i : Nat → Instr) : List Operand → Option Instr
  | [.imm v] => some (i v)
  | _ => none

/-- The instruction of a form with one offset. -/
def buildO (i : Int → Instr) : List Operand → Option Instr
  | [.off d] => some (i d)
  | _ => none

/-- The instruction a form and its operands make; none for operands that are not of the form's classes, which the
decoder never builds (`decodeOperands_build` in Laws/Encoding.lean). -/
def Form.build : Form → List Operand → Option Instr
  | .movbI2r => buildRI .movbI2r
  | .movwI2r => buildRI .movwI2r
  | .movbR2r => buildRR .movbR2r
  | .movwR2r => buildRR .movwR2r
  | .movbM2r => buildRI .movbM2r
  | .movwM2r => buildRI .movwM2r
  | .movbR2m => buildIR .movbR2m
  | .movwR2m => buildIR .movwR2m
  | .ldb => buildRR .ldb
  | .ldw => buildRR .ldw
  | .lda => buildRR .lda
  | .stb => buildRR .stb
  | .stw => buildRR .stw
  | .sta => buildRR .sta
  | .lpb => buildRR .lpb
  | .addBReg => buildRR .addBReg
  | .addBImm => buildRI .addBImm
  | .addWReg => buildRR .addWReg
  | .addWImm => buildRI .addWImm
  | .subBReg => buildRR .subBReg
  | .subBImm => buildRI .subBImm
  | .subWReg => buildRR .subWReg
  | .subWImm => buildRI .subWImm
  | .mulBReg => buildRR .mulBReg
  | .mulBImm => buildRI .mulBImm
  | .mulWReg => buildRR .mulWReg
  | .mulWImm => buildRI .mulWImm
  | .divBReg => buildRR .divBReg
  | .divBImm => buildRI .divBImm
  | .divWReg => buildRR .divWReg
  | .divWImm => buildRI .divWImm
  | .modBReg => buildRR .modBReg
  | .modBImm => buildRI .modBImm
  | .modWReg => buildRR .modWReg
  | .modWImm => buildRI .modWImm
  | .andBReg => buildRR .andBReg
  | .andBImm => buildRI .andBImm
  | .andWReg => buildRR .andWReg
  | .andWImm => buildRI .andWImm
  | .orBReg => buildRR .orBReg
  | .orBImm => buildRI .orBImm
  | .orWReg => buildRR .orWReg
  | .orWImm => buildRI .orWImm
  | .xorBReg => buildRR .xorBReg
  | .xorBImm => buildRI .xorBImm
  | .xorWReg => buildRR .xorWReg
  | .xorWImm => buildRI .xorWImm
  | .shlBReg => buildRR .shlBReg
  | .shlBImm => buildRI .shlBImm
  | .shlWReg => buildRR .shlWReg
  | .shlWImm => buildRI .shlWImm
  | .shrBReg => buildRR .shrBReg
  | .shrBImm => buildRI .shrBImm
  | .shrWReg => buildRR .shrWReg
  | .shrWImm => buildRI .shrWImm
  | .cmpBReg => buildRR .cmpBReg
  | .cmpBImm => buildRI .cmpBImm
  | .cmpWReg => buildRR .cmpWReg
  | .cmpWImm => buildRI .cmpWImm
  | .notB => buildR .notB
  | .notW => buildR .notW
  | .negB => buildR .negB
  | .negW => buildR .negW
  | .jmp => buildI .jmp
  | .jmpRel => buildO .jmpRel
  | .je => buildI .je
  | .jeRel => buildO .jeRel
  | .jne => buildI .jne
  | .jneRel => buildO .jneRel
  | .jb => buildI .jb
  | .jbRel => buildO .jbRel
  | .jbe => buildI .jbe
  | .jbeRel => buildO .jbeRel
  | .ja => buildI .ja
  | .jaRel => buildO .jaRel
  | .jae => buildI .jae
  | .jaeRel => buildO .jaeRel
  | .jl => buildI .jl
  | .jlRel => buildO .jlRel
  | .jle => buildI .jle
  | .jleRel => buildO .jleRel
  | .jg => buildI .jg
  | .jgRel => buildO .jgRel
  | .jge => buildI .jge
  | .jgeRel => buildO .jgeRel
  | .call => buildI .call
  | .callRel => buildO .callRel
  | .loop => buildI .loop
  | .loopRel => buildO .loopRel
  | .ret => build0 .ret
  | .push => buildR .push
  | .pop => buildR .pop
  | .input => build0 .input
  | .output => build0 .output
  | .seek => buildRR .seek
  | .halt => build0 .halt

end Sys2Proof
end

