-- ==== Sys2Proof/WellFormed.lean ====
section
/-! DEFINITION. Which configurations the spec admits, and which instructions are well formed in one: every operand in the
range of its class (30_encoding.md R90) and the opcode a value that fits in a cell (R103). -/

namespace Sys2Proof

/-- A configuration the spec admits: 1 ≤ CB ≤ 64, WS ≥ 1, AS ≥ 1, W ≥ 4 (00_scope.md R5 to R7); OPMAP an injective map
of the 96 forms into 0 .. 255 (30_encoding.md R103); FLAG_POS four distinct bits below W (10_state.md R36). -/
def Config.admissible (c : Config) : Bool :=
  decide (1 ≤ c.cellBits ∧ c.cellBits ≤ 64 ∧ 1 ≤ c.wordCells ∧ 1 ≤ c.addrCells ∧ 4 ≤ c.wordBits ∧
    c.opmap.length = 96 ∧ (∀ v ∈ c.opmap, v ≤ 255) ∧ c.opmap.Nodup ∧
    [c.flagPos.z, c.flagPos.c, c.flagPos.s, c.flagPos.o].Nodup ∧
    c.flagPos.z < c.wordBits ∧ c.flagPos.c < c.wordBits ∧ c.flagPos.s < c.wordBits ∧ c.flagPos.o < c.wordBits)

/-- An operand in the range of its class (30_encoding.md R90; a register id must fit in its cell, 10_state.md R31). -/
def Operand.inRange (c : Config) : OperandClass → Operand → Bool
  | .r, .reg r => decide (r.id < 2 ^ c.cellBits)
  | .ib, .imm v => decide (v < 2 ^ c.cellBits)
  | .iw, .imm v => decide (v < 2 ^ c.wordBits)
  | .ia, .imm v => decide (v < 2 ^ c.addrBits)
  | .io, .off d => decide (minSigned c.addrBits ≤ d ∧ d ≤ maxSigned c.addrBits)
  | _, _ => false

/-- Operands in range class by class. -/
def operandsInRange (c : Config) : List OperandClass → List Operand → Bool
  | [], [] => true
  | k :: ks, o :: os => o.inRange c k && operandsInRange c ks os
  | _, _ => false

/-- An instruction that the configuration can encode (30_encoding.md R90, R103). -/
def Instr.wellFormed (c : Config) (i : Instr) : Bool :=
  decide (c.opcode i.form < 2 ^ c.cellBits) && operandsInRange c i.form.classes i.operands

end Sys2Proof
end

