-- ==== Sys2Proof/Decode.lean ====
section
/-! DEFINITION. The decoder (30_encoding.md R96 to R101) as a total function of the cells that stand from IP on, and the
encoder (R107). A decoding that fails answers the fault kind the spec names. -/

namespace Sys2Proof

/-- One operand of class `k` read from the cells that are left, and the cells after it. The bounds check on all of its
cells comes before the register-id check (30_encoding.md R99, R101; 60_exceptions.md R304). -/
def decodeOperand (c : Config) (le : Bool) (k : OperandClass) (cells : List Nat) :
    Except FaultKind (Operand × List Nat) :=
  if cells.length < k.cells c then .error .outOfBounds
  else
    let v := unpack c.cellBits (cells.take (k.cells c)) le
    let rest := cells.drop (k.cells c)
    match k with
    | .r =>
      match Reg.ofId v with
      | some r => .ok (.reg r, rest)
      | none => .error .badRegister
    | .io => .ok (.off (signed c.addrBits v), rest)
    | _ => .ok (.imm v, rest)

/-- The operands in stream order; the first check that fails is the one raised (30_encoding.md R99). -/
def decodeOperands (c : Config) (le : Bool) : List OperandClass → List Nat → Except FaultKind (List Operand)
  | [], _ => .ok []
  | k :: ks, cells =>
    match decodeOperand c le k cells with
    | .error e => .error e
    | .ok (o, rest) =>
      match decodeOperands c le ks rest with
      | .error e => .error e
      | .ok os => .ok (o :: os)

/-- The decoder: opcode fetch (R97), lookup (R98), then the operands with the byte order the opcode's parity selects
(R94, R99). `cells` are the program's cells from IP to its end, or at least the longest instruction's worth of them. The
last arm is never taken: the operands decoded are always of the form's classes. -/
def decode (c : Config) : List Nat → Except FaultKind Instr
  | [] => .error .outOfBounds
  | op :: cells =>
    match c.formOf op with
    | none => .error .unknownOpcode
    | some f =>
      match decodeOperands c (op % 2 == 0) f.classes cells with
      | .error e => .error e
      | .ok os =>
        match f.build os with
        | some i => .ok i
        | none => .error .unknownOpcode

/-- The raw value an operand is encoded as: a register's id, an immediate, an offset modulo 2^AW (30_encoding.md R107). -/
def Operand.raw (c : Config) : Operand → Nat
  | .reg r => r.id
  | .imm v => v
  | .off d => ofInt c.addrBits d

/-- The cells of the operands, each packed in the byte order `le` (30_encoding.md R107). -/
def encodeOperands (c : Config) (le : Bool) : List OperandClass → List Operand → List Nat
  | k :: ks, o :: os => pack c.cellBits (o.raw c) (k.cells c) le ++ encodeOperands c le ks os
  | _, _ => []

/-- The encoder: the opcode cell, then each operand in the byte order of the opcode's parity (30_encoding.md R107). -/
def encode (c : Config) (i : Instr) : List Nat :=
  let op := c.opcode i.form
  op :: encodeOperands c (op % 2 == 0) i.form.classes i.operands

/-- The cells of an instruction given as one number whose bit 0 is the least significant bit of the first cell, later
cells counting on from it; the bits from `nbits` up are 0. One cell takes CB bits (log entry 11). -/
def cellsOfBits (c : Config) (nbits w : Nat) : List Nat :=
  packLE c.cellBits (w % 2 ^ nbits) c.longest

/-- The instruction the decoder reads, in the default configuration, from an instruction whose bits are `w`. -/
def decodeTableWord (nbits w : Nat) : Option Instr :=
  match decode Config.default (cellsOfBits Config.default nbits w) with
  | .ok i => some i
  | .error _ => none

end Sys2Proof
end

