-- ==== Sys2Proof/Machine/Memory.lean ====
section
/-! DEFINITION. One backing array as plain data: the cells that differ from the reset fill, by rising address
(10_state.md R41, R44). Its size is not stored here: the multiplexer knows it (Machine/Mux.lean). -/

namespace Sys2Proof.Machine

/-- A backing array: (address, cell) pairs, addresses strictly rising, no entry equal to `Memory.unlisted`. -/
abbrev Memory := List (Nat × Nat)

/-- What an address with no entry reads as: the reset value of every cell the image does not cover
(10_state.md R44; the spec's decision D23, log entries 9 and 15). -/
def Memory.unlisted : Nat := 0

/-- The addresses of the entries rise strictly. -/
def Memory.rising : Memory → Bool
  | [] => true
  | (k, _) :: m => m.all (fun e => decide (k < e.1)) && Memory.rising m

/-- The canonical form: rising addresses, and no entry that says what an unlisted address reads as anyway. -/
def Memory.wf (m : Memory) : Bool :=
  Memory.rising m && m.all (fun e => e.2 != Memory.unlisted)

/-- Every entry lies below `size` and holds a cell of `cb` bits (10_state.md R41). -/
def Memory.fits (size cb : Nat) (m : Memory) : Bool :=
  m.all (fun e => decide (e.1 < size ∧ e.2 < 2 ^ cb))

/-- The cell at an address. -/
def Memory.get : Memory → Nat → Nat
  | [], _ => Memory.unlisted
  | (k, v) :: m, a => if k = a then v else Memory.get m a

/-- A store of one cell that keeps the canonical form: the value an unlisted address reads as removes the entry. -/
def Memory.set : Memory → Nat → Nat → Memory
  | [], a, v => if v = Memory.unlisted then [] else [(a, v)]
  | (k, w) :: m, a, v =>
    if a < k then (if v = Memory.unlisted then (k, w) :: m else (a, v) :: (k, w) :: m)
    else if a = k then (if v = Memory.unlisted then m else (a, v) :: m)
    else (k, w) :: Memory.set m a v

/-- The cells at `a .. a+n−1`. -/
def Memory.getCells (m : Memory) (a : Nat) : Nat → List Nat
  | 0 => []
  | n + 1 => m.get a :: Memory.getCells m (a + 1) n

/-- The cells of the list stored from `a` on. -/
def Memory.setCells (m : Memory) (a : Nat) : List Nat → Memory
  | [] => m
  | x :: xs => Memory.setCells (m.set a x) (a + 1) xs

end Sys2Proof.Machine
end

