-- ==== Sys2Proof/Machine/State.lean ====
section
/-! DEFINITION. The state of the machine: every piece of 10_state.md, the construction parameters it runs under, and what
stands between it and its host. Plain data throughout. -/

namespace Sys2Proof.Machine

/-- The run status with its fault record (10_state.md R40, 60_exceptions.md R302). -/
inductive Status where
  | running
  | halted
  /-- The kind of the fault and the address of the faulting instruction's opcode cell. -/
  | faulted (kind : FaultKind) (ip : Nat)
deriving DecidableEq, Repr

/-- The host's answer to an input request (00_scope.md R11, 44_io_halt.md R280). -/
inductive HostAnswer where
  | byte (b : BitVec 8)
  | endOfStream
deriving DecidableEq, Repr

/-- What the block sends to the host (00_scope.md R11, 44_io_halt.md R281, R282). -/
inductive HostEvent where
  | output (b : BitVec 8)
  | seek (col row : Nat)
deriving DecidableEq, Repr

/-- The host as a run of the model sees it (00_scope.md R9; log entries 5 and 7). It is no state of the block (10_state.md
R42): the step takes from `answers` and `returns`, adds to `sent` and reads `dropped`. -/
structure Channel where
  /-- The answers the host has given that no `in` has taken yet, oldest first. -/
  answers : List HostAnswer
  /-- What the host has received, oldest first. -/
  sent : List HostEvent
  /-- How many more requests of `out` and `seek` the host will return, none where it returns every one. At `some 0` it
  holds the block in the next such request (60_exceptions.md R312, 70_reset_and_hazards.md R340). -/
  returns : Option Nat
  /-- The host has dropped the block (60_exceptions.md R305). -/
  dropped : Bool
deriving DecidableEq, Repr

/-- The machine's state. -/
structure State where
  /-- The construction parameters, which no step writes (00_scope.md R8; log entry 1). -/
  config : Config
  /-- L, the length of the loaded image and the requested size of program (20_memory.md R67). -/
  imageLen : Nat
  /-- Register A, the accumulator (10_state.md R30). -/
  a : Nat
  /-- Register B (10_state.md R30). -/
  b : Nat
  /-- Register C, the counter (10_state.md R30). -/
  c : Nat
  /-- Register F, the flags and the plain bits beside them (10_state.md R36, R38). -/
  f : Nat
  /-- Register IP (10_state.md R39). Between steps it holds the address of the next opcode cell. -/
  ip : Nat
  /-- Register SP, the first free cell of the stack (10_state.md R33, 43_stack.md R272). -/
  sp : Nat
  /-- The run status (10_state.md R40). -/
  status : Status
  /-- The backing array of the class that holds `ram`. -/
  ramArray : Memory
  /-- The backing array of the class that holds `program` and not `ram`; empty where there is none. -/
  programArray : Memory
  /-- The backing array of the class that holds `stack` alone; empty where there is none. -/
  stackArray : Memory
  /-- The host. -/
  channel : Channel
deriving DecidableEq, Repr

/-- Why no step exists. The spec's own faults are no Lean faults: an instruction that raises FAULT(k) has a next state,
with status FAULTED (log entry 3). -/
inductive Fault where
  /-- Raised by `step` at status HALTED: "no later step exists" (10_state.md R40). Safe: the spec says so. -/
  | runHalted
  /-- Raised by `step` at status FAULTED, with the fault record: "no later step exists" (10_state.md R40,
  60_exceptions.md R306). Safe: the spec says so. -/
  | runFaulted (kind : FaultKind) (ip : Nat)
  /-- Raised by `step` once the host has dropped the block: it "leaves no status and executes no instruction"
  (60_exceptions.md R305, 70_reset_and_hazards.md R336). Safe: the spec says so. -/
  | dropped
deriving DecidableEq, Repr

/-- Why the model gives no meaning. -/
inductive Refusal where
  /-- An instruction whose meaning is not written yet; raised in an arm of `exec` only. Safe: the machine stops. -/
  | notModelled (mnemonic : String)
  /-- Raised by `construct` for a configuration outside the spec's range: "A model takes a configuration outside this
  range as refused" (00_scope.md R7). Safe: the spec says so. -/
  | inadmissibleConfig
deriving DecidableEq, Repr

/-- A host that has said nothing and received nothing, and that holds no `out` or `seek` (log entry 5). -/
def Channel.silent : Channel where
  answers := []
  sent := []
  returns := none
  dropped := false

/-- The machine right after reset (10_state.md R44, 70_reset_and_hazards.md R330): the default configuration, no image
loaded (log entry 10), IP = SP = A = B = C = F = 0, every cell 0, RUNNING, and a host that has said nothing. -/
def State.reset : State where
  config := Config.default
  imageLen := 0
  a := 0
  b := 0
  c := 0
  f := 0
  ip := 0
  sp := 0
  status := .running
  ramArray := []
  programArray := []
  stackArray := []
  channel := Channel.silent

end Sys2Proof.Machine
end

