-- ==== Sys2Proof/Machine/Mux.lean ====
section
/-! DEFINITION. The address-space multiplexer and the ROM port (20_memory.md R64 to R73): which array a name stands for,
how large it is, and the checked accesses through a name. -/

namespace Sys2Proof

/-- `resolve(name)`: the name whose array field holds the class of `n`, the first of ram, program, stack in the class
(20_memory.md R64, R65). -/
def MemMap.resolve : MemMap → Space → Space
  | .separate, n => n
  | .ramProgram, .program => .ram
  | .ramProgram, n => n
  | .ramStack, .stack => .ram
  | .ramStack, n => n
  | .programStack, .stack => .program
  | .programStack, n => n
  | .shared, _ => .ram

/-- The map in which the pairs so marked share an array, closed under transitivity: of three names, two links make all
three one (20_memory.md R65). -/
def MemMap.ofLinks (ramProgram ramStack programStack : Bool) : MemMap :=
  if (ramProgram && ramStack) || (ramProgram && programStack) || (ramStack && programStack) then .shared
  else if ramProgram then .ramProgram
  else if ramStack then .ramStack
  else if programStack then .programStack
  else .separate

/-- Some directive `x=y` or `y=x` stands in the list. -/
def linked (ds : List (Space × Space)) (x y : Space) : Bool :=
  ds.any (fun d => d == (x, y) || d == (y, x))

/-- The map built from the caller's alias directives (20_memory.md R65, R66). -/
def MemMap.ofDirectives (ds : List (Space × Space)) : MemMap :=
  MemMap.ofLinks (linked ds .ram .program) (linked ds .ram .stack) (linked ds .program .stack)

namespace Machine

/-- The array field that stands under a name of its own. -/
def State.array (s : State) : Space → Memory
  | .ram => s.ramArray
  | .program => s.programArray
  | .stack => s.stackArray

/-- The state with that array field replaced. -/
def State.setArray (s : State) (n : Space) (m : Memory) : State :=
  match n with
  | .ram => { s with ramArray := m }
  | .program => { s with programArray := m }
  | .stack => { s with stackArray := m }

/-- The array a logical name resolves to (20_memory.md R64). -/
def State.backing (s : State) (n : Space) : Memory :=
  s.array (s.config.map.resolve n)

/-- The state with the array that a logical name resolves to replaced. -/
def State.setBacking (s : State) (n : Space) (m : Memory) : State :=
  s.setArray (s.config.map.resolve n) m

/-- The requested size of a name (20_memory.md R67). -/
def State.requested (s : State) : Space → Nat
  | .ram => s.config.ramSize
  | .program => s.imageLen
  | .stack => s.config.stackSize

/-- What the name `m` asks of the array of the name `n`: its requested size if the two share it. -/
def State.share (s : State) (n m : Space) : Nat :=
  if s.config.map.resolve m = s.config.map.resolve n then s.requested m else 0

/-- `size(name)`: the largest requested size of the names in its class (20_memory.md R67). -/
def State.size (s : State) (n : Space) : Nat :=
  max (s.share n .ram) (max (s.share n .program) (s.share n .stack))

/-- The cell a logical name shows at an address, with no check. -/
def State.readCell (s : State) (n : Space) (a : Nat) : Nat :=
  (s.backing n).get a

/-- `MemRead(s, a, n)`, `a + k` without wrap-around (20_memory.md R68); memory is little-endian always (R63). -/
def State.memRead (s : State) (n : Space) (a k : Nat) : Except FaultKind Nat :=
  if s.size n < a + k then .error .outOfBounds
  else .ok (unpack s.config.cellBits ((s.backing n).getCells a k) true)

/-- The array of `n` with `k` cells of `v` stored little-endian from `a` on. -/
def State.store (s : State) (n : Space) (a k v : Nat) : State :=
  s.setBacking n ((s.backing n).setCells a (pack s.config.cellBits v k true))

/-- `MemWrite(s, a, n, v)`: the whole access is checked before any cell is written (20_memory.md R68). The read-only
attribute belongs to the name program, not to its array (R69). -/
def State.memWrite (s : State) (n : Space) (a k v : Nat) : Except FaultKind State :=
  if n = .program then .error .readOnlyWrite
  else if s.size n < a + k then .error .outOfBounds
  else .ok (s.store n a k v)

/-- `RomRead(a, n, le)`, the program-space read port (20_memory.md R71, R72). -/
def State.romRead (s : State) (a k : Nat) (le : Bool) : Except FaultKind Nat :=
  if s.size .program < a + k then .error .outOfBounds
  else .ok (unpack s.config.cellBits ((s.backing .program).getCells a k) le)

end Machine

end Sys2Proof
end

