-- ==== Sys2Proof/Machine/Ops.lean ====
section
/-! DEFINITION. The register file (10_state.md R30 to R35), the stack primitives (42_control_flow.md R233, 43_stack.md
R272), the decoder's advance of IP (30_encoding.md R100), and the taking of a fault (60_exceptions.md R300 to R303). There
is no return from a fault to write beside it: "a faulted run cannot be resumed" (R306). -/

namespace Sys2Proof

/-- The width in bits a tag names: CB, W or AW (10_state.md R32, 41_alu.md R160). -/
def Config.bits (c : Config) : Tag → Nat
  | .byte => c.cellBits
  | .word => c.wordBits
  | .addr => c.addrBits

/-- The width of a register: AW for IP and SP, W for the others (10_state.md R30). -/
def Config.regBits (c : Config) : Reg → Nat
  | .ip => c.addrBits
  | .sp => c.addrBits
  | _ => c.wordBits

namespace Machine

/-- x[r], the stored value of a register (00_scope.md R15). -/
def State.reg (s : State) : Reg → Nat
  | .a => s.a
  | .b => s.b
  | .c => s.c
  | .ip => s.ip
  | .sp => s.sp
  | .f => s.f

/-- x[r] <- v, the value stored unchanged (00_scope.md R15). -/
def State.putReg (s : State) (r : Reg) (v : Nat) : State :=
  match r with
  | .a => { s with a := v }
  | .b => { s with b := v }
  | .c => { s with c := v }
  | .ip => { s with ip := v }
  | .sp => { s with sp := v }
  | .f => { s with f := v }

/-- `RegRead(r, tag)`: truncation to the tag's width (10_state.md R32). -/
def State.regRead (s : State) (r : Reg) (tag : Tag) : Nat :=
  s.reg r % 2 ^ s.config.bits tag

/-- The value `new` that `RegWrite(r, tag, v)` puts into `r`: a byte write changes only the low CB bits, the others
truncate to the tag's width and then to the register's (10_state.md R33). -/
def State.merged (s : State) (r : Reg) (tag : Tag) (v : Nat) : Nat :=
  match tag with
  | .byte => s.reg r - s.reg r % 2 ^ s.config.cellBits + v % 2 ^ s.config.cellBits
  | _ => v % 2 ^ s.config.bits tag % 2 ^ s.config.regBits r

/-- `RegWrite(r, tag, v)`: a write that would leave SP above size(stack) faults (10_state.md R33). -/
def State.regWrite (s : State) (r : Reg) (tag : Tag) (v : Nat) : Except FaultKind State :=
  if r = .sp ∧ s.size .stack < s.merged r tag v then .error .outOfBounds
  else .ok (s.putReg r (s.merged r tag v))

/-- pc <- t: every write of IP is taken modulo 2^AW and is not checked (00_scope.md R15, 10_state.md R39). -/
def State.jump (s : State) (t : Nat) : State :=
  { s with ip := t % 2 ^ s.config.addrBits }

/-- `k` cells of `v` pushed at SP: STACK_OVERFLOW if they do not fit, before any write (42_control_flow.md R233, R256;
43_stack.md R270). SP + k is truncated to SP's width, which matters only where the stack is larger than the address space
(20_memory.md R76, DEDUCED, log entry 8). -/
def State.pushCells (s : State) (k v : Nat) : Except FaultKind State :=
  if s.size .stack < s.sp + k then .error .stackOverflow
  else do
    let t ← s.memWrite .stack s.sp k v
    .ok { t with sp := (s.sp + k) % 2 ^ s.config.addrBits }

/-- The `k` cells below SP, and the state with SP lowered: STACK_UNDERFLOW if there are fewer than `k`
(42_control_flow.md R233, R260; 43_stack.md R271). -/
def State.popCells (s : State) (k : Nat) : Except FaultKind (Nat × State) :=
  if s.sp < k then .error .stackUnderflow
  else do
    let v ← s.memRead .stack (s.sp - k) k
    .ok (v, { s with sp := s.sp - k })

/-- ip_next, the address after an instruction of form `f` at IP (10_state.md R39, 30_encoding.md R99). -/
def State.ipNext (s : State) (f : Form) : Nat :=
  (s.ip + f.length s.config) % 2 ^ s.config.addrBits

/-- The decoder's advance, made before the instruction's semantics run (30_encoding.md R100). -/
def State.advance (s : State) (f : Form) : State :=
  { s with ip := s.ipNext f }

/-- Taking FAULT(k): the state before the instruction but for the status, which records the kind and the address of the
opcode cell (60_exceptions.md R300, R302, R303; 70_reset_and_hazards.md R335). -/
def State.takeFault (s : State) (k : FaultKind) : State :=
  { s with status := .faulted k s.ip }

/-- One instruction at a state whose IP is ip0: advance, then the rule's pseudocode, then either its state or, where it
raises, the fault taken in the state before it (70_reset_and_hazards.md R333, R335; log entry 4). -/
def State.run (s : State) (f : Form) (body : State → Except FaultKind State) : Host.Outcome State Fault Refusal :=
  match body (s.advance f) with
  | .ok t => .next t
  | .error k => .next (s.takeFault k)

end Machine

end Sys2Proof
end

