-- ==== Sys2Proof/Machine/Operands.lean ====
section
/-! DEFINITION. The operand forms: where an instruction's second value, its memory address or its jump target comes from
(40_data_movement.md R130, 41_alu.md R161, 42_control_flow.md R230, R231). -/

namespace Sys2Proof.Machine

/-- Where the second operand of an ALU form comes from (41_alu.md R161). -/
inductive Source where
  | register (r : Reg)
  | immediate (v : Nat)
deriving DecidableEq, Repr

/-- The second operand at the form's width: a register read at the tag, an immediate as it is (41_alu.md R161). -/
def State.operand (s : State) (tag : Tag) : Source → Nat
  | .register r => s.regRead r tag
  | .immediate v => v

/-- A memory address held in a register, read at addr width (40_data_movement.md R130). -/
def State.addressIn (s : State) (r : Reg) : Nat :=
  s.regRead r .addr

/-- A relative target (ip_next + off) mod 2^AW, at a state whose IP is ip_next (42_control_flow.md R231). -/
def State.relTarget (s : State) (off : Int) : Nat :=
  ofInt s.config.addrBits ((s.ip : Int) + off)

/-- One cell of ram into the low cell of a register (40_data_movement.md R135, R139). -/
def State.loadByte (s : State) (rd : Reg) (addr : Nat) : Except FaultKind State := do
  let v ← s.memRead .ram addr 1
  s.regWrite rd .byte v

/-- One word of ram into a register (40_data_movement.md R136, R140). -/
def State.loadWord (s : State) (rd : Reg) (addr : Nat) : Except FaultKind State := do
  let v ← s.memRead .ram addr s.config.wordCells
  s.regWrite rd .word v

/-- One address of ram into a register (40_data_movement.md R141). -/
def State.loadAddr (s : State) (rd : Reg) (addr : Nat) : Except FaultKind State := do
  let v ← s.memRead .ram addr s.config.addrCells
  s.regWrite rd .addr v

/-- The low cell of a register into ram (40_data_movement.md R137, R142). -/
def State.storeByte (s : State) (addr : Nat) (rs : Reg) : Except FaultKind State :=
  s.memWrite .ram addr 1 (s.regRead rs .byte)

/-- A register word into ram (40_data_movement.md R138, R143). -/
def State.storeWord (s : State) (addr : Nat) (rs : Reg) : Except FaultKind State :=
  s.memWrite .ram addr s.config.wordCells (s.regRead rs .word)

/-- A register at addr width into ram (40_data_movement.md R144). -/
def State.storeAddr (s : State) (addr : Nat) (rs : Reg) : Except FaultKind State :=
  s.memWrite .ram addr s.config.addrCells (s.regRead rs .addr)

end Sys2Proof.Machine
end

