-- ==== Sys2Proof/Machine/Flags.lean ====
section
/-! DEFINITION. The flags of F (10_state.md R36 to R38), the ALU's results, carries and overflows (41_alu.md R160 to R167),
its two shared bodies, and the conditions of the conditional jumps (42_control_flow.md R232). -/

namespace Sys2Proof.Machine

/-- A value with one bit set to `b` and every other bit kept. -/
def setBit (v p : Nat) (b : Bool) : Nat :=
  (v ||| 2 ^ p) ^^^ (if b then 0 else 2 ^ p)

/-- F.Z (10_state.md R36). -/
def State.flagZ (s : State) : Bool :=
  s.f.testBit s.config.flagPos.z

/-- F.C, the flag and not the register (10_state.md R36). -/
def State.flagC (s : State) : Bool :=
  s.f.testBit s.config.flagPos.c

/-- F.S (10_state.md R36). -/
def State.flagS (s : State) : Bool :=
  s.f.testBit s.config.flagPos.s

/-- F.O (10_state.md R36). -/
def State.flagO (s : State) : Bool :=
  s.f.testBit s.config.flagPos.o

/-- What an ALU operation yields: the w-bit result, the carry and the overflow (41_alu.md R163 to R165). -/
structure AluResult where
  value : Nat
  carry : Bool
  overflow : Bool
deriving DecidableEq, Repr

/-- `SetFlags(w, res, c, o)`: the four flag bits of F and no other bit (41_alu.md R166, 10_state.md R38). -/
def State.setFlags (s : State) (w : Nat) (r : AluResult) : State :=
  let p := s.config.flagPos
  let f := setBit s.f p.z (r.value == 0)
  let f := setBit f p.s (r.value.testBit (w - 1))
  let f := setBit f p.c r.carry
  { s with f := setBit f p.o r.overflow }

/-- F.C <- b, the one flag that `in` writes (44_io_halt.md R280). -/
def State.setCarry (s : State) (b : Bool) : State :=
  { s with f := setBit s.f s.config.flagPos.c b }

/-- The signed mathematical result lies outside [MIN_w, MAX_w] (41_alu.md R165). -/
def overflows (w : Nat) (x : Int) : Bool :=
  decide (x < minSigned w ∨ maxSigned w < x)

/-- The operations of the ALU with two operands; cmp is sub without the register write (41_alu.md R163). -/
inductive AluOp where
  | add | sub | mul | div | mod | and | or | xor | shl | shr
deriving DecidableEq, Repr

/-- A shift count as far as it matters at width `w`: every count of `w` or more shifts all bits out. Shifting by the
whole count gives the same result, carry and overflow for every w-bit value (41_alu.md R163 to R165; log entry 12); a
product with 2^b for a count b of 63 bits could not be computed. -/
def shiftCount (w b : Nat) : Nat :=
  min b w

/-- Result, carry and overflow of two w-bit operands (41_alu.md R163 to R165); a zero divisor raises DIV_BY_ZERO (R167). -/
def AluOp.compute (op : AluOp) (w a b : Nat) : Except FaultKind AluResult :=
  match op with
  | .add => .ok
    { value := (a + b) % 2 ^ w
      carry := decide (2 ^ w ≤ a + b)
      overflow := overflows w (signed w a + signed w b) }
  | .sub => .ok
    { value := ofInt w ((a : Int) - b)
      carry := decide (a < b)
      overflow := overflows w (signed w a - signed w b) }
  | .mul => .ok
    { value := (a * b) % 2 ^ w
      carry := decide (2 ^ w ≤ a * b)
      overflow := overflows w (signed w a * signed w b) }
  | .div =>
    if b = 0 then .error .divByZero
    else .ok
      { value := ofInt w ((signed w a).tdiv (signed w b))
        carry := false
        overflow := decide (signed w a = minSigned w ∧ signed w b = -1) }
  | .mod =>
    if b = 0 then .error .divByZero
    else .ok { value := ofInt w ((signed w a).tmod (signed w b)), carry := false, overflow := false }
  | .and => .ok { value := a &&& b, carry := false, overflow := false }
  | .or => .ok { value := a ||| b, carry := false, overflow := false }
  | .xor => .ok { value := a ^^^ b, carry := false, overflow := false }
  | .shl => .ok
    { value := (a * 2 ^ shiftCount w b) % 2 ^ w
      carry := decide (2 ^ w ≤ a * 2 ^ shiftCount w b)
      overflow := overflows w (signed w a * (2 ^ shiftCount w b : Nat)) }
  | .shr => .ok { value := a / 2 ^ shiftCount w b, carry := false, overflow := false }

/-- The bitwise complement (41_alu.md R163). -/
def aluNot (w a : Nat) : AluResult :=
  { value := mask w - a, carry := false, overflow := false }

/-- The two's-complement negation; its carry is the borrow of 0 − a (41_alu.md R163 to R165). -/
def aluNeg (w a : Nat) : AluResult :=
  { value := ofInt w (-(a : Int)), carry := decide (a ≠ 0), overflow := decide (signed w a = minSigned w) }

/-- The end of every ALU form that has a destination: the result, then the flags, so that with destination F the flags
stand (41_alu.md R162, R166; 10_state.md R38). -/
def State.aluWrite (s : State) (tag : Tag) (rd : Reg) (r : AluResult) : Except FaultKind State := do
  let t ← s.regWrite rd tag r.value
  .ok (t.setFlags (t.config.bits tag) r)

/-- A form with two operands: both are read, the operation is computed, then `rd` and the flags are written
(41_alu.md R161, R162, R166). -/
def State.aluBinary (s : State) (op : AluOp) (tag : Tag) (rd : Reg) (src : Source) : Except FaultKind State := do
  let r ← op.compute (s.config.bits tag) (s.regRead rd tag) (s.operand tag src)
  s.aluWrite tag rd r

/-- A compare: the flags of the subtraction, and no register (41_alu.md R162, R210 to R213). -/
def State.aluCompare (s : State) (tag : Tag) (rd : Reg) (src : Source) : Except FaultKind State := do
  let r ← AluOp.sub.compute (s.config.bits tag) (s.regRead rd tag) (s.operand tag src)
  .ok (s.setFlags (s.config.bits tag) r)

/-- A form with one operand (41_alu.md R214 to R217). -/
def State.aluUnary (s : State) (op : Nat → Nat → AluResult) (tag : Tag) (rd : Reg) : Except FaultKind State :=
  s.aluWrite tag rd (op (s.config.bits tag) (s.regRead rd tag))

/-- When a conditional jump is taken (42_control_flow.md R232). -/
def State.holds (s : State) : Condition → Bool
  | .e => s.flagZ
  | .ne => !s.flagZ
  | .b => s.flagC
  | .be => s.flagC || s.flagZ
  | .a => !s.flagC && !s.flagZ
  | .ae => !s.flagC
  | .l => s.flagS != s.flagO
  | .le => s.flagZ || s.flagS != s.flagO
  | .g => !s.flagZ && s.flagS == s.flagO
  | .ge => s.flagS == s.flagO

end Sys2Proof.Machine
end

