-- ==== Sys2Proof/Machine/Arithmetic.lean ====
section
/-! DEFINITION. The arithmetic instructions add, sub, mul, div, mod and cmp (41_alu.md R170 to R189, R210 to R213), and
neg (R216, R217). -/

namespace Sys2Proof.Machine

/-- `add.b` (R170): addition at cell width, with a register. -/
def execAddBReg (rd rs : Reg) (s : State) : Host.Outcome State Fault Refusal :=
  s.run .addBReg fun s => s.aluBinary .add .byte rd (.register rs)

/-- `add.b` (R171): addition at cell width, with an immediate. -/
def execAddBImm (rd : Reg) (imm : Nat) (s : State) : Host.Outcome State Fault Refusal :=
  s.run .addBImm fun s => s.aluBinary .add .byte rd (.immediate imm)

/-- `add.w` (R172): addition at word width, with a register. -/
def execAddWReg (rd rs : Reg) (s : State) : Host.Outcome State Fault Refusal :=
  s.run .addWReg fun s => s.aluBinary .add .word rd (.register rs)

/-- `add.w` (R173): addition at word width, with an immediate. -/
def execAddWImm (rd : Reg) (imm : Nat) (s : State) : Host.Outcome State Fault Refusal :=
  s.run .addWImm fun s => s.aluBinary .add .word rd (.immediate imm)

/-- `sub.b` (R174): subtraction at cell width, with a register. -/
def execSubBReg (rd rs : Reg) (s : State) : Host.Outcome State Fault Refusal :=
  s.run .subBReg fun s => s.aluBinary .sub .byte rd (.register rs)

/-- `sub.b` (R175): subtraction at cell width, with an immediate. -/
def execSubBImm (rd : Reg) (imm : Nat) (s : State) : Host.Outcome State Fault Refusal :=
  s.run .subBImm fun s => s.aluBinary .sub .byte rd (.immediate imm)

/-- `sub.w` (R176): subtraction at word width, with a register. -/
def execSubWReg (rd rs : Reg) (s : State) : Host.Outcome State Fault Refusal :=
  s.run .subWReg fun s => s.aluBinary .sub .word rd (.register rs)

/-- `sub.w` (R177): subtraction at word width, with an immediate. -/
def execSubWImm (rd : Reg) (imm : Nat) (s : State) : Host.Outcome State Fault Refusal :=
  s.run .subWImm fun s => s.aluBinary .sub .word rd (.immediate imm)

/-- `mul.b` (R178): multiplication, low half kept at cell width, with a register. -/
def execMulBReg (rd rs : Reg) (s : State) : Host.Outcome State Fault Refusal :=
  s.run .mulBReg fun s => s.aluBinary .mul .byte rd (.register rs)

/-- `mul.b` (R179): multiplication, low half kept at cell width, with an immediate. -/
def execMulBImm (rd : Reg) (imm : Nat) (s : State) : Host.Outcome State Fault Refusal :=
  s.run .mulBImm fun s => s.aluBinary .mul .byte rd (.immediate imm)

/-- `mul.w` (R180): multiplication, low half kept at word width, with a register. -/
def execMulWReg (rd rs : Reg) (s : State) : Host.Outcome State Fault Refusal :=
  s.run .mulWReg fun s => s.aluBinary .mul .word rd (.register rs)

/-- `mul.w` (R181): multiplication, low half kept at word width, with an immediate. -/
def execMulWImm (rd : Reg) (imm : Nat) (s : State) : Host.Outcome State Fault Refusal :=
  s.run .mulWImm fun s => s.aluBinary .mul .word rd (.immediate imm)

/-- `div.b` (R182): signed division, truncating toward zero at cell width, with a register. -/
def execDivBReg (rd rs : Reg) (s : State) : Host.Outcome State Fault Refusal :=
  s.run .divBReg fun s => s.aluBinary .div .byte rd (.register rs)

/-- `div.b` (R183): signed division, truncating toward zero at cell width, with an immediate. -/
def execDivBImm (rd : Reg) (imm : Nat) (s : State) : Host.Outcome State Fault Refusal :=
  s.run .divBImm fun s => s.aluBinary .div .byte rd (.immediate imm)

/-- `div.w` (R184): signed division, truncating toward zero at word width, with a register. -/
def execDivWReg (rd rs : Reg) (s : State) : Host.Outcome State Fault Refusal :=
  s.run .divWReg fun s => s.aluBinary .div .word rd (.register rs)

/-- `div.w` (R185): signed division, truncating toward zero at word width, with an immediate. -/
def execDivWImm (rd : Reg) (imm : Nat) (s : State) : Host.Outcome State Fault Refusal :=
  s.run .divWImm fun s => s.aluBinary .div .word rd (.immediate imm)

/-- `mod.b` (R186): remainder of the signed division, with the sign of the dividend at cell width, with a register. -/
def execModBReg (rd rs : Reg) (s : State) : Host.Outcome State Fault Refusal :=
  s.run .modBReg fun s => s.aluBinary .mod .byte rd (.register rs)

/-- `mod.b` (R187): remainder of the signed division, with the sign of the dividend at cell width, with an immediate. -/
def execModBImm (rd : Reg) (imm : Nat) (s : State) : Host.Outcome State Fault Refusal :=
  s.run .modBImm fun s => s.aluBinary .mod .byte rd (.immediate imm)

/-- `mod.w` (R188): remainder of the signed division, with the sign of the dividend at word width, with a register. -/
def execModWReg (rd rs : Reg) (s : State) : Host.Outcome State Fault Refusal :=
  s.run .modWReg fun s => s.aluBinary .mod .word rd (.register rs)

/-- `mod.w` (R189): remainder of the signed division, with the sign of the dividend at word width, with an immediate. -/
def execModWImm (rd : Reg) (imm : Nat) (s : State) : Host.Outcome State Fault Refusal :=
  s.run .modWImm fun s => s.aluBinary .mod .word rd (.immediate imm)

/-- `cmp.b` (R210): compare at cell width, with a register. -/
def execCmpBReg (rd rs : Reg) (s : State) : Host.Outcome State Fault Refusal :=
  s.run .cmpBReg fun s => s.aluCompare .byte rd (.register rs)

/-- `cmp.b` (R211): compare at cell width, with an immediate. -/
def execCmpBImm (rd : Reg) (imm : Nat) (s : State) : Host.Outcome State Fault Refusal :=
  s.run .cmpBImm fun s => s.aluCompare .byte rd (.immediate imm)

/-- `cmp.w` (R212): compare at word width, with a register. -/
def execCmpWReg (rd rs : Reg) (s : State) : Host.Outcome State Fault Refusal :=
  s.run .cmpWReg fun s => s.aluCompare .word rd (.register rs)

/-- `cmp.w` (R213): compare at word width, with an immediate. -/
def execCmpWImm (rd : Reg) (imm : Nat) (s : State) : Host.Outcome State Fault Refusal :=
  s.run .cmpWImm fun s => s.aluCompare .word rd (.immediate imm)

/-- `neg.b` (R216): two's-complement negation at cell width. -/
def execNegB (rd : Reg) (s : State) : Host.Outcome State Fault Refusal :=
  s.run .negB fun s => s.aluUnary aluNeg .byte rd

/-- `neg.w` (R217): two's-complement negation at word width. -/
def execNegW (rd : Reg) (s : State) : Host.Outcome State Fault Refusal :=
  s.run .negW fun s => s.aluUnary aluNeg .word rd

end Sys2Proof.Machine
end

