-- ==== Sys2Proof/Machine/ControlFlow.lean ====
section
/-! DEFINITION. The control-flow instructions (42_control_flow.md R230 to R260). -/

namespace Sys2Proof.Machine

/-- A conditional jump: to `t` if the condition holds in F, else IP stays ip_next (42_control_flow.md R232). -/
def State.jumpIf (s : State) (cond : Condition) (t : Nat) : State :=
  if s.holds cond then s.jump t else s

/-- `jmp` (R234): jump to `addr`. -/
def execJmp (addr : Nat) (s : State) : Host.Outcome State Fault Refusal :=
  s.run .jmp fun s => .ok (s.jump addr)

/-- `jmp.rel` (R235): jump to ip_next + `off`. -/
def execJmpRel (off : Int) (s : State) : Host.Outcome State Fault Refusal :=
  s.run .jmpRel fun s => .ok (s.jump (s.relTarget off))

/-- `je` (R236): jump to `addr` if the condition `e` holds. -/
def execJe (addr : Nat) (s : State) : Host.Outcome State Fault Refusal :=
  s.run .je fun s => .ok (s.jumpIf .e addr)

/-- `je.rel` (R237): jump to ip_next + `off` if the condition `e` holds. -/
def execJeRel (off : Int) (s : State) : Host.Outcome State Fault Refusal :=
  s.run .jeRel fun s => .ok (s.jumpIf .e (s.relTarget off))

/-- `jne` (R238): jump to `addr` if the condition `ne` holds. -/
def execJne (addr : Nat) (s : State) : Host.Outcome State Fault Refusal :=
  s.run .jne fun s => .ok (s.jumpIf .ne addr)

/-- `jne.rel` (R239): jump to ip_next + `off` if the condition `ne` holds. -/
def execJneRel (off : Int) (s : State) : Host.Outcome State Fault Refusal :=
  s.run .jneRel fun s => .ok (s.jumpIf .ne (s.relTarget off))

/-- `jb` (R240): jump to `addr` if the condition `b` holds. -/
def execJb (addr : Nat) (s : State) : Host.Outcome State Fault Refusal :=
  s.run .jb fun s => .ok (s.jumpIf .b addr)

/-- `jb.rel` (R241): jump to ip_next + `off` if the condition `b` holds. -/
def execJbRel (off : Int) (s : State) : Host.Outcome State Fault Refusal :=
  s.run .jbRel fun s => .ok (s.jumpIf .b (s.relTarget off))

/-- `jbe` (R242): jump to `addr` if the condition `be` holds. -/
def execJbe (addr : Nat) (s : State) : Host.Outcome State Fault Refusal :=
  s.run .jbe fun s => .ok (s.jumpIf .be addr)

/-- `jbe.rel` (R243): jump to ip_next + `off` if the condition `be` holds. -/
def execJbeRel (off : Int) (s : State) : Host.Outcome State Fault Refusal :=
  s.run .jbeRel fun s => .ok (s.jumpIf .be (s.relTarget off))

/-- `ja` (R244): jump to `addr` if the condition `a` holds. -/
def execJa (addr : Nat) (s : State) : Host.Outcome State Fault Refusal :=
  s.run .ja fun s => .ok (s.jumpIf .a addr)

/-- `ja.rel` (R245): jump to ip_next + `off` if the condition `a` holds. -/
def execJaRel (off : Int) (s : State) : Host.Outcome State Fault Refusal :=
  s.run .jaRel fun s => .ok (s.jumpIf .a (s.relTarget off))

/-- `jae` (R246): jump to `addr` if the condition `ae` holds. -/
def execJae (addr : Nat) (s : State) : Host.Outcome State Fault Refusal :=
  s.run .jae fun s => .ok (s.jumpIf .ae addr)

/-- `jae.rel` (R247): jump to ip_next + `off` if the condition `ae` holds. -/
def execJaeRel (off : Int) (s : State) : Host.Outcome State Fault Refusal :=
  s.run .jaeRel fun s => .ok (s.jumpIf .ae (s.relTarget off))

/-- `jl` (R248): jump to `addr` if the condition `l` holds. -/
def execJl (addr : Nat) (s : State) : Host.Outcome State Fault Refusal :=
  s.run .jl fun s => .ok (s.jumpIf .l addr)

/-- `jl.rel` (R249): jump to ip_next + `off` if the condition `l` holds. -/
def execJlRel (off : Int) (s : State) : Host.Outcome State Fault Refusal :=
  s.run .jlRel fun s => .ok (s.jumpIf .l (s.relTarget off))

/-- `jle` (R250): jump to `addr` if the condition `le` holds. -/
def execJle (addr : Nat) (s : State) : Host.Outcome State Fault Refusal :=
  s.run .jle fun s => .ok (s.jumpIf .le addr)

/-- `jle.rel` (R251): jump to ip_next + `off` if the condition `le` holds. -/
def execJleRel (off : Int) (s : State) : Host.Outcome State Fault Refusal :=
  s.run .jleRel fun s => .ok (s.jumpIf .le (s.relTarget off))

/-- `jg` (R252): jump to `addr` if the condition `g` holds. -/
def execJg (addr : Nat) (s : State) : Host.Outcome State Fault Refusal :=
  s.run .jg fun s => .ok (s.jumpIf .g addr)

/-- `jg.rel` (R253): jump to ip_next + `off` if the condition `g` holds. -/
def execJgRel (off : Int) (s : State) : Host.Outcome State Fault Refusal :=
  s.run .jgRel fun s => .ok (s.jumpIf .g (s.relTarget off))

/-- `jge` (R254): jump to `addr` if the condition `ge` holds. -/
def execJge (addr : Nat) (s : State) : Host.Outcome State Fault Refusal :=
  s.run .jge fun s => .ok (s.jumpIf .ge addr)

/-- `jge.rel` (R255): jump to ip_next + `off` if the condition `ge` holds. -/
def execJgeRel (off : Int) (s : State) : Host.Outcome State Fault Refusal :=
  s.run .jgeRel fun s => .ok (s.jumpIf .ge (s.relTarget off))

/-- A call: the return address ip_next pushed as one address, then the jump (42_control_flow.md R233, R256, R257). -/
def State.callTo (s : State) (t : Nat) : Except FaultKind State := do
  let u ← s.pushCells s.config.addrCells s.ip
  .ok (u.jump t)

/-- C decremented modulo 2^W, then the jump if the new C is not zero; no flag is written (42_control_flow.md R258, R259). -/
def State.loopTo (s : State) (t : Nat) : State :=
  let u := { s with c := ofInt s.config.wordBits ((s.c : Int) - 1) }
  if u.c ≠ 0 then u.jump t else u

/-- `call` (R256): call the subroutine at `addr`. -/
def execCall (addr : Nat) (s : State) : Host.Outcome State Fault Refusal :=
  s.run .call fun s => s.callTo addr

/-- `call.rel` (R257): call the subroutine at ip_next + `off`. -/
def execCallRel (off : Int) (s : State) : Host.Outcome State Fault Refusal :=
  s.run .callRel fun s => s.callTo (s.relTarget off)

/-- `loop` (R258): decrement C and jump to `addr` if it is not zero. -/
def execLoop (addr : Nat) (s : State) : Host.Outcome State Fault Refusal :=
  s.run .loop fun s => .ok (s.loopTo addr)

/-- `loop.rel` (R259): decrement C and jump to ip_next + `off` if it is not zero. -/
def execLoopRel (off : Int) (s : State) : Host.Outcome State Fault Refusal :=
  s.run .loopRel fun s => .ok (s.loopTo (s.relTarget off))

/-- `ret` (R260): pop a return address and jump to it. -/
def execRet (s : State) : Host.Outcome State Fault Refusal :=
  s.run .ret fun s => do
    let (t, u) ← s.popCells s.config.addrCells
    .ok (u.jump t)

end Sys2Proof.Machine
end

