-- ==== Sys2Proof/Machine/DataMovement.lean ====
section
/-! DEFINITION. The data-movement instructions (40_data_movement.md R131 to R145). -/

namespace Sys2Proof.Machine

/-- `movb.i2r` (R131): the immediate cell into the low cell of `rd`. -/
def execMovbI2r (rd : Reg) (imm : Nat) (s : State) : Host.Outcome State Fault Refusal :=
  s.run .movbI2r fun s => s.regWrite rd .byte imm

/-- `movw.i2r` (R132): the immediate word into `rd`. -/
def execMovwI2r (rd : Reg) (imm : Nat) (s : State) : Host.Outcome State Fault Refusal :=
  s.run .movwI2r fun s => s.regWrite rd .word imm

/-- `movb.r2r` (R133): the low cell of `rs` into the low cell of `rd`. -/
def execMovbR2r (rd rs : Reg) (s : State) : Host.Outcome State Fault Refusal :=
  s.run .movbR2r fun s => s.regWrite rd .byte (s.regRead rs .byte)

/-- `movw.r2r` (R134): `rs` into `rd` at word width. -/
def execMovwR2r (rd rs : Reg) (s : State) : Host.Outcome State Fault Refusal :=
  s.run .movwR2r fun s => s.regWrite rd .word (s.regRead rs .word)

/-- `movb.m2r` (R135): the ram cell at `addr` into the low cell of `rd`. -/
def execMovbM2r (rd : Reg) (addr : Nat) (s : State) : Host.Outcome State Fault Refusal :=
  s.run .movbM2r fun s => s.loadByte rd addr

/-- `movw.m2r` (R136): the ram word at `addr` into `rd`. -/
def execMovwM2r (rd : Reg) (addr : Nat) (s : State) : Host.Outcome State Fault Refusal :=
  s.run .movwM2r fun s => s.loadWord rd addr

/-- `movb.r2m` (R137): the low cell of `rs` into ram at `addr`. -/
def execMovbR2m (addr : Nat) (rs : Reg) (s : State) : Host.Outcome State Fault Refusal :=
  s.run .movbR2m fun s => s.storeByte addr rs

/-- `movw.r2m` (R138): `rs` as a word into ram at `addr`. -/
def execMovwR2m (addr : Nat) (rs : Reg) (s : State) : Host.Outcome State Fault Refusal :=
  s.run .movwR2m fun s => s.storeWord addr rs

/-- `ldb` (R139): the ram cell at the address in `ra` into the low cell of `rd`. -/
def execLdb (rd ra : Reg) (s : State) : Host.Outcome State Fault Refusal :=
  s.run .ldb fun s => s.loadByte rd (s.addressIn ra)

/-- `ldw` (R140): the ram word at the address in `ra` into `rd`. -/
def execLdw (rd ra : Reg) (s : State) : Host.Outcome State Fault Refusal :=
  s.run .ldw fun s => s.loadWord rd (s.addressIn ra)

/-- `lda` (R141): the ram address at the address in `ra` into `rd`. -/
def execLda (rd ra : Reg) (s : State) : Host.Outcome State Fault Refusal :=
  s.run .lda fun s => s.loadAddr rd (s.addressIn ra)

/-- `stb` (R142): the low cell of `rs` into ram at the address in `ra`. -/
def execStb (ra rs : Reg) (s : State) : Host.Outcome State Fault Refusal :=
  s.run .stb fun s => s.storeByte (s.addressIn ra) rs

/-- `stw` (R143): `rs` as a word into ram at the address in `ra`. -/
def execStw (ra rs : Reg) (s : State) : Host.Outcome State Fault Refusal :=
  s.run .stw fun s => s.storeWord (s.addressIn ra) rs

/-- `sta` (R144): `rs` as an address into ram at the address in `ra`. -/
def execSta (ra rs : Reg) (s : State) : Host.Outcome State Fault Refusal :=
  s.run .sta fun s => s.storeAddr (s.addressIn ra) rs

/-- `lpb` (R145): the program cell at the address in `ra`, through the ROM port, into the low cell of `rd`. -/
def execLpb (rd ra : Reg) (s : State) : Host.Outcome State Fault Refusal :=
  s.run .lpb fun s => do
    let v ← s.romRead (s.addressIn ra) 1 true
    s.regWrite rd .byte v

end Sys2Proof.Machine
end

