-- ==== Sys2Proof/Machine/HostIO.lean ====
section
/-! DEFINITION. The I/O channel and halt (44_io_halt.md R280 to R283). -/

namespace Sys2Proof

/-- The byte the host receives for a cell: its value modulo 256, but for the cells OUT_MAP names (R281; D21, log
entry 14). -/
def Config.outByte (c : Config) (cell : Nat) : BitVec 8 :=
  (c.outMap.lookup cell).getD (BitVec.ofNat 8 (cell % 256))

namespace Machine

/-- The host is sent one more event and returns (00_scope.md R11). -/
def State.send (s : State) (e : HostEvent) : State :=
  { s with channel := { s.channel with
      sent := s.channel.sent ++ [e]
      returns := s.channel.returns.map (· - 1) } }

/-- The host returns no further request of `out` or `seek` (70_reset_and_hazards.md R340). -/
def State.hostHolds (s : State) : Bool :=
  s.channel.returns == some 0

/-- A request of the host by an instruction of form `f`: it blocks until the host's channel returns, with no timeout
(60_exceptions.md R312, 70_reset_and_hazards.md R340). While the host holds the block the step leaves everything as it is, IP
at the opcode cell (log entry 6). -/
def State.request (s : State) (f : Form) (e : State → HostEvent) : Host.Outcome State Fault Refusal :=
  if s.hostHolds then .next s else s.run f fun s => .ok (s.send (e s))

/-- The oldest pending answer of the host is taken. -/
def State.takeAnswer (s : State) : State :=
  { s with channel := { s.channel with answers := s.channel.answers.tail } }

/-- The effect of an answer: a byte modulo 2^CB into the low cell of A with F.C = 0; at end-of-stream the low cell all
ones and F.C = 1 (44_io_halt.md R280). -/
def State.receive (s : State) (r : HostAnswer) : Except FaultKind State := do
  match r with
  | .byte b =>
    let t ← s.regWrite .a .byte (b.toNat % 2 ^ s.config.cellBits)
    .ok (t.setCarry false).takeAnswer
  | .endOfStream =>
    let t ← s.regWrite .a .byte (mask s.config.cellBits)
    .ok (t.setCarry true).takeAnswer

/-- `in` (R280): one host byte into the low cell of A, or end-of-stream. While the host has not answered the block waits:
the step leaves everything as it is, IP at the opcode cell (log entry 6). -/
def execInput (s : State) : Host.Outcome State Fault Refusal :=
  match s.channel.answers with
  | [] => .next s
  | r :: _ => s.run .input fun s => s.receive r

/-- `out` (R281): the low cell of A to the host, as OUT_MAP gives it, once the host returns. -/
def execOutput (s : State) : Host.Outcome State Fault Refusal :=
  s.request .output fun s => .output (s.config.outByte (s.regRead .a .byte))

/-- `seek` (R282): the column in `rc` and the row in `rr` to the host, whole words, unclamped, once the host returns. -/
def execSeek (rc rr : Reg) (s : State) : Host.Outcome State Fault Refusal :=
  s.request .seek fun s => .seek (s.regRead rc .word) (s.regRead rr .word)

/-- `halt` (R283): the run ends; IP stays ip_next. -/
def execHalt (s : State) : Host.Outcome State Fault Refusal :=
  s.run .halt fun s => .ok { s with status := .halted }

end Machine

end Sys2Proof
end

