-- ==== Sys2Proof/Machine/Logic.lean ====
section
/-! DEFINITION. The logic and shift instructions and, or, xor, shl, shr (41_alu.md R190 to R209) and not (R214, R215). -/

namespace Sys2Proof.Machine

/-- `and.b` (R190): bitwise AND at cell width, with a register. -/
def execAndBReg (rd rs : Reg) (s : State) : Host.Outcome State Fault Refusal :=
  s.run .andBReg fun s => s.aluBinary .and .byte rd (.register rs)

/-- `and.b` (R191): bitwise AND at cell width, with an immediate. -/
def execAndBImm (rd : Reg) (imm : Nat) (s : State) : Host.Outcome State Fault Refusal :=
  s.run .andBImm fun s => s.aluBinary .and .byte rd (.immediate imm)

/-- `and.w` (R192): bitwise AND at word width, with a register. -/
def execAndWReg (rd rs : Reg) (s : State) : Host.Outcome State Fault Refusal :=
  s.run .andWReg fun s => s.aluBinary .and .word rd (.register rs)

/-- `and.w` (R193): bitwise AND at word width, with an immediate. -/
def execAndWImm (rd : Reg) (imm : Nat) (s : State) : Host.Outcome State Fault Refusal :=
  s.run .andWImm fun s => s.aluBinary .and .word rd (.immediate imm)

/-- `or.b` (R194): bitwise OR at cell width, with a register. -/
def execOrBReg (rd rs : Reg) (s : State) : Host.Outcome State Fault Refusal :=
  s.run .orBReg fun s => s.aluBinary .or .byte rd (.register rs)

/-- `or.b` (R195): bitwise OR at cell width, with an immediate. -/
def execOrBImm (rd : Reg) (imm : Nat) (s : State) : Host.Outcome State Fault Refusal :=
  s.run .orBImm fun s => s.aluBinary .or .byte rd (.immediate imm)

/-- `or.w` (R196): bitwise OR at word width, with a register. -/
def execOrWReg (rd rs : Reg) (s : State) : Host.Outcome State Fault Refusal :=
  s.run .orWReg fun s => s.aluBinary .or .word rd (.register rs)

/-- `or.w` (R197): bitwise OR at word width, with an immediate. -/
def execOrWImm (rd : Reg) (imm : Nat) (s : State) : Host.Outcome State Fault Refusal :=
  s.run .orWImm fun s => s.aluBinary .or .word rd (.immediate imm)

/-- `xor.b` (R198): bitwise exclusive OR at cell width, with a register. -/
def execXorBReg (rd rs : Reg) (s : State) : Host.Outcome State Fault Refusal :=
  s.run .xorBReg fun s => s.aluBinary .xor .byte rd (.register rs)

/-- `xor.b` (R199): bitwise exclusive OR at cell width, with an immediate. -/
def execXorBImm (rd : Reg) (imm : Nat) (s : State) : Host.Outcome State Fault Refusal :=
  s.run .xorBImm fun s => s.aluBinary .xor .byte rd (.immediate imm)

/-- `xor.w` (R200): bitwise exclusive OR at word width, with a register. -/
def execXorWReg (rd rs : Reg) (s : State) : Host.Outcome State Fault Refusal :=
  s.run .xorWReg fun s => s.aluBinary .xor .word rd (.register rs)

/-- `xor.w` (R201): bitwise exclusive OR at word width, with an immediate. -/
def execXorWImm (rd : Reg) (imm : Nat) (s : State) : Host.Outcome State Fault Refusal :=
  s.run .xorWImm fun s => s.aluBinary .xor .word rd (.immediate imm)

/-- `shl.b` (R202): shift left at cell width, with a register. -/
def execShlBReg (rd rs : Reg) (s : State) : Host.Outcome State Fault Refusal :=
  s.run .shlBReg fun s => s.aluBinary .shl .byte rd (.register rs)

/-- `shl.b` (R203): shift left at cell width, with an immediate. -/
def execShlBImm (rd : Reg) (imm : Nat) (s : State) : Host.Outcome State Fault Refusal :=
  s.run .shlBImm fun s => s.aluBinary .shl .byte rd (.immediate imm)

/-- `shl.w` (R204): shift left at word width, with a register. -/
def execShlWReg (rd rs : Reg) (s : State) : Host.Outcome State Fault Refusal :=
  s.run .shlWReg fun s => s.aluBinary .shl .word rd (.register rs)

/-- `shl.w` (R205): shift left at word width, with an immediate. -/
def execShlWImm (rd : Reg) (imm : Nat) (s : State) : Host.Outcome State Fault Refusal :=
  s.run .shlWImm fun s => s.aluBinary .shl .word rd (.immediate imm)

/-- `shr.b` (R206): logical shift right at cell width, with a register. -/
def execShrBReg (rd rs : Reg) (s : State) : Host.Outcome State Fault Refusal :=
  s.run .shrBReg fun s => s.aluBinary .shr .byte rd (.register rs)

/-- `shr.b` (R207): logical shift right at cell width, with an immediate. -/
def execShrBImm (rd : Reg) (imm : Nat) (s : State) : Host.Outcome State Fault Refusal :=
  s.run .shrBImm fun s => s.aluBinary .shr .byte rd (.immediate imm)

/-- `shr.w` (R208): logical shift right at word width, with a register. -/
def execShrWReg (rd rs : Reg) (s : State) : Host.Outcome State Fault Refusal :=
  s.run .shrWReg fun s => s.aluBinary .shr .word rd (.register rs)

/-- `shr.w` (R209): logical shift right at word width, with an immediate. -/
def execShrWImm (rd : Reg) (imm : Nat) (s : State) : Host.Outcome State Fault Refusal :=
  s.run .shrWImm fun s => s.aluBinary .shr .word rd (.immediate imm)

/-- `not.b` (R214): bitwise complement at cell width. -/
def execNotB (rd : Reg) (s : State) : Host.Outcome State Fault Refusal :=
  s.run .notB fun s => s.aluUnary aluNot .byte rd

/-- `not.w` (R215): bitwise complement at word width. -/
def execNotW (rd : Reg) (s : State) : Host.Outcome State Fault Refusal :=
  s.run .notW fun s => s.aluUnary aluNot .word rd

end Sys2Proof.Machine
end

