-- ==== Sys2Proof/Machine/StackOps.lean ====
section
/-! DEFINITION. The stack instructions (43_stack.md R270, R271). -/

namespace Sys2Proof.Machine

/-- `push` (R270): `rs` as a word onto the stack; `push sp` stores SP before the push, `push ip` stores ip_next. -/
def execPush (rs : Reg) (s : State) : Host.Outcome State Fault Refusal :=
  s.run .push fun s => s.pushCells s.config.wordCells (s.regRead rs .word)

/-- `pop` (R271): the top word of the stack into `rd`; with `rd` SP the loaded value replaces the lowered SP. -/
def execPop (rd : Reg) (s : State) : Host.Outcome State Fault Refusal :=
  s.run .pop fun s => do
    let (v, u) ← s.popCells s.config.wordCells
    u.regWrite rd .word v

end Sys2Proof.Machine
end

