-- ==== Sys2Proof/Machine/Dispatch.lean ====
section
/-! DEFINITION. Dispatch: the decoded form selects the instruction's rule (30_encoding.md R102, 41_alu.md R168). -/

namespace Sys2Proof.Machine

def exec (i : Instr) (s : State) : Host.Outcome State Fault Refusal :=
  match i with
  | .movbI2r rd imm => Sys2Proof.Machine.execMovbI2r rd imm s
  | .movwI2r rd imm => Sys2Proof.Machine.execMovwI2r rd imm s
  | .movbR2r rd rs => Sys2Proof.Machine.execMovbR2r rd rs s
  | .movwR2r rd rs => Sys2Proof.Machine.execMovwR2r rd rs s
  | .movbM2r rd addr => Sys2Proof.Machine.execMovbM2r rd addr s
  | .movwM2r rd addr => Sys2Proof.Machine.execMovwM2r rd addr s
  | .movbR2m addr rs => Sys2Proof.Machine.execMovbR2m addr rs s
  | .movwR2m addr rs => Sys2Proof.Machine.execMovwR2m addr rs s
  | .ldb rd ra => Sys2Proof.Machine.execLdb rd ra s
  | .ldw rd ra => Sys2Proof.Machine.execLdw rd ra s
  | .lda rd ra => Sys2Proof.Machine.execLda rd ra s
  | .stb ra rs => Sys2Proof.Machine.execStb ra rs s
  | .stw ra rs => Sys2Proof.Machine.execStw ra rs s
  | .sta ra rs => Sys2Proof.Machine.execSta ra rs s
  | .lpb rd ra => Sys2Proof.Machine.execLpb rd ra s
  | .addBReg rd rs => Sys2Proof.Machine.execAddBReg rd rs s
  | .addBImm rd imm => Sys2Proof.Machine.execAddBImm rd imm s
  | .addWReg rd rs => Sys2Proof.Machine.execAddWReg rd rs s
  | .addWImm rd imm => Sys2Proof.Machine.execAddWImm rd imm s
  | .subBReg rd rs => Sys2Proof.Machine.execSubBReg rd rs s
  | .subBImm rd imm => Sys2Proof.Machine.execSubBImm rd imm s
  | .subWReg rd rs => Sys2Proof.Machine.execSubWReg rd rs s
  | .subWImm rd imm => Sys2Proof.Machine.execSubWImm rd imm s
  | .mulBReg rd rs => Sys2Proof.Machine.execMulBReg rd rs s
  | .mulBImm rd imm => Sys2Proof.Machine.execMulBImm rd imm s
  | .mulWReg rd rs => Sys2Proof.Machine.execMulWReg rd rs s
  | .mulWImm rd imm => Sys2Proof.Machine.execMulWImm rd imm s
  | .divBReg rd rs => Sys2Proof.Machine.execDivBReg rd rs s
  | .divBImm rd imm => Sys2Proof.Machine.execDivBImm rd imm s
  | .divWReg rd rs => Sys2Proof.Machine.execDivWReg rd rs s
  | .divWImm rd imm => Sys2Proof.Machine.execDivWImm rd imm s
  | .modBReg rd rs => Sys2Proof.Machine.execModBReg rd rs s
  | .modBImm rd imm => Sys2Proof.Machine.execModBImm rd imm s
  | .modWReg rd rs => Sys2Proof.Machine.execModWReg rd rs s
  | .modWImm rd imm => Sys2Proof.Machine.execModWImm rd imm s
  | .andBReg rd rs => Sys2Proof.Machine.execAndBReg rd rs s
  | .andBImm rd imm => Sys2Proof.Machine.execAndBImm rd imm s
  | .andWReg rd rs => Sys2Proof.Machine.execAndWReg rd rs s
  | .andWImm rd imm => Sys2Proof.Machine.execAndWImm rd imm s
  | .orBReg rd rs => Sys2Proof.Machine.execOrBReg rd rs s
  | .orBImm rd imm => Sys2Proof.Machine.execOrBImm rd imm s
  | .orWReg rd rs => Sys2Proof.Machine.execOrWReg rd rs s
  | .orWImm rd imm => Sys2Proof.Machine.execOrWImm rd imm s
  | .xorBReg rd rs => Sys2Proof.Machine.execXorBReg rd rs s
  | .xorBImm rd imm => Sys2Proof.Machine.execXorBImm rd imm s
  | .xorWReg rd rs => Sys2Proof.Machine.execXorWReg rd rs s
  | .xorWImm rd imm => Sys2Proof.Machine.execXorWImm rd imm s
  | .shlBReg rd rs => Sys2Proof.Machine.execShlBReg rd rs s
  | .shlBImm rd imm => Sys2Proof.Machine.execShlBImm rd imm s
  | .shlWReg rd rs => Sys2Proof.Machine.execShlWReg rd rs s
  | .shlWImm rd imm => Sys2Proof.Machine.execShlWImm rd imm s
  | .shrBReg rd rs => Sys2Proof.Machine.execShrBReg rd rs s
  | .shrBImm rd imm => Sys2Proof.Machine.execShrBImm rd imm s
  | .shrWReg rd rs => Sys2Proof.Machine.execShrWReg rd rs s
  | .shrWImm rd imm => Sys2Proof.Machine.execShrWImm rd imm s
  | .cmpBReg rd rs => Sys2Proof.Machine.execCmpBReg rd rs s
  | .cmpBImm rd imm => Sys2Proof.Machine.execCmpBImm rd imm s
  | .cmpWReg rd rs => Sys2Proof.Machine.execCmpWReg rd rs s
  | .cmpWImm rd imm => Sys2Proof.Machine.execCmpWImm rd imm s
  | .notB rd => Sys2Proof.Machine.execNotB rd s
  | .notW rd => Sys2Proof.Machine.execNotW rd s
  | .negB rd => Sys2Proof.Machine.execNegB rd s
  | .negW rd => Sys2Proof.Machine.execNegW rd s
  | .jmp addr => Sys2Proof.Machine.execJmp addr s
  | .jmpRel off => Sys2Proof.Machine.execJmpRel off s
  | .je addr => Sys2Proof.Machine.execJe addr s
  | .jeRel off => Sys2Proof.Machine.execJeRel off s
  | .jne addr => Sys2Proof.Machine.execJne addr s
  | .jneRel off => Sys2Proof.Machine.execJneRel off s
  | .jb addr => Sys2Proof.Machine.execJb addr s
  | .jbRel off => Sys2Proof.Machine.execJbRel off s
  | .jbe addr => Sys2Proof.Machine.execJbe addr s
  | .jbeRel off => Sys2Proof.Machine.execJbeRel off s
  | .ja addr => Sys2Proof.Machine.execJa addr s
  | .jaRel off => Sys2Proof.Machine.execJaRel off s
  | .jae addr => Sys2Proof.Machine.execJae addr s
  | .jaeRel off => Sys2Proof.Machine.execJaeRel off s
  | .jl addr => Sys2Proof.Machine.execJl addr s
  | .jlRel off => Sys2Proof.Machine.execJlRel off s
  | .jle addr => Sys2Proof.Machine.execJle addr s
  | .jleRel off => Sys2Proof.Machine.execJleRel off s
  | .jg addr => Sys2Proof.Machine.execJg addr s
  | .jgRel off => Sys2Proof.Machine.execJgRel off s
  | .jge addr => Sys2Proof.Machine.execJge addr s
  | .jgeRel off => Sys2Proof.Machine.execJgeRel off s
  | .call addr => Sys2Proof.Machine.execCall addr s
  | .callRel off => Sys2Proof.Machine.execCallRel off s
  | .loop addr => Sys2Proof.Machine.execLoop addr s
  | .loopRel off => Sys2Proof.Machine.execLoopRel off s
  | .ret => Sys2Proof.Machine.execRet s
  | .push rs => Sys2Proof.Machine.execPush rs s
  | .pop rd => Sys2Proof.Machine.execPop rd s
  | .input => Sys2Proof.Machine.execInput s
  | .output => Sys2Proof.Machine.execOutput s
  | .seek rc rr => Sys2Proof.Machine.execSeek rc rr s
  | .halt => Sys2Proof.Machine.execHalt s

end Sys2Proof.Machine
end

