-- ==== Sys2Proof/Machine/Load.lean ====
section
/-! DEFINITION. What happens outside a step: constructing a machine and loading its image (00_scope.md R7, R8;
10_state.md R44; 70_reset_and_hazards.md R330, R331), and the cells the decoder reads. -/

namespace Sys2Proof.Machine

/-- RESET_FILL: the values at start that the spec's decision D23 sets to zero (10_state.md R44): A, B, C, F, and cells by
logical name and address. A later entry for a cell replaces an earlier one; an entry outside its space is no cell and is
passed over (log entry 18). -/
structure ResetFill where
  a : Nat
  b : Nat
  c : Nat
  f : Nat
  cells : List (Space × Nat × Nat)
deriving DecidableEq, Repr

/-- The default of RESET_FILL: all zero (10_state.md R44). -/
def ResetFill.zero : ResetFill where
  a := 0
  b := 0
  c := 0
  f := 0
  cells := []

/-- One cell set from outside the machine, truncated to CB bits, if the address lies in the space. -/
def State.poke (s : State) (e : Space × Nat × Nat) : State :=
  if e.2.1 < s.size e.1 then s.setBacking e.1 ((s.backing e.1).set e.2.1 (e.2.2 % 2 ^ s.config.cellBits)) else s

/-- The loader: the image into cells 0 .. L−1 of the array behind program, each cell truncated to CB bits
(70_reset_and_hazards.md R331). These stores are not writes through the name program. -/
def State.loadImage (s : State) (img : List Nat) : State :=
  s.setBacking .program ((s.backing .program).setCells 0 (img.map (· % 2 ^ s.config.cellBits)))

/-- The machine at start (10_state.md R44, 70_reset_and_hazards.md R330): IP = SP = 0, RUNNING, the fill, then the image, and the
host as given (D37, log entry 5). -/
def State.start (cfg : Config) (fill : ResetFill) (img : List Nat) (answers : List HostAnswer)
    (returns : Option Nat) : State :=
  let s : State :=
    { State.reset with
      config := cfg
      imageLen := img.length
      a := fill.a % 2 ^ cfg.wordBits
      b := fill.b % 2 ^ cfg.wordBits
      c := fill.c % 2 ^ cfg.wordBits
      f := fill.f % 2 ^ cfg.wordBits
      channel := { Channel.silent with answers := answers, returns := returns } }
  (fill.cells.foldl State.poke s).loadImage img

/-- Constructing a machine: a configuration the spec does not admit is refused (00_scope.md R7). -/
def construct (cfg : Config) (fill : ResetFill) (img : List Nat) (answers : List HostAnswer) (returns : Option Nat) :
    Host.Outcome State Fault Refusal :=
  if cfg.admissible then .next (State.start cfg fill img answers returns) else .refused .inadmissibleConfig

/-- The cells the decoder can read: the program's cells from IP on, as many as the longest instruction has, fewer where the
program space ends before (30_encoding.md R97, R99; log entry 13). -/
def State.fetchCells (s : State) : List Nat :=
  (s.backing .program).getCells s.ip (min s.config.longest (s.size .program - s.ip))

/-- An instruction's cells placed where the next fetch reads, from outside the machine: the program space is made long
enough to hold them, the run is under way and the host is there (log entry 10). -/
def State.place (s : State) (cells : List Nat) : State :=
  { s.setBacking .program ((s.backing .program).setCells s.ip cells) with
    imageLen := max s.imageLen (s.ip + cells.length)
    status := .running
    channel := { s.channel with dropped := false } }

end Sys2Proof.Machine
end

