-- ==== Sys2Proof/Machine/Step.lean ====
section
/-! DEFINITION. One step of the block (70_reset_and_hazards.md R333 to R336). -/

namespace Sys2Proof.Machine

/-- `Step()`: a dropped block, a halted run and a faulted run have no step; a running one decodes the instruction at IP and
executes it, or takes the fault the decoder raises. -/
def step (s : State) : Host.Outcome State Fault Refusal :=
  if s.channel.dropped then .fault .dropped
  else
    match s.status with
    | .halted => .fault .runHalted
    | .faulted k ip => .fault (.runFaulted k ip)
    | .running =>
      match decode s.config s.fetchCells with
      | .ok i => exec i s
      | .error k => .next (s.takeFault k)

/-- The state with the instruction whose bits are `w` (numbered as the opcode table numbers them, those from `nbits` up
zero) placed where the next step fetches; log entries 10 and 11. -/
def State.withFetchWord (s : State) (nbits w : Nat) : State :=
  s.place (cellsOfBits s.config nbits w)

end Sys2Proof.Machine
end

