-- ==== Sys2Proof/Safety.lean ====
section
/-! DEFINITION. The terms in which claims are stated: the invariant of a machine the spec admits, the end of a run, and what
each instruction may write. -/

namespace Sys2Proof

/-- The register operand an instruction writes, if it has one (40_data_movement.md, 41_alu.md R162, 43_stack.md R271). -/
def Instr.dest : Instr → Option Reg
  | .movbI2r rd _ | .movwI2r rd _ | .movbR2r rd _ | .movwR2r rd _ | .movbM2r rd _ | .movwM2r rd _ | .ldb rd _
    | .ldw rd _ | .lda rd _ | .lpb rd _ | .addBReg rd _ | .addBImm rd _ | .addWReg rd _ | .addWImm rd _
    | .subBReg rd _ | .subBImm rd _ | .subWReg rd _ | .subWImm rd _ | .mulBReg rd _ | .mulBImm rd _ | .mulWReg rd _
    | .mulWImm rd _ | .divBReg rd _ | .divBImm rd _ | .divWReg rd _ | .divWImm rd _ | .modBReg rd _ | .modBImm rd _
    | .modWReg rd _ | .modWImm rd _ | .andBReg rd _ | .andBImm rd _ | .andWReg rd _ | .andWImm rd _ | .orBReg rd _
    | .orBImm rd _ | .orWReg rd _ | .orWImm rd _ | .xorBReg rd _ | .xorBImm rd _ | .xorWReg rd _ | .xorWImm rd _
    | .shlBReg rd _ | .shlBImm rd _ | .shlWReg rd _ | .shlWImm rd _ | .shrBReg rd _ | .shrBImm rd _ | .shrWReg rd _
    | .shrWImm rd _ | .notB rd | .notW rd | .negB rd | .negW rd | .pop rd => some rd
  | .movbR2m _ _ | .movwR2m _ _ | .stb _ _ | .stw _ _ | .sta _ _ | .cmpBReg _ _ | .cmpBImm _ _ | .cmpWReg _ _
    | .cmpWImm _ _ | .jmp _ | .jmpRel _ | .je _ | .jeRel _ | .jne _ | .jneRel _ | .jb _ | .jbRel _ | .jbe _
    | .jbeRel _ | .ja _ | .jaRel _ | .jae _ | .jaeRel _ | .jl _ | .jlRel _ | .jle _ | .jleRel _ | .jg _ | .jgRel _
    | .jge _ | .jgeRel _ | .call _ | .callRel _ | .loop _ | .loopRel _ | .ret | .push _ | .input | .output | .seek _ _
    | .halt => none

/-- The registers other than IP that an instruction may write without naming them (10_state.md R34): the ALU forms write
F, `in` writes A and F.C, `loop` writes C, the stack instructions write SP. -/
def Instr.implicit : Instr → List Reg
  | .addBReg _ _ | .addBImm _ _ | .addWReg _ _ | .addWImm _ _ | .subBReg _ _ | .subBImm _ _ | .subWReg _ _
    | .subWImm _ _ | .mulBReg _ _ | .mulBImm _ _ | .mulWReg _ _ | .mulWImm _ _ | .divBReg _ _ | .divBImm _ _
    | .divWReg _ _ | .divWImm _ _ | .modBReg _ _ | .modBImm _ _ | .modWReg _ _ | .modWImm _ _ | .andBReg _ _
    | .andBImm _ _ | .andWReg _ _ | .andWImm _ _ | .orBReg _ _ | .orBImm _ _ | .orWReg _ _ | .orWImm _ _
    | .xorBReg _ _ | .xorBImm _ _ | .xorWReg _ _ | .xorWImm _ _ | .shlBReg _ _ | .shlBImm _ _ | .shlWReg _ _
    | .shlWImm _ _ | .shrBReg _ _ | .shrBImm _ _ | .shrWReg _ _ | .shrWImm _ _ | .cmpBReg _ _ | .cmpBImm _ _
    | .cmpWReg _ _ | .cmpWImm _ _ | .notB _ | .notW _ | .negB _ | .negW _ => [.f]
  | .input => [.a, .f]
  | .loop _ | .loopRel _ => [.c]
  | .call _ | .callRel _ | .ret | .push _ | .pop _ => [.sp]
  | .movbI2r _ _ | .movwI2r _ _ | .movbR2r _ _ | .movwR2r _ _ | .movbM2r _ _ | .movwM2r _ _ | .ldb _ _ | .ldw _ _
    | .lda _ _ | .lpb _ _ | .movbR2m _ _ | .movwR2m _ _ | .stb _ _ | .stw _ _ | .sta _ _ | .jmp _ | .jmpRel _ | .je _
    | .jeRel _ | .jne _ | .jneRel _ | .jb _ | .jbRel _ | .jbe _ | .jbeRel _ | .ja _ | .jaRel _ | .jae _ | .jaeRel _
    | .jl _ | .jlRel _ | .jle _ | .jleRel _ | .jg _ | .jgRel _ | .jge _ | .jgeRel _ | .output | .seek _ _ | .halt => []

/-- The instruction is one of the 48 ALU forms (41_alu.md R168). -/
def Instr.isAlu : Instr → Bool
  | .addBReg _ _ | .addBImm _ _ | .addWReg _ _ | .addWImm _ _ | .subBReg _ _ | .subBImm _ _ | .subWReg _ _
    | .subWImm _ _ | .mulBReg _ _ | .mulBImm _ _ | .mulWReg _ _ | .mulWImm _ _ | .divBReg _ _ | .divBImm _ _
    | .divWReg _ _ | .divWImm _ _ | .modBReg _ _ | .modBImm _ _ | .modWReg _ _ | .modWImm _ _ | .andBReg _ _
    | .andBImm _ _ | .andWReg _ _ | .andWImm _ _ | .orBReg _ _ | .orBImm _ _ | .orWReg _ _ | .orWImm _ _
    | .xorBReg _ _ | .xorBImm _ _ | .xorWReg _ _ | .xorWImm _ _ | .shlBReg _ _ | .shlBImm _ _ | .shlWReg _ _
    | .shlWImm _ _ | .shrBReg _ _ | .shrBImm _ _ | .shrWReg _ _ | .shrWImm _ _ | .cmpBReg _ _ | .cmpBImm _ _
    | .cmpWReg _ _ | .cmpWImm _ _ | .notB _ | .notW _ | .negB _ | .negW _ => true
  | .movbI2r _ _ | .movwI2r _ _ | .movbR2r _ _ | .movwR2r _ _ | .movbM2r _ _ | .movwM2r _ _ | .ldb _ _ | .ldw _ _
    | .lda _ _ | .lpb _ _ | .movbR2m _ _ | .movwR2m _ _ | .stb _ _ | .stw _ _ | .sta _ _ | .jmp _ | .jmpRel _ | .je _
    | .jeRel _ | .jne _ | .jneRel _ | .jb _ | .jbRel _ | .jbe _ | .jbeRel _ | .ja _ | .jaRel _ | .jae _ | .jaeRel _
    | .jl _ | .jlRel _ | .jle _ | .jleRel _ | .jg _ | .jgRel _ | .jge _ | .jgeRel _ | .call _ | .callRel _ | .loop _
    | .loopRel _ | .ret | .push _ | .pop _ | .input | .output | .seek _ _ | .halt => false

namespace Machine

/-- The cells an instruction stores to, as the space, the address and the number of cells; none for one that stores
nothing (20_memory.md R70). The addresses are those the meanings use, read in the state the meaning reads them in. -/
def stores (i : Instr) (s : State) : Option (Space × Nat × Nat) :=
  match i with
  | .movbR2m addr _ => some (.ram, addr, 1)
  | .movwR2m addr _ => some (.ram, addr, s.config.wordCells)
  | .stb ra _ => some (.ram, (s.advance .stb).addressIn ra, 1)
  | .stw ra _ => some (.ram, (s.advance .stw).addressIn ra, s.config.wordCells)
  | .sta ra _ => some (.ram, (s.advance .sta).addressIn ra, s.config.addrCells)
  | .push _ => some (.stack, s.sp, s.config.wordCells)
  | .call _ | .callRel _ => some (.stack, s.sp, s.config.addrCells)
  | .movbI2r _ _ | .movwI2r _ _ | .movbR2r _ _ | .movwR2r _ _ | .movbM2r _ _ | .movwM2r _ _ | .ldb _ _ | .ldw _ _
    | .lda _ _ | .lpb _ _ | .addBReg _ _ | .addBImm _ _ | .addWReg _ _ | .addWImm _ _ | .subBReg _ _ | .subBImm _ _
    | .subWReg _ _ | .subWImm _ _ | .mulBReg _ _ | .mulBImm _ _ | .mulWReg _ _ | .mulWImm _ _ | .divBReg _ _
    | .divBImm _ _ | .divWReg _ _ | .divWImm _ _ | .modBReg _ _ | .modBImm _ _ | .modWReg _ _ | .modWImm _ _
    | .andBReg _ _ | .andBImm _ _ | .andWReg _ _ | .andWImm _ _ | .orBReg _ _ | .orBImm _ _ | .orWReg _ _
    | .orWImm _ _ | .xorBReg _ _ | .xorBImm _ _ | .xorWReg _ _ | .xorWImm _ _ | .shlBReg _ _ | .shlBImm _ _
    | .shlWReg _ _ | .shlWImm _ _ | .shrBReg _ _ | .shrBImm _ _ | .shrWReg _ _ | .shrWImm _ _ | .cmpBReg _ _
    | .cmpBImm _ _ | .cmpWReg _ _ | .cmpWImm _ _ | .notB _ | .notW _ | .negB _ | .negW _ | .jmp _ | .jmpRel _ | .je _
    | .jeRel _ | .jne _ | .jneRel _ | .jb _ | .jbRel _ | .jbe _ | .jbeRel _ | .ja _ | .jaRel _ | .jae _ | .jaeRel _
    | .jl _ | .jlRel _ | .jle _ | .jleRel _ | .jg _ | .jgRel _ | .jge _ | .jgeRel _ | .loop _ | .loopRel _ | .ret
    | .pop _ | .input | .output | .seek _ _ | .halt => none

/-- The cell `b` of the name `n` is one of the `k` cells from `a` on of the name `m`: the two names share an array and
the addresses meet. -/
def State.covers (s : State) (m : Space) (a k : Nat) (n : Space) (b : Nat) : Prop :=
  s.config.map.resolve n = s.config.map.resolve m ∧ a ≤ b ∧ b < a + k

/-- A step exists: the host has not dropped the block and the run is under way (10_state.md R40). -/
def State.live (s : State) : Prop :=
  s.channel.dropped = false ∧ s.status = .running

/-- The instruction waits for the host: `in` until the host has answered, `out` and `seek` while the host holds the block
(44_io_halt.md R280, 60_exceptions.md R312, 70_reset_and_hazards.md R340). -/
def State.waitsIn (s : State) : Instr → Prop
  | .input => s.channel.answers = []
  | .output | .seek _ _ => s.hostHolds = true
  | .movbI2r _ _ | .movwI2r _ _ | .movbR2r _ _ | .movwR2r _ _ | .movbM2r _ _ | .movwM2r _ _ | .movbR2m _ _
    | .movwR2m _ _ | .ldb _ _ | .ldw _ _ | .lda _ _ | .stb _ _ | .stw _ _ | .sta _ _ | .lpb _ _ | .addBReg _ _
    | .addBImm _ _ | .addWReg _ _ | .addWImm _ _ | .subBReg _ _ | .subBImm _ _ | .subWReg _ _ | .subWImm _ _
    | .mulBReg _ _ | .mulBImm _ _ | .mulWReg _ _ | .mulWImm _ _ | .divBReg _ _ | .divBImm _ _ | .divWReg _ _
    | .divWImm _ _ | .modBReg _ _ | .modBImm _ _ | .modWReg _ _ | .modWImm _ _ | .andBReg _ _ | .andBImm _ _
    | .andWReg _ _ | .andWImm _ _ | .orBReg _ _ | .orBImm _ _ | .orWReg _ _ | .orWImm _ _ | .xorBReg _ _
    | .xorBImm _ _ | .xorWReg _ _ | .xorWImm _ _ | .shlBReg _ _ | .shlBImm _ _ | .shlWReg _ _ | .shlWImm _ _
    | .shrBReg _ _ | .shrBImm _ _ | .shrWReg _ _ | .shrWImm _ _ | .cmpBReg _ _ | .cmpBImm _ _ | .cmpWReg _ _
    | .cmpWImm _ _ | .notB _ | .notW _ | .negB _ | .negW _ | .jmp _ | .jmpRel _ | .je _ | .jeRel _ | .jne _
    | .jneRel _ | .jb _ | .jbRel _ | .jbe _ | .jbeRel _ | .ja _ | .jaRel _ | .jae _ | .jaeRel _ | .jl _ | .jlRel _
    | .jle _ | .jleRel _ | .jg _ | .jgRel _ | .jge _ | .jgeRel _ | .call _ | .callRel _ | .loop _ | .loopRel _
    | .ret | .push _ | .pop _ | .halt => False

/-- The size of an array field: that of its class, 0 for a field no name resolves to. -/
def State.ownSize (s : State) (n : Space) : Nat :=
  if s.config.map.resolve n = n then s.size n else 0

/-- What holds of every machine the spec admits, between any two steps. -/
structure State.Inv (s : State) : Prop where
  /-- The configuration is one the spec admits (00_scope.md R5 to R8). -/
  admissible : s.config.admissible = true
  /-- Every register's value fits in its width (10_state.md R30). -/
  registers : ∀ r, s.reg r < 2 ^ s.config.regBits r
  /-- "SP lies within the stack space's bounds" (10_state.md R33, 43_stack.md R272). -/
  stackPointer : s.sp ≤ s.size .stack
  /-- Every array is in its canonical form. -/
  canonical : ∀ n, (s.array n).wf = true
  /-- Every cell lies in its array and fits in CB bits (10_state.md R41). -/
  cells : ∀ n, (s.array n).fits (s.ownSize n) s.config.cellBits = true
  /-- A fault record holds the address at which IP was left (60_exceptions.md R302). -/
  record : ∀ k p, s.status = .faulted k p → p = s.ip

/-- The host's exit code at the end of a run: 0 on a clean halt, 1 on a fault (60_exceptions.md R310). -/
def Status.exitCode : Status → Option Nat
  | .running => none
  | .halted => some 0
  | .faulted _ _ => some 1

/-- A step that raises no fault of the block. -/
def State.stepsSafely (s : State) : Prop :=
  ∃ t, step s = .next t ∧ ∀ k p, t.status ≠ .faulted k p

/-- `new` of RegWrite would keep SP within the stack: the one check a register write makes (10_state.md R33). -/
def State.accepts (s : State) (rd : Reg) (tag : Tag) (v : Nat) : Prop :=
  rd = .sp → s.merged rd tag v ≤ s.size .stack

/-- The mathematical value x lies outside [MIN_w, MAX_w] (41_alu.md R165). -/
def outsideSigned (w : Nat) (x : Int) : Bool :=
  !decide (minSigned w ≤ x ∧ x ≤ maxSigned w)

/-- The ALU instruction `i` of form `f` reads `a` from `rd` at the tag's width w and `b` as given, and completes: `res` is
written to `rd` by RegWrite, then the flags by SetFlags with carry `c` and overflow `o` (41_alu.md R161 to R166). All of it
is at the state after the decoder's advance, and it holds whenever the write of `rd` is accepted and `ok` holds of b. -/
def aluYields (i : Instr) (f : Form) (tag : Tag) (rd : Reg) (src : Source) (ok : Nat → Prop)
    (res : Nat → Nat → Nat → Nat) (c o : Nat → Nat → Nat → Bool) : Prop :=
  ∀ s : State,
    let u := s.advance f
    let w := u.config.bits tag
    let a := u.regRead rd tag
    let b := u.operand tag src
    ok b → u.accepts rd tag (res w a b) →
      exec i s = .next ((u.putReg rd (u.merged rd tag (res w a b))).setFlags w
        { value := res w a b, carry := c w a b, overflow := o w a b })

/-- The compare `i` of form `f` completes: the flags of the subtraction of `b` from `a` at the tag's width, no register
but IP (41_alu.md R210 to R213). -/
def compareYields (i : Instr) (f : Form) (tag : Tag) (rd : Reg) (src : Source) : Prop :=
  ∀ s : State,
    let u := s.advance f
    let w := u.config.bits tag
    let a := u.regRead rd tag
    let b := u.operand tag src
    exec i s = .next (u.setFlags w
      { value := ofInt w ((a : Int) - b)
        carry := decide (a < b)
        overflow := outsideSigned w (signed w a - signed w b) })

/-- The value of the `k` cells from `a` on that the name `n` shows, least significant first (20_memory.md R63). -/
def State.cellsValue (s : State) (n : Space) (a k : Nat) : Nat :=
  unpack s.config.cellBits ((List.range k).map fun j => s.readCell n (a + j)) true

/-- The load `i` of form `f` completes: the `k` cells at `addr` of `n` go to `rd` at the tag's width, whenever they lie in
the space and the write of `rd` is accepted (40_data_movement.md R130, R135 to R145). -/
def loadYields (i : Instr) (f : Form) (tag : Tag) (rd : Reg) (n : Space) (addr : State → Nat) (k : Config → Nat) : Prop :=
  ∀ s : State,
    let u := s.advance f
    let v := u.cellsValue n (addr u) (k u.config)
    addr u + k u.config ≤ u.size n → u.accepts rd tag v →
      exec i s = .next (u.putReg rd (u.merged rd tag v))

/-- The store `i` of form `f` completes: `k` cells of `rs` at the tag's width go to `addr` of ram, whenever they lie in it
(40_data_movement.md R137, R138, R142 to R144). -/
def storeYields (i : Instr) (f : Form) (tag : Tag) (rs : Reg) (addr : State → Nat) (k : Config → Nat) : Prop :=
  ∀ s : State,
    let u := s.advance f
    addr u + k u.config ≤ u.size .ram →
      exec i s = .next (u.store .ram (addr u) (k u.config) (u.regRead rs tag))

/-- The pair of an absolute and a relative jump completes: IP is the target if `taken`, else ip_next, and nothing else
changes (42_control_flow.md R230 to R232). -/
def jumpYields (abs : Nat → Instr) (rel : Int → Instr) (fabs frel : Form) (taken : State → Bool) : Prop :=
  ∀ s : State,
    (∀ addr, exec (abs addr) s = .next { s with
      ip := if taken s then addr % 2 ^ s.config.addrBits else s.ipNext fabs }) ∧
    (∀ off, exec (rel off) s = .next { s with
      ip := if taken s then ofInt s.config.addrBits ((s.ipNext frel : Int) + off) else s.ipNext frel })

/-- The instruction faults: the state before it, with the fault record (60_exceptions.md R300, R302, R303). -/
def faults (i : Instr) (s : State) (k : FaultKind) : Prop :=
  exec i s = .next { s with status := .faulted k s.ip }

/-- The write by `i` of the value `v` to SP at the tag's width is out of bounds, whenever `ready` holds and the write would
leave SP above size(stack); all of it at the state after the decoder's advance (10_state.md R33, D16). -/
def trapsAtSp (i : Instr) (tag : Tag) (ready : State → Prop) (v : State → Nat) : Prop :=
  ∀ s : State,
    let u := s.advance i.form
    ready u → u.size .stack < u.merged .sp tag (v u) → faults i s .outOfBounds

/-- What RESET_FILL gives the cell `b` of the name `n`: the value of the last entry that names the cell, by any name of its
array, modulo 2^CB; 0 if none does (10_state.md R44, D23, log entry 18). -/
def ResetFill.cellAt (fill : ResetFill) (c : Config) (n : Space) (b : Nat) : Nat :=
  match fill.cells.reverse.find? (fun e => c.map.resolve e.1 == c.map.resolve n && e.2.1 == b) with
  | some e => e.2.2 % 2 ^ c.cellBits
  | none => 0

end Machine

end Sys2Proof
end

