-- ==== Sys2Proof/Certificates/Slice0/Obligations.lean ====
section
/-! DEFINITION. The statements about the machine, for the provers. Where a statement rests on a decision the spec marks as
its own (92_eei_decisions.md, D1 to D39) or on a choice of the model (a log entry), its docstring says so. -/

open Sys2Proof Sys2Proof.Machine

/-! ## Encoding and decoding -/

/-- R107: the encoder writes the opcode, then each operand packed in the byte order of the opcode's parity, and decoding
the result gives the instruction back, whatever cells follow. -/
def Obligations.EncodeThenDecode : Prop :=
  ∀ (c : Config) (i : Instr) (rest : List Nat), c.admissible = true → i.wellFormed c = true →
    encode c i = c.opcode i.form ::
      ((i.form.classes.zip i.operands).flatMap fun p =>
        pack c.cellBits (p.2.raw c) (p.1.cells c) (c.opcode i.form % 2 == 0)) ∧
    decode c (encode c i ++ rest) = .ok i

/-- The other direction of R107 (derived): what decodes to an instruction begins with that instruction's encoding, and the
instruction is well formed. So each encoding has one meaning and no bit of an operand is dropped. -/
def Obligations.DecodeThenEncode : Prop :=
  ∀ (c : Config) (cells : List Nat) (i : Instr), c.admissible = true → (∀ x ∈ cells, x < 2 ^ c.cellBits) →
    decode c cells = .ok i →
      i.wellFormed c = true ∧ i.form.length c ≤ cells.length ∧ encode c i = cells.take (i.form.length c)

/-- R61: `unpack` in both byte orders as a sum, its bound, and that it inverts `pack`. -/
def Obligations.UnpackInvertsPack : Prop :=
  ∀ (cb : Nat),
    (∀ cells : List Nat, unpack cb cells true = ∑ i ∈ Finset.range cells.length, cells.getD i 0 * 2 ^ (i * cb)) ∧
    (∀ cells : List Nat, unpack cb cells false =
      ∑ i ∈ Finset.range cells.length, cells.getD i 0 * 2 ^ ((cells.length - 1 - i) * cb)) ∧
    (∀ (cells : List Nat) (le : Bool), (∀ x ∈ cells, x < 2 ^ cb) →
      unpack cb cells le < 2 ^ (cells.length * cb) ∧ pack cb (unpack cb cells le) cells.length le = cells) ∧
    (∀ (v n : Nat) (le : Bool), unpack cb (pack cb v n le) le = v % 2 ^ (n * cb))

/-- R60: the cells of `pack`, with u = v mod 2^(n·CB): little-endian cell i is bits (i+1)·CB−1 .. i·CB of u, big-endian
cell i is bits (n−i)·CB−1 .. (n−i−1)·CB of u. -/
def Obligations.PackLaysOutCells : Prop :=
  ∀ (cb v n i : Nat), i < n →
    let u := v % 2 ^ (n * cb)
    (pack cb v n true)[i]? = some (u / 2 ^ (i * cb) % 2 ^ cb) ∧
    (pack cb v n false)[i]? = some (u / 2 ^ ((n - i - 1) * cb) % 2 ^ cb) ∧
    (pack cb v n true).length = n ∧ (pack cb v n false).length = n

/-- R93 (derived): an instruction's length is that of its form, whatever its operands, and no form is longer than the window
of cells the decoder reads (log entry 13). -/
def Obligations.EncodedLengthIsFormLength : Prop :=
  ∀ (c : Config) (i : Instr),
    (encode c i).length = i.form.length c ∧ (c.admissible = true → ∀ f : Form, f.length c ≤ c.longest)

/-- Words written out from the encodings of 95_test_vectors.md, and the worked encoding of R108 with its opcode reassigned to
the odd value 97 (values the spec derives), encode and decode to the instructions they stand for. -/
def Obligations.WordsFromTheTable : Prop :=
  (let odd := { Config.default with opmap := Config.default.opmap.set 1 97 }
   encode odd (.movwI2r .a 0x102) = [97, 0, 0, 0, 0, 0, 0, 0, 0x102] ∧
   decode odd [97, 0, 0, 0, 0, 0, 0, 0, 0x102] = .ok (.movwI2r .a 0x102)) ∧
  encode Config.default (.movwI2r .a 0x102) = [2, 0, 0x102, 0, 0, 0, 0, 0, 0] ∧
  decode Config.default [0x002, 0, 0x102, 0, 0, 0, 0, 0, 0] = .ok (.movwI2r .a 0x102) ∧
  decode Config.default [0x008, 0x1F9, 1, 0, 0, 0, 0] = .ok (.movwR2m 0x3F9 .a) ∧
  decode Config.default [0x013, 1, 0, 0, 0, 0, 0, 0, 1] = .ok (.addWImm .b 1) ∧
  decode Config.default [0x041, 0x1FF, 0x1FF, 0x1FF, 0x1FF, 0x1FA] = .ok (.jmpRel (-6)) ∧
  decode Config.default [0x05B, 4] = .ok (.push .sp) ∧
  decode Config.default [0x05F, 1, 0] = .ok (.seek .b .a) ∧
  decode Config.default [0x060] = .ok .halt

/-! ## The decoder's faults -/

/-- R97: the opcode fetch. At an IP at or past the end of the program space the step faults with OUT_OF_BOUNDS at that
address; below it, the first cell the decoder reads is the program's cell at IP. -/
def Obligations.FetchPastProgramEndFaults : Prop :=
  ∀ s : State, s.live →
    (s.size .program ≤ s.ip → step s = .next { s with status := .faulted .outOfBounds s.ip }) ∧
    (s.ip < s.size .program → s.fetchCells.head? = some (s.readCell .program s.ip))

/-- R98: the opcode lookup. The cell at IP selects the form with that opcode, and UNKNOWN_OPCODE is raised if no form has
it. -/
def Obligations.UnassignedOpcodeFaults : Prop :=
  ∀ s : State, s.live → s.config.admissible = true → s.ip < s.size .program →
    (∀ f : Form, s.config.opcode f = s.readCell .program s.ip →
      s.config.formOf (s.readCell .program s.ip) = some f) ∧
    ((∀ f : Form, s.config.opcode f ≠ s.readCell .program s.ip) →
      step s = .next { s with status := .faulted .unknownOpcode s.ip })

/-- R99, R101, R304 (derived; the order is the spec's decisions D26 and D36, BAD_REGISTER its decision D4): the operands are
checked in stream order, each for the bounds of all its cells before its register id. `n` is the program's size and `cell k`
its cell k cells after the opcode. -/
def Obligations.DecoderFaultsInStreamOrder : Prop :=
  ∀ (s : State) (f : Form), s.live → s.config.admissible = true → s.ip < s.size .program →
    s.readCell .program s.ip = s.config.opcode f →
    let n := s.size .program
    let cell := fun k => s.readCell .program (s.ip + k)
    let fault := fun k => step s = .next { s with status := .faulted k s.ip }
    ((f.format = .R ∨ f.format = .RR ∨ f.format = .RIB ∨ f.format = .RIW ∨ f.format = .RIA) →
      (n = s.ip + 1 → fault .outOfBounds) ∧ (s.ip + 1 < n → 5 < cell 1 → fault .badRegister)) ∧
    (f.format = .RR → cell 1 ≤ 5 →
      (n = s.ip + 2 → fault .outOfBounds) ∧ (s.ip + 2 < n → 5 < cell 2 → fault .badRegister)) ∧
    (f.format = .RIB → cell 1 ≤ 5 → n = s.ip + 2 → fault .outOfBounds) ∧
    (f.format = .RIW → cell 1 ≤ 5 → s.ip + 1 < n → n < s.ip + 2 + s.config.wordCells → fault .outOfBounds) ∧
    (f.format = .RIA → cell 1 ≤ 5 → s.ip + 1 < n → n < s.ip + 2 + s.config.addrCells → fault .outOfBounds) ∧
    ((f.format = .IA ∨ f.format = .IO ∨ f.format = .IAR) → n < s.ip + 1 + s.config.addrCells → fault .outOfBounds) ∧
    (f.format = .IAR →
      (n = s.ip + 1 + s.config.addrCells → fault .outOfBounds) ∧
      (s.ip + 1 + s.config.addrCells < n → 5 < cell (1 + s.config.addrCells) → fault .badRegister))

/-! ## The step -/

/-- R333 (derived): a step of a live machine whose cells from IP on decode to `i` is `exec i`; the advance of IP is the
first thing `exec` does (log entry 4). -/
def Obligations.StepRunsDecodedInstruction : Prop :=
  ∀ (s : State) (i : Instr), s.live → decode s.config s.fetchCells = .ok i → step s = exec i s

/-- R96, R99, R333 (derived): where the program's cells from IP on are the encoding of a well-formed instruction, the step
is that instruction's. -/
def Obligations.StepRunsEncodedInstruction : Prop :=
  ∀ (s : State) (i : Instr), s.live → s.config.admissible = true → i.wellFormed s.config = true →
    s.ip + i.form.length s.config ≤ s.size .program →
    (∀ k, k < i.form.length s.config → s.readCell .program (s.ip + k) = (encode s.config i).getD k 0) →
    step s = exec i s

/-- R40, R305, R336 (derived: how the end of a run shows is log entries 3 and 7): a halted, a faulted and a dropped machine
have no step. -/
def Obligations.FinishedRunHasNoStep : Prop :=
  ∀ s : State,
    (s.channel.dropped = true → step s = .fault .dropped) ∧
    (s.channel.dropped = false → s.status = .halted → step s = .fault .runHalted) ∧
    (∀ k p, s.channel.dropped = false → s.status = .faulted k p → step s = .fault (.runFaulted k p))

/-- Every step keeps the invariant: admissible configuration, registers in their widths, SP within the stack, arrays
canonical with every cell in bounds and below 2^CB, a fault record that names IP (R30, R33, R41, R272, R302; that SP is
kept within the stack is the spec's decision D16 and log entry 8). -/
def Obligations.StepKeepsInvariant : Prop :=
  ∀ s t : State, s.Inv → step s = .next t → t.Inv

/-- The reset state meets the invariant. -/
def Obligations.ResetMeetsInvariant : Prop :=
  State.reset.Inv

/-- R44, R330 (derived; the values but IP's are the spec's decision D23, the configuration and the empty image are log
entries 10 and 17): what reset leaves. -/
def Obligations.ResetValues : Prop :=
  State.reset.ip = 0 ∧ State.reset.sp = 0 ∧ State.reset.a = 0 ∧ State.reset.b = 0 ∧ State.reset.c = 0 ∧
    State.reset.f = 0 ∧ State.reset.status = .running ∧ (∀ n b, State.reset.readCell n b = 0) ∧
    State.reset.config = Config.default ∧ State.reset.imageLen = 0

/-- R7, R44, R330, R331 (derived; D23, D37, log entries 5 and 18): a configuration outside the spec's range is refused, and
every other makes a machine that meets the invariant, starts at IP = SP = 0 with A, B, C, F as RESET_FILL gives them, runs,
shows the image, each cell modulo 2^CB, in cells 0 .. L−1 of the array behind program through every name of it, and shows in
every other cell of a space what the last entry of RESET_FILL for it says, 0 if there is none (`ResetFill.cellAt` in
Safety.lean). An address outside its space, where RESET_FILL may list entries that are passed over, reads as 0. -/
def Obligations.ConstructedMachineMeetsInvariant : Prop :=
  ∀ (cfg : Config) (fill : ResetFill) (img : List Nat) (answers : List HostAnswer)
    (returns : Option Nat),
    (cfg.admissible = false → construct cfg fill img answers returns = .refused .inadmissibleConfig) ∧
    (cfg.admissible = true → ∃ s, construct cfg fill img answers returns = .next s ∧ s.Inv ∧ s.config = cfg ∧
      s.ip = 0 ∧ s.sp = 0 ∧ s.status = .running ∧ s.imageLen = img.length ∧
      s.a = fill.a % 2 ^ cfg.wordBits ∧ s.b = fill.b % 2 ^ cfg.wordBits ∧ s.c = fill.c % 2 ^ cfg.wordBits ∧
      s.f = fill.f % 2 ^ cfg.wordBits ∧ 
      s.channel = { answers := answers, sent := [], returns := returns, dropped := false } ∧
      (∀ n b, s.covers .program 0 img.length n b → s.readCell n b = img.getD b 0 % 2 ^ cfg.cellBits) ∧
      (∀ n b, ¬ s.covers .program 0 img.length n b →
        s.readCell n b = if b < s.size n then fill.cellAt cfg n b else 0))

/-- R8, R67 (derived): no step changes the configuration, the image length or the size of any space. -/
def Obligations.StepKeepsConstruction : Prop :=
  ∀ s t : State, step s = .next t → t.config = s.config ∧ t.imageLen = s.imageLen ∧ ∀ n, t.size n = s.size n

/-- R300, R302, R303 (derived; D25): a step that ends FAULTED has changed nothing but the status, and records the address
of the instruction that faulted. -/
def Obligations.FaultsArePrecise : Prop :=
  ∀ (s t : State) (k : FaultKind) (p : Nat), s.live → step s = .next t → t.status = .faulted k p →
    t = { s with status := .faulted k s.ip }

/-- R283, R334 (derived; D31): a run becomes HALTED by a `halt` and by nothing else, and `halt` changes only IP, to ip_next,
and the status. -/
def Obligations.OnlyHaltHalts : Prop :=
  ∀ s t : State, s.live → step s = .next t →
    (t.status = .halted ↔ decode s.config s.fetchCells = .ok .halt) ∧
    (t.status = .halted → t = { s with ip := s.ipNext .halt, status := .halted })

/-- R70, R301 (derived): no step raises READ_ONLY_WRITE. -/
def Obligations.ReadOnlyFaultIsNeverRaised : Prop :=
  ∀ (s t : State) (p : Nat), s.live → step s = .next t → t.status ≠ .faulted .readOnlyWrite p

/-- R70, R71 (derived): with every name its own array, no instruction changes a program cell, only the five stores change a
ram cell, and only `push`, `call` and `call.rel` change a stack cell. -/
def Obligations.SpacesAreWrittenOnlyByTheirInstructions : Prop :=
  ∀ (i : Instr) (s t : State) (b : Nat), s.config.map = .separate → exec i s = .next t →
    t.readCell .program b = s.readCell .program b ∧
    (t.readCell .ram b ≠ s.readCell .ram b →
      (∃ a r, i = .movbR2m a r) ∨ (∃ a r, i = .movwR2m a r) ∨ (∃ q r, i = .stb q r) ∨ (∃ q r, i = .stw q r) ∨
        ∃ q r, i = .sta q r) ∧
    (t.readCell .stack b ≠ s.readCell .stack b → (∃ r, i = .push r) ∨ (∃ a, i = .call a) ∨ ∃ d, i = .callRel d)

/-! ## Frames, for all 96 instructions -/

/-- R34, R37, R162 (derived): a register other than IP that an instruction neither names as its destination nor writes
implicitly (`Instr.dest`, `Instr.implicit` in Safety.lean) is unchanged. -/
def Obligations.RegisterFrame : Prop :=
  ∀ (i : Instr) (s t : State) (r : Reg), exec i s = .next t → r ≠ .ip → i.dest ≠ some r → r ∉ i.implicit →
    t.reg r = s.reg r

/-- R37, R38, R166, R280 (derived; D14): an ALU form whose destination is not F changes only the four flag bits of F, and
`in` only F.C. -/
def Obligations.FlagFrame : Prop :=
  ∀ (s t : State) (p : Nat),
    (∀ i : Instr, i.isAlu = true → i.dest ≠ some .f → exec i s = .next t → p ≠ s.config.flagPos.z →
      p ≠ s.config.flagPos.c → p ≠ s.config.flagPos.s → p ≠ s.config.flagPos.o → t.f.testBit p = s.f.testBit p) ∧
    (exec .input s = .next t → p ≠ s.config.flagPos.c → t.f.testBit p = s.f.testBit p)

/-- R68, R69, R70 (derived): every cell of every space is unchanged but those the instruction stores to, at the address its
meaning computes (`stores` in Safety.lean), through whichever name they are read; one that stores nothing changes none. -/
def Obligations.MemoryFrame : Prop :=
  ∀ (i : Instr) (s t : State) (n : Space) (b : Nat), exec i s = .next t →
    (∀ m a k, stores i s = some (m, a, k) → ¬ s.covers m a k n b) → t.readCell n b = s.readCell n b

/-- R11, R280 to R282 (derived; log entries 5 to 7): only `in` takes an answer, and one; only `out` and `seek` send, and one
event, at which the host returns once; while the host holds them they leave the channel as it is; no instruction drops the
block. -/
def Obligations.ChannelFrame : Prop :=
  ∀ (i : Instr) (s t : State), exec i s = .next t →
    t.channel.dropped = s.channel.dropped ∧
    (i ≠ .input → t.channel.answers = s.channel.answers) ∧
    (i = .input → t.channel.answers = s.channel.answers.tail) ∧
    (i ≠ .output → (∀ q r, i ≠ .seek q r) →
      t.channel.sent = s.channel.sent ∧ t.channel.returns = s.channel.returns) ∧
    (i = .output ∨ (∃ q r, i = .seek q r) →
      if s.channel.returns = some 0 then t.channel = s.channel
      else t.channel.returns = s.channel.returns.map (· - 1) ∧ ∃ e, t.channel.sent = s.channel.sent ++ [e])

/-! ## Registers and memory -/

/-- R33 (derived; the SP check is the spec's decision D16): what RegWrite stores, that a byte write keeps the higher bits,
that nothing else changes, and when it faults. -/
def Obligations.RegisterWriteRule : Prop :=
  ∀ (s : State) (r : Reg) (tag : Tag) (v : Nat),
    let low := 2 ^ s.config.cellBits
    let new :=
      if tag = .byte then s.reg r - s.reg r % low + v % low
      else v % 2 ^ (if tag = .word then s.config.wordBits else s.config.addrBits) % 2 ^ s.config.regBits r
    (r = .sp → s.size .stack < new → s.regWrite r tag v = .error .outOfBounds) ∧
    ((r = .sp → new ≤ s.size .stack) → ∃ t, s.regWrite r tag v = .ok t ∧ t.reg r = new ∧
      (tag = .byte → t.reg r % low = v % low ∧ t.reg r / low = s.reg r / low) ∧
      (∀ q, q ≠ r → t.reg q = s.reg q) ∧ (∀ n b, t.readCell n b = s.readCell n b) ∧ t.status = s.status ∧
      t.config = s.config ∧ t.imageLen = s.imageLen ∧ t.channel = s.channel)

/-- R32: RegRead truncates the stored value to the tag's width. -/
def Obligations.RegisterReadTruncates : Prop :=
  ∀ (s : State) (r : Reg),
    s.regRead r .byte = s.reg r % 2 ^ s.config.cellBits ∧
    s.regRead r .word = s.reg r % 2 ^ s.config.wordBits ∧
    s.regRead r .addr = s.reg r % 2 ^ s.config.addrBits

/-- R68, R69, R77 (derived): a store in bounds through ram or stack reads back, through every name of its array, as the
value modulo 2^(k·CB), its cells are the value's digits, and no other cell changes. -/
def Obligations.StoreThenLoad : Prop :=
  ∀ (s : State) (n : Space) (a k v : Nat), s.Inv → n ≠ .program → a + k ≤ s.size n →
    ∃ t, s.memWrite n a k v = .ok t ∧
      (∀ m, s.config.map.resolve m = s.config.map.resolve n →
        t.memRead m a k = .ok (v % 2 ^ (k * s.config.cellBits)) ∧
        ∀ j, j < k → t.readCell m (a + j) = v / 2 ^ (j * s.config.cellBits) % 2 ^ s.config.cellBits) ∧
      (∀ m b, ¬ s.covers n a k m b → t.readCell m b = s.readCell m b)

/-- R68, R69, R72 (derived; D27): when an access faults, and with which kind. -/
def Obligations.AccessesAreBoundsChecked : Prop :=
  ∀ (s : State) (n : Space) (a k v : Nat) (le : Bool),
    (s.size n < a + k → s.memRead n a k = .error .outOfBounds) ∧
    (s.size .program < a + k → s.romRead a k le = .error .outOfBounds) ∧
    s.memWrite .program a k v = .error .readOnlyWrite ∧
    (n ≠ .program → s.size n < a + k → s.memWrite n a k v = .error .outOfBounds) ∧
    (a + k ≤ s.size n → s.memRead n a k = .ok (s.cellsValue n a k))

/-- R65, R66: two names share an array exactly when the reflexive, symmetric, transitive closure of the directives relates
them; with no directive each is alone; and the five maps are those of the rule. -/
def Obligations.AliasDirectivesClose : Prop :=
  (∀ (ds : List (Space × Space)) (x y : Space),
    (MemMap.ofDirectives ds).resolve x = (MemMap.ofDirectives ds).resolve y ↔
      Relation.EqvGen (fun p q => (p, q) ∈ ds) x y) ∧
  MemMap.ofDirectives [] = .separate ∧
  MemMap.ofDirectives [(.ram, .program)] = .ramProgram ∧
  MemMap.ofDirectives [(.ram, .stack)] = .ramStack ∧
  MemMap.ofDirectives [(.program, .stack)] = .programStack ∧
  MemMap.ofDirectives [(.ram, .program), (.stack, .program)] = .shared

/-- R67 (derived; that program asks for the image length is D24): the size of a name is the largest request among the names
of its array, and is one of them. -/
def Obligations.SizeIsLargestRequest : Prop :=
  ∀ (s : State) (n : Space),
    (∀ m, s.config.map.resolve m = s.config.map.resolve n → s.requested m ≤ s.size n) ∧
    (∃ m, s.config.map.resolve m = s.config.map.resolve n ∧ s.size n = s.requested m) ∧
    s.requested .ram = s.config.ramSize ∧ s.requested .stack = s.config.stackSize ∧
    s.requested .program = s.imageLen

/-! ## The ALU -/

/-- R38, R166 (derived): SetFlags writes the four flags of F and no other bit, and no other state. -/
def Obligations.FlagUpdateWritesFourBits : Prop :=
  ∀ (s : State) (w : Nat) (r : AluResult), s.config.admissible = true →
    let t := s.setFlags w r
    t.flagZ = (r.value == 0) ∧ t.flagS = r.value.testBit (w - 1) ∧ t.flagC = r.carry ∧ t.flagO = r.overflow ∧
    (∀ p, p ≠ s.config.flagPos.z → p ≠ s.config.flagPos.c → p ≠ s.config.flagPos.s → p ≠ s.config.flagPos.o →
      t.f.testBit p = s.f.testBit p) ∧
    t = { s with f := t.f }

/-- R163 to R165, R169 (derived; D11, D12, D13): for add, sub, mul, shl by the whole count, and neg, the result is the
mathematical result modulo 2^w on the unsigned and on the signed readings, carry says that the unsigned result lies outside
[0, 2^w), and overflow that the signed one lies outside [MIN_w, MAX_w]; div's overflow says the latter of the quotient. -/
def Obligations.ArithmeticIsExact : Prop :=
  ∀ (w a b : Nat), 1 ≤ w → a < 2 ^ w → b < 2 ^ w →
    let exact := fun (r : AluResult) (unsignedResult signedResult : Int) =>
      r.value = ofInt w unsignedResult ∧ r.value = ofInt w signedResult ∧
      r.carry = (!decide (0 ≤ unsignedResult ∧ unsignedResult < (2 ^ w : Nat))) ∧
      r.overflow = outsideSigned w signedResult
    (∃ r, AluOp.add.compute w a b = .ok r ∧ exact r ((a : Int) + b) (signed w a + signed w b)) ∧
    (∃ r, AluOp.sub.compute w a b = .ok r ∧ exact r ((a : Int) - b) (signed w a - signed w b)) ∧
    (∃ r, AluOp.mul.compute w a b = .ok r ∧ exact r ((a : Int) * b) (signed w a * signed w b)) ∧
    (∃ r, AluOp.shl.compute w a b = .ok r ∧ exact r ((a : Int) * 2 ^ b) (signed w a * 2 ^ b)) ∧
    exact (aluNeg w a) (-(a : Int)) (-signed w a) ∧
    (b ≠ 0 → ∃ r, AluOp.div.compute w a b = .ok r ∧
      r.overflow = outsideSigned w ((signed w a).tdiv (signed w b)))

/-- R14, R163 to R165, R167 (derived; signed operands are D12, carry and overflow D11): div and mod give, modulo 2^w, the one
quotient truncated toward zero and the one remainder with the sign of the dividend; the carry of both is 0, and so is the
overflow of mod. -/
def Obligations.DivisionTruncatesTowardZero : Prop :=
  ∀ (w a b : Nat) (q r : Int), 1 ≤ w → a < 2 ^ w → b < 2 ^ w → b ≠ 0 →
    signed w a = signed w b * q + r → |r| < |signed w b| → 0 ≤ r * signed w a →
    (∃ x, AluOp.div.compute w a b = .ok x ∧ x.value = ofInt w q ∧ x.carry = false) ∧
    (∃ x, AluOp.mod.compute w a b = .ok x ∧ x.value = ofInt w r ∧ x.carry = false ∧ x.overflow = false)

/-- R163 to R165 (derived; D11, D13): the bits of and, or, xor, not and shr by the whole count; carry and overflow are 0. -/
def Obligations.BitwiseResults : Prop :=
  ∀ (w a b k : Nat), a < 2 ^ w → b < 2 ^ w →
    let yields := fun (x : Except FaultKind AluResult) (bit : Bool) =>
      ∃ r, x = .ok r ∧ r.value < 2 ^ w ∧ r.value.testBit k = bit ∧ r.carry = false ∧ r.overflow = false
    yields (AluOp.and.compute w a b) (a.testBit k && b.testBit k) ∧
    yields (AluOp.or.compute w a b) (a.testBit k || b.testBit k) ∧
    yields (AluOp.xor.compute w a b) (a.testBit k != b.testBit k) ∧
    yields (.ok (aluNot w a)) (decide (k < w) && !a.testBit k) ∧
    yields (AluOp.shr.compute w a b) (a.testBit (k + b))

/-- R232 (derived; the flag formulas are the spec's decision D34): after a compare of a with b at the tag's width, each of
the ten conditions says of a and b what the rule's table says. -/
def Obligations.CompareDecidesConditions : Prop :=
  ∀ (s t : State) (tag : Tag) (rd : Reg) (src : Source), s.config.admissible = true →
    s.aluCompare tag rd src = .ok t →
    let w := s.config.bits tag
    let a := s.regRead rd tag
    let b := s.operand tag src
    b < 2 ^ w →
    (t.holds .e = true ↔ a = b) ∧ (t.holds .ne = true ↔ a ≠ b) ∧
    (t.holds .b = true ↔ a < b) ∧ (t.holds .be = true ↔ a ≤ b) ∧
    (t.holds .a = true ↔ b < a) ∧ (t.holds .ae = true ↔ b ≤ a) ∧
    (t.holds .l = true ↔ signed w a < signed w b) ∧ (t.holds .le = true ↔ signed w a ≤ signed w b) ∧
    (t.holds .g = true ↔ signed w b < signed w a) ∧ (t.holds .ge = true ↔ signed w b ≤ signed w a)

/-! ## Where each instruction completes -/

/-- R131 to R134 (derived; D16 for SP): the four moves into a register from an immediate or a register. -/
def Obligations.MovesComplete : Prop :=
  ∀ (s : State) (rd rs : Reg) (imm : Nat),
    (let u := s.advance .movbI2r
     u.accepts rd .byte imm → exec (.movbI2r rd imm) s = .next (u.putReg rd (u.merged rd .byte imm))) ∧
    (let u := s.advance .movwI2r
     u.accepts rd .word imm → exec (.movwI2r rd imm) s = .next (u.putReg rd (u.merged rd .word imm))) ∧
    (let u := s.advance .movbR2r
     let v := u.reg rs % 2 ^ u.config.cellBits
     u.accepts rd .byte v → exec (.movbR2r rd rs) s = .next (u.putReg rd (u.merged rd .byte v))) ∧
    (let u := s.advance .movwR2r
     let v := u.reg rs % 2 ^ u.config.wordBits
     u.accepts rd .word v → exec (.movwR2r rd rs) s = .next (u.putReg rd (u.merged rd .word v)))

/-- R135, R136, R139 to R141, R145 (derived; D9, D15): the loads from ram and `lpb` from program. -/
def Obligations.LoadsComplete : Prop :=
  ∀ (rd ra : Reg) (addr : Nat),
    loadYields (.movbM2r rd addr) .movbM2r .byte rd .ram (fun _ => addr) (fun _ => 1) ∧
    loadYields (.movwM2r rd addr) .movwM2r .word rd .ram (fun _ => addr) Config.wordCells ∧
    loadYields (.ldb rd ra) .ldb .byte rd .ram (fun u => u.reg ra % 2 ^ u.config.addrBits) (fun _ => 1) ∧
    loadYields (.ldw rd ra) .ldw .word rd .ram (fun u => u.reg ra % 2 ^ u.config.addrBits) Config.wordCells ∧
    loadYields (.lda rd ra) .lda .addr rd .ram (fun u => u.reg ra % 2 ^ u.config.addrBits) Config.addrCells ∧
    loadYields (.lpb rd ra) .lpb .byte rd .program (fun u => u.reg ra % 2 ^ u.config.addrBits) (fun _ => 1)

/-- R137, R138, R142 to R144 (derived; D9, D15): the stores to ram. -/
def Obligations.StoresComplete : Prop :=
  ∀ (ra rs : Reg) (addr : Nat),
    storeYields (.movbR2m addr rs) .movbR2m .byte rs (fun _ => addr) (fun _ => 1) ∧
    storeYields (.movwR2m addr rs) .movwR2m .word rs (fun _ => addr) Config.wordCells ∧
    storeYields (.stb ra rs) .stb .byte rs (fun u => u.reg ra % 2 ^ u.config.addrBits) (fun _ => 1) ∧
    storeYields (.stw ra rs) .stw .word rs (fun u => u.reg ra % 2 ^ u.config.addrBits) Config.wordCells ∧
    storeYields (.sta ra rs) .sta .addr rs (fun u => u.reg ra % 2 ^ u.config.addrBits) Config.addrCells

/-- R170 to R181 (derived; R164, R165 are D11): add, sub and mul in their four forms. -/
def Obligations.AddSubMulComplete : Prop :=
  ∀ (rd rs : Reg) (imm : Nat),
    let add := fun i f tag src => aluYields i f tag rd src (fun _ => True) (fun w a b => (a + b) % 2 ^ w)
      (fun w a b => decide (2 ^ w ≤ a + b)) (fun w a b => outsideSigned w (signed w a + signed w b))
    let sub := fun i f tag src => aluYields i f tag rd src (fun _ => True) (fun w a b => ofInt w ((a : Int) - b))
      (fun _ a b => decide (a < b)) (fun w a b => outsideSigned w (signed w a - signed w b))
    let mul := fun i f tag src => aluYields i f tag rd src (fun _ => True) (fun w a b => a * b % 2 ^ w)
      (fun w a b => decide (2 ^ w ≤ a * b)) (fun w a b => outsideSigned w (signed w a * signed w b))
    add (.addBReg rd rs) .addBReg .byte (.register rs) ∧ add (.addBImm rd imm) .addBImm .byte (.immediate imm) ∧
    add (.addWReg rd rs) .addWReg .word (.register rs) ∧ add (.addWImm rd imm) .addWImm .word (.immediate imm) ∧
    sub (.subBReg rd rs) .subBReg .byte (.register rs) ∧ sub (.subBImm rd imm) .subBImm .byte (.immediate imm) ∧
    sub (.subWReg rd rs) .subWReg .word (.register rs) ∧ sub (.subWImm rd imm) .subWImm .word (.immediate imm) ∧
    mul (.mulBReg rd rs) .mulBReg .byte (.register rs) ∧ mul (.mulBImm rd imm) .mulBImm .byte (.immediate imm) ∧
    mul (.mulWReg rd rs) .mulWReg .word (.register rs) ∧ mul (.mulWImm rd imm) .mulWImm .word (.immediate imm)

/-- R182 to R189 (derived; D11, D12): div and mod in their four forms, for a divisor that is not zero. -/
def Obligations.DivModComplete : Prop :=
  ∀ (rd rs : Reg) (imm : Nat),
    let div := fun i f tag src => aluYields i f tag rd src (fun b => b ≠ 0)
      (fun w a b => ofInt w ((signed w a).tdiv (signed w b))) (fun _ _ _ => false)
      (fun w a b => decide (signed w a = minSigned w ∧ signed w b = -1))
    let mod := fun i f tag src => aluYields i f tag rd src (fun b => b ≠ 0)
      (fun w a b => ofInt w ((signed w a).tmod (signed w b))) (fun _ _ _ => false) (fun _ _ _ => false)
    div (.divBReg rd rs) .divBReg .byte (.register rs) ∧ div (.divBImm rd imm) .divBImm .byte (.immediate imm) ∧
    div (.divWReg rd rs) .divWReg .word (.register rs) ∧ div (.divWImm rd imm) .divWImm .word (.immediate imm) ∧
    mod (.modBReg rd rs) .modBReg .byte (.register rs) ∧ mod (.modBImm rd imm) .modBImm .byte (.immediate imm) ∧
    mod (.modWReg rd rs) .modWReg .word (.register rs) ∧ mod (.modWImm rd imm) .modWImm .word (.immediate imm)

/-- R190 to R201 (derived; C = O = 0 is D11): and, or and xor in their four forms. -/
def Obligations.LogicCompletes : Prop :=
  ∀ (rd rs : Reg) (imm : Nat),
    let logic := fun i f tag src res => aluYields i f tag rd src (fun _ => True) (fun _ a b => res a b)
      (fun _ _ _ => false) (fun _ _ _ => false)
    let four := fun (breg bimm wreg wimm : Instr) fbreg fbimm fwreg fwimm (res : Nat → Nat → Nat) =>
      logic breg fbreg .byte (.register rs) res ∧ logic bimm fbimm .byte (.immediate imm) res ∧
      logic wreg fwreg .word (.register rs) res ∧ logic wimm fwimm .word (.immediate imm) res
    four (.andBReg rd rs) (.andBImm rd imm) (.andWReg rd rs) (.andWImm rd imm) .andBReg .andBImm .andWReg .andWImm
      (· &&& ·) ∧
    four (.orBReg rd rs) (.orBImm rd imm) (.orWReg rd rs) (.orWImm rd imm) .orBReg .orBImm .orWReg .orWImm
      (· ||| ·) ∧
    four (.xorBReg rd rs) (.xorBImm rd imm) (.xorWReg rd rs) (.xorWImm rd imm) .xorBReg .xorBImm .xorWReg .xorWImm
      (· ^^^ ·)

/-- R202 to R209 (derived; the whole count is D13, the carry and overflow D11): shl and shr in their four forms, by the
whole unsigned count b. -/
def Obligations.ShiftsComplete : Prop :=
  ∀ (rd rs : Reg) (imm : Nat),
    let shl := fun i f tag src => aluYields i f tag rd src (fun _ => True) (fun w a b => a * 2 ^ b % 2 ^ w)
      (fun w a b => decide (2 ^ w ≤ a * 2 ^ b)) (fun w a b => outsideSigned w (signed w a * 2 ^ b))
    let shr := fun i f tag src => aluYields i f tag rd src (fun _ => True) (fun _ a b => a / 2 ^ b)
      (fun _ _ _ => false) (fun _ _ _ => false)
    shl (.shlBReg rd rs) .shlBReg .byte (.register rs) ∧ shl (.shlBImm rd imm) .shlBImm .byte (.immediate imm) ∧
    shl (.shlWReg rd rs) .shlWReg .word (.register rs) ∧ shl (.shlWImm rd imm) .shlWImm .word (.immediate imm) ∧
    shr (.shrBReg rd rs) .shrBReg .byte (.register rs) ∧ shr (.shrBImm rd imm) .shrBImm .byte (.immediate imm) ∧
    shr (.shrWReg rd rs) .shrWReg .word (.register rs) ∧ shr (.shrWImm rd imm) .shrWImm .word (.immediate imm)

/-- R210 to R217 (derived; C and O are D11): cmp in its four forms, not and neg at both widths. not and neg have no second
operand, for which 0 stands here and is not read. -/
def Obligations.CompareNotNegComplete : Prop :=
  ∀ (rd rs : Reg) (imm : Nat),
    let comp := fun i f tag => aluYields i f tag rd (.immediate 0) (fun _ => True) (fun w a _ => 2 ^ w - 1 - a)
      (fun _ _ _ => false) (fun _ _ _ => false)
    let neg := fun i f tag => aluYields i f tag rd (.immediate 0) (fun _ => True) (fun w a _ => (2 ^ w - a) % 2 ^ w)
      (fun _ a _ => decide (a ≠ 0)) (fun w a _ => decide (signed w a = minSigned w))
    compareYields (.cmpBReg rd rs) .cmpBReg .byte rd (.register rs) ∧
    compareYields (.cmpBImm rd imm) .cmpBImm .byte rd (.immediate imm) ∧
    compareYields (.cmpWReg rd rs) .cmpWReg .word rd (.register rs) ∧
    compareYields (.cmpWImm rd imm) .cmpWImm .word rd (.immediate imm) ∧
    comp (.notB rd) .notB .byte ∧ comp (.notW rd) .notW .word ∧
    neg (.negB rd) .negB .byte ∧ neg (.negW rd) .negW .word

/-- R230 to R232, R234 to R255 (derived; the conditions are D34, the wrap of a target D35): jmp and the ten conditional
jumps, absolute and relative. -/
def Obligations.JumpsComplete : Prop :=
  jumpYields .jmp .jmpRel .jmp .jmpRel (fun _ => true) ∧
  jumpYields .je .jeRel .je .jeRel (fun s => s.flagZ) ∧
  jumpYields .jne .jneRel .jne .jneRel (fun s => !s.flagZ) ∧
  jumpYields .jb .jbRel .jb .jbRel (fun s => s.flagC) ∧
  jumpYields .jbe .jbeRel .jbe .jbeRel (fun s => s.flagC || s.flagZ) ∧
  jumpYields .ja .jaRel .ja .jaRel (fun s => !s.flagC && !s.flagZ) ∧
  jumpYields .jae .jaeRel .jae .jaeRel (fun s => !s.flagC) ∧
  jumpYields .jl .jlRel .jl .jlRel (fun s => s.flagS != s.flagO) ∧
  jumpYields .jle .jleRel .jle .jleRel (fun s => s.flagZ || s.flagS != s.flagO) ∧
  jumpYields .jg .jgRel .jg .jgRel (fun s => !s.flagZ && s.flagS == s.flagO) ∧
  jumpYields .jge .jgeRel .jge .jgeRel (fun s => s.flagS == s.flagO)

/-- R233, R256, R257, R260 (derived; D19, and log entry 8 for SP modulo 2^AW): where the frame fits, a call stores ip_next
as one address at SP, raises SP and jumps; where a frame is there, ret lowers SP and jumps to the address it held. -/
def Obligations.CallsAndRetComplete : Prop :=
  ∀ (s : State) (addr : Nat) (off : Int),
    let n := s.config.addrCells
    let modulus := 2 ^ s.config.addrBits
    (s.sp + n ≤ s.size .stack →
      exec (.call addr) s = .next { s.store .stack s.sp n (s.ipNext .call) with
        sp := (s.sp + n) % modulus, ip := addr % modulus } ∧
      exec (.callRel off) s = .next { s.store .stack s.sp n (s.ipNext .callRel) with
        sp := (s.sp + n) % modulus, ip := ofInt s.config.addrBits ((s.ipNext .callRel : Int) + off) }) ∧
    (n ≤ s.sp → s.sp ≤ s.size .stack →
      exec .ret s = .next { s with sp := s.sp - n, ip := s.cellsValue .stack (s.sp - n) n % modulus })

/-- R258, R259 (derived; D18): loop lowers C modulo 2^W and jumps if the new C is not zero; nothing else changes. -/
def Obligations.LoopsComplete : Prop :=
  ∀ (s : State) (addr : Nat) (off : Int),
    let c := (s.c + (2 ^ s.config.wordBits - 1)) % 2 ^ s.config.wordBits
    exec (.loop addr) s = .next { s with
      c := c, ip := if c = 0 then s.ipNext .loop else addr % 2 ^ s.config.addrBits } ∧
    exec (.loopRel off) s = .next { s with
      c := c
      ip := if c = 0 then s.ipNext .loopRel else ofInt s.config.addrBits ((s.ipNext .loopRel : Int) + off) }

/-- R270, R271 (derived; D19, D16, and log entry 8 for SP modulo 2^AW): push stores a word at SP and raises it; pop lowers SP
and writes the word it held to `rd`, SP included. -/
def Obligations.PushPopComplete : Prop :=
  ∀ (s : State) (rs rd : Reg),
    let n := s.config.wordCells
    (let u := s.advance .push
     s.sp + n ≤ s.size .stack →
      exec (.push rs) s = .next { u.store .stack s.sp n (u.regRead rs .word) with
        sp := (s.sp + n) % 2 ^ s.config.addrBits }) ∧
    (let u := { s.advance .pop with sp := s.sp - n }
     let v := s.cellsValue .stack (s.sp - n) n
     n ≤ s.sp → s.sp ≤ s.size .stack → u.accepts rd .word v →
      exec (.pop rd) s = .next (u.putReg rd (u.merged rd .word v)))

/-- R280 (derived; D20; the pending answers are log entry 5): `in` with a pending answer takes it; the low cell of A is the
host byte modulo 2^CB with F.C = 0, or all ones with F.C = 1 at end-of-stream; every other bit of A and F is kept. -/
def Obligations.InputCompletes : Prop :=
  ∀ (s : State) (r : HostAnswer) (rest : List HostAnswer), s.channel.answers = r :: rest →
    let low := 2 ^ s.config.cellBits
    ∃ t, exec .input s = .next t ∧
      t = { s with a := t.a, f := t.f, ip := s.ipNext .input, channel := { s.channel with answers := rest } } ∧
      t.a / low = s.a / low ∧
      t.a % low = (match r with | .byte b => b.toNat % low | .endOfStream => low - 1) ∧
      t.flagC = (match r with | .byte _ => false | .endOfStream => true) ∧
      ∀ p, p ≠ s.config.flagPos.c → t.f.testBit p = s.f.testBit p

/-- R280, R312, R336, R340 (derived; that a wait is a step that changes nothing is log entry 6, that the host's answers and
returns stand in lists and a count is log entry 5): `in` waits for an answer, `out` and `seek` wait for the host to return,
and no number of steps ends such a wait. -/
def Obligations.HostWaitsAreUnbounded : Prop :=
  ∀ s : State,
    (s.channel.answers = [] → exec .input s = .next s) ∧
    (s.channel.returns = some 0 → exec .output s = .next s ∧ ∀ rc rr, exec (.seek rc rr) s = .next s) ∧
    ∀ i : Instr, s.live → decode s.config s.fetchCells = .ok i → s.waitsIn i → ∀ k, core.run k s = .next s

/-- R281 to R283 (derived; D21, D22, D31): where the host does not hold them (log entry 5), out sends the low cell of
A modulo 256 (or the byte OUT_MAP has for it, D21 and log entry 14), seek two whole words, halt ends the run with IP =
ip_next; nothing else changes. -/
def Obligations.OutputSeekHaltComplete : Prop :=
  ∀ (s : State) (rc rr : Reg),
    (let low := s.a % 2 ^ s.config.cellBits
     s.channel.returns ≠ some 0 →
      exec .output s = .next { s with
        ip := s.ipNext .output
        channel := { s.channel with
          sent := s.channel.sent ++ [.output ((s.config.outMap.lookup low).getD (BitVec.ofNat 8 (low % 256)))]
          returns := s.channel.returns.map (· - 1) } }) ∧
    (let u := s.advance .seek
     s.channel.returns ≠ some 0 →
      exec (.seek rc rr) s = .next { u with
        channel := { u.channel with
          sent := u.channel.sent ++
            [.seek (u.reg rc % 2 ^ u.config.wordBits) (u.reg rr % 2 ^ u.config.wordBits)]
          returns := u.channel.returns.map (· - 1) } }) ∧
    exec .halt s = .next { s with ip := s.ipNext .halt, status := .halted }

/-! ## Where instructions fault -/

/-- R167 (derived; mod is D12): a zero divisor, read at the form's width in the state after the advance, raises
DIV_BY_ZERO. -/
def Obligations.DivisionByZeroFaults : Prop :=
  ∀ (s : State) (rd rs : Reg),
    ((s.advance .divBReg).regRead rs .byte = 0 → faults (.divBReg rd rs) s .divByZero) ∧
    ((s.advance .divWReg).regRead rs .word = 0 → faults (.divWReg rd rs) s .divByZero) ∧
    ((s.advance .modBReg).regRead rs .byte = 0 → faults (.modBReg rd rs) s .divByZero) ∧
    ((s.advance .modWReg).regRead rs .word = 0 → faults (.modWReg rd rs) s .divByZero) ∧
    faults (.divBImm rd 0) s .divByZero ∧ faults (.divWImm rd 0) s .divByZero ∧
    faults (.modBImm rd 0) s .divByZero ∧ faults (.modWImm rd 0) s .divByZero

/-- R233, R256, R257, R260, R270, R271 (derived; D19, D16): a frame that does not fit overflows, one that is not there
underflows, and `pop sp` of a value above size(stack) is out of bounds. -/
def Obligations.StackFaults : Prop :=
  ∀ (s : State) (r : Reg) (addr : Nat) (off : Int),
    let word := s.config.wordCells
    (s.size .stack < s.sp + word → faults (.push r) s .stackOverflow) ∧
    (s.size .stack < s.sp + s.config.addrCells →
      faults (.call addr) s .stackOverflow ∧ faults (.callRel off) s .stackOverflow) ∧
    (s.sp < word → faults (.pop r) s .stackUnderflow) ∧
    (s.sp < s.config.addrCells → faults .ret s .stackUnderflow) ∧
    (word ≤ s.sp → s.sp ≤ s.size .stack →
      s.size .stack < s.cellsValue .stack (s.sp - word) word % 2 ^ s.config.wordBits % 2 ^ s.config.addrBits →
      faults (.pop .sp) s .outOfBounds)

/-- R68, R72, R135 to R145 (derived; D27): a load or store whose cells do not all lie in the space is out of bounds. -/
def Obligations.MemoryOperandFaults : Prop :=
  ∀ (s : State) (r q : Reg) (addr : Nat),
    let there := fun f => (s.advance f).reg q % 2 ^ s.config.addrBits
    let ram := s.size .ram
    let word := s.config.wordCells
    let address := s.config.addrCells
    (ram < addr + 1 → faults (.movbM2r r addr) s .outOfBounds ∧ faults (.movbR2m addr r) s .outOfBounds) ∧
    (ram < addr + word → faults (.movwM2r r addr) s .outOfBounds ∧ faults (.movwR2m addr r) s .outOfBounds) ∧
    (ram < there .ldb + 1 → faults (.ldb r q) s .outOfBounds) ∧
    (ram < there .ldw + word → faults (.ldw r q) s .outOfBounds) ∧
    (ram < there .lda + address → faults (.lda r q) s .outOfBounds) ∧
    (ram < there .stb + 1 → faults (.stb q r) s .outOfBounds) ∧
    (ram < there .stw + word → faults (.stw q r) s .outOfBounds) ∧
    (ram < there .sta + address → faults (.sta q r) s .outOfBounds) ∧
    (s.size .program < there .lpb + 1 → faults (.lpb r q) s .outOfBounds)

/-- R33, R131 to R136, R139 to R141, R145, R162, R163 (derived; D16, and D11 to D13 for the results of the ALU): a move, a
load or an ALU form whose result would leave SP above size(stack) is out of bounds, for every form that can name SP as its
destination (`pop sp` is in `StackFaults`). and and shr can do so only from an SP that is above size(stack) already, which no
run reaches. not and neg have no second operand, for which 0 stands here and is not read. -/
def Obligations.StackPointerWriteFaults : Prop :=
  ∀ (r : Reg) (v : Nat),
    let move := fun i tag value => trapsAtSp i tag (fun _ => True) value
    let load := fun i tag n (addr : State → Nat) (k : Config → Nat) =>
      trapsAtSp i tag (fun u => addr u + k u.config ≤ u.size n) (fun u => u.cellsValue n (addr u) (k u.config))
    let there := fun u : State => u.reg r % 2 ^ u.config.addrBits
    let alu := fun i tag src (ok : Nat → Prop) (res : Nat → Nat → Nat → Nat) =>
      trapsAtSp i tag (fun u => ok (u.operand tag src))
        (fun u => res (u.config.bits tag) (u.regRead .sp tag) (u.operand tag src))
    let four := fun (breg : Reg → Reg → Instr) (bimm : Reg → Nat → Instr) (wreg : Reg → Reg → Instr)
        (wimm : Reg → Nat → Instr) (ok : Nat → Prop) (res : Nat → Nat → Nat → Nat) =>
      alu (breg .sp r) .byte (.register r) ok res ∧ alu (bimm .sp v) .byte (.immediate v) ok res ∧
      alu (wreg .sp r) .word (.register r) ok res ∧ alu (wimm .sp v) .word (.immediate v) ok res
    let any := fun _ : Nat => True
    let nonzero := fun b : Nat => b ≠ 0
    (move (.movbI2r .sp v) .byte (fun _ => v) ∧ move (.movwI2r .sp v) .word (fun _ => v) ∧
      move (.movbR2r .sp r) .byte (fun u => u.regRead r .byte) ∧
      move (.movwR2r .sp r) .word (fun u => u.regRead r .word)) ∧
    (load (.movbM2r .sp v) .byte .ram (fun _ => v) (fun _ => 1) ∧
      load (.movwM2r .sp v) .word .ram (fun _ => v) Config.wordCells ∧
      load (.ldb .sp r) .byte .ram there (fun _ => 1) ∧ load (.ldw .sp r) .word .ram there Config.wordCells ∧
      load (.lda .sp r) .addr .ram there Config.addrCells ∧ load (.lpb .sp r) .byte .program there (fun _ => 1)) ∧
    four .addBReg .addBImm .addWReg .addWImm any (fun w a b => (a + b) % 2 ^ w) ∧
    four .subBReg .subBImm .subWReg .subWImm any (fun w a b => ofInt w ((a : Int) - b)) ∧
    four .mulBReg .mulBImm .mulWReg .mulWImm any (fun w a b => a * b % 2 ^ w) ∧
    four .divBReg .divBImm .divWReg .divWImm nonzero (fun w a b => ofInt w ((signed w a).tdiv (signed w b))) ∧
    four .modBReg .modBImm .modWReg .modWImm nonzero (fun w a b => ofInt w ((signed w a).tmod (signed w b))) ∧
    four .andBReg .andBImm .andWReg .andWImm any (fun _ a b => a &&& b) ∧
    four .orBReg .orBImm .orWReg .orWImm any (fun _ a b => a ||| b) ∧
    four .xorBReg .xorBImm .xorWReg .xorWImm any (fun _ a b => a ^^^ b) ∧
    four .shlBReg .shlBImm .shlWReg .shlWImm any (fun w a b => a * 2 ^ b % 2 ^ w) ∧
    four .shrBReg .shrBImm .shrWReg .shrWImm any (fun _ a b => a / 2 ^ b) ∧
    (let comp := fun w a _ => 2 ^ w - 1 - a
     let neg := fun w a _ => (2 ^ w - a) % 2 ^ w
     alu (.notB .sp) .byte (.immediate 0) any comp ∧ alu (.notW .sp) .word (.immediate 0) any comp ∧
      alu (.negB .sp) .byte (.immediate 0) any neg ∧ alu (.negW .sp) .word (.immediate 0) any neg)

/-- R301 with the fault lists of the instruction rules (derived): an instruction raises only the kinds its rule names:
DIV_BY_ZERO by div and mod (D12 for mod), STACK_OVERFLOW by push and the calls, STACK_UNDERFLOW by pop and ret (D19 for
both), OUT_OF_BOUNDS by a load, a store (D27) or a write of SP (D16). -/
def Obligations.InstructionsRaiseOnlyTheirFaults : Prop :=
  ∀ (i : Instr) (s t : State) (k : FaultKind) (p : Nat), s.Inv → s.status = .running → exec i s = .next t →
    t.status = .faulted k p →
    (k = .divByZero ∧ i.form ∈ [Form.divBReg, .divBImm, .divWReg, .divWImm, .modBReg, .modBImm, .modWReg, .modWImm]) ∨
    (k = .stackOverflow ∧ i.form ∈ [Form.push, .call, .callRel]) ∨
    (k = .stackUnderflow ∧ i.form ∈ [Form.pop, .ret]) ∨
    (k = .outOfBounds ∧ (i.dest = some .sp ∨ i.form ∈ [Form.movbM2r, .movwM2r, .movbR2m, .movwR2m, .ldb, .ldw, .lda,
      .stb, .stw, .sta, .lpb]))

/-! ## Two instructions together, two configurations together -/

/-- R94 (derived): the opcode map, and so the parity of an opcode, has no influence on what an instruction does once it is
decoded. -/
def Obligations.OpcodeMapOnlyAffectsDecoding : Prop :=
  ∀ (i : Instr) (s t : State) (m : List Nat), exec i s = .next t →
    exec i { s with config := { s.config with opmap := m } } =
      .next { t with config := { t.config with opmap := m } }

/-- R231, R235 to R259 (derived; D35): each relative form does what the absolute form does with the target
(ip_next + off) mod 2^AW. -/
def Obligations.RelativeReachesAbsolute : Prop :=
  ∀ (s : State) (off : Int),
    let t := ofInt s.config.addrBits ((s.ipNext .jmpRel : Int) + off)
    exec (.jmpRel off) s = exec (.jmp t) s ∧ exec (.jeRel off) s = exec (.je t) s ∧
    exec (.jneRel off) s = exec (.jne t) s ∧ exec (.jbRel off) s = exec (.jb t) s ∧
    exec (.jbeRel off) s = exec (.jbe t) s ∧ exec (.jaRel off) s = exec (.ja t) s ∧
    exec (.jaeRel off) s = exec (.jae t) s ∧ exec (.jlRel off) s = exec (.jl t) s ∧
    exec (.jleRel off) s = exec (.jle t) s ∧ exec (.jgRel off) s = exec (.jg t) s ∧
    exec (.jgeRel off) s = exec (.jge t) s ∧ exec (.callRel off) s = exec (.call t) s ∧
    exec (.loopRel off) s = exec (.loop t) s

/-- R270, R271 (derived; D19): what is pushed is what the next pop gives, and SP is back where it was; into SP itself the
popped value goes, if it is one SP can hold. The stack must not be larger than the address space there (log entry 8). -/
def Obligations.PushThenPop : Prop :=
  ∀ (s : State) (rs rd : Reg), s.Inv → s.sp + s.config.wordCells ≤ s.size .stack →
    s.sp + s.config.wordCells < 2 ^ s.config.addrBits →
    let v := (s.advance .push).regRead rs .word
    (rd = .sp → v % 2 ^ s.config.addrBits ≤ s.size .stack) →
    ∃ t u, exec (.push rs) s = .next t ∧ exec (.pop rd) t = .next u ∧
      u.reg rd = v % 2 ^ s.config.regBits rd ∧ (rd ≠ .sp → u.sp = s.sp) ∧
      ∀ q, q ≠ rd → q ≠ .ip → u.reg q = s.reg q

/-- R256, R257, R260 (derived; D19): a call and then a ret come back to the instruction after the call, with every register
but IP as it was. The stack must not be larger than the address space there (log entry 8). -/
def Obligations.CallThenRet : Prop :=
  ∀ (s : State) (addr : Nat) (off : Int), s.Inv → s.sp + s.config.addrCells ≤ s.size .stack →
    s.sp + s.config.addrCells < 2 ^ s.config.addrBits →
    (∃ t u, exec (.call addr) s = .next t ∧ exec .ret t = .next u ∧
      u.ip = s.ipNext .call ∧ ∀ q, q ≠ .ip → u.reg q = s.reg q) ∧
    (∃ t u, exec (.callRel off) s = .next t ∧ exec .ret t = .next u ∧
      u.ip = s.ipNext .callRel ∧ ∀ q, q ≠ .ip → u.reg q = s.reg q)
end

