-- ==== Sys2Proof/Laws/Codec.lean ====
section
/-! SUPPORT. The endian codec and the signed reading. -/

namespace Sys2Proof

@[simp] theorem packLE_length (cb v n : Nat) : (packLE cb v n).length = n := by
  induction n generalizing v with
  | zero => rfl
  | succ n ih => simp [packLE, ih]

@[simp] theorem pack_length (cb v n : Nat) (le : Bool) : (pack cb v n le).length = n := by
  cases le <;> simp [pack]

theorem mem_packLE_lt {cb v n x : Nat} (h : x ∈ packLE cb v n) : x < 2 ^ cb := by
  induction n generalizing v with
  | zero => simp [packLE] at h
  | succ n ih =>
    simp only [packLE, List.mem_cons] at h
    rcases h with rfl | h
    · exact Nat.mod_lt _ (Nat.two_pow_pos cb)
    · exact ih h

theorem mem_pack_lt {cb v n x : Nat} {le : Bool} (h : x ∈ pack cb v n le) : x < 2 ^ cb := by
  cases le
  · exact mem_packLE_lt (List.mem_reverse.mp h)
  · exact mem_packLE_lt h

theorem unpackLE_packLE (cb v n : Nat) : unpackLE cb (packLE cb v n) = v % 2 ^ (n * cb) := by
  induction n generalizing v with
  | zero => simp [packLE, unpackLE, Nat.mod_one]
  | succ n ih =>
    simp only [packLE, unpackLE, ih]
    rw [show (n + 1) * cb = cb + n * cb by ring, pow_add]
    exact (Nat.mod_mul).symm

theorem unpackLE_lt {cb : Nat} {xs : List Nat} (h : ∀ x ∈ xs, x < 2 ^ cb) :
    unpackLE cb xs < 2 ^ (xs.length * cb) := by
  induction xs with
  | nil => simp [unpackLE]
  | cons x xs ih =>
    have hx := h x (by simp)
    have hxs := ih (fun y hy => h y (by simp [hy]))
    simp only [unpackLE, List.length_cons]
    rw [show (xs.length + 1) * cb = cb + xs.length * cb by ring, pow_add]
    have : 2 ^ cb * (unpackLE cb xs + 1) ≤ 2 ^ cb * 2 ^ (xs.length * cb) := Nat.mul_le_mul_left _ hxs
    rw [Nat.mul_add] at this
    omega

theorem packLE_unpackLE {cb : Nat} {xs : List Nat} (h : ∀ x ∈ xs, x < 2 ^ cb) :
    packLE cb (unpackLE cb xs) xs.length = xs := by
  induction xs with
  | nil => rfl
  | cons x xs ih =>
    have hx := h x (by simp)
    simp only [unpackLE, List.length_cons, packLE]
    rw [Nat.add_mul_mod_self_left, Nat.mod_eq_of_lt hx, Nat.add_mul_div_left _ _ (Nat.two_pow_pos cb),
      Nat.div_eq_of_lt hx, Nat.zero_add, ih (fun y hy => h y (by simp [hy]))]

theorem unpack_lt {cb : Nat} {xs : List Nat} (le : Bool) (h : ∀ x ∈ xs, x < 2 ^ cb) :
    unpack cb xs le < 2 ^ (xs.length * cb) := by
  cases le
  · have := unpackLE_lt (cb := cb) (xs := xs.reverse) (fun x hx => h x (List.mem_reverse.mp hx))
    simpa [unpack] using this
  · exact unpackLE_lt h

@[simp] theorem ofInt_lt (n : Nat) (x : Int) : ofInt n x < 2 ^ n := by
  have hp : (0 : Int) < (2 ^ n : Nat) := by exact_mod_cast Nat.two_pow_pos n
  have h1 := Int.emod_nonneg x (ne_of_gt hp)
  have h2 := Int.emod_lt_of_pos x hp
  unfold ofInt
  omega

theorem ofInt_natCast (n v : Nat) : ofInt n (v : Int) = v % 2 ^ n := by
  unfold ofInt
  rw [← Int.natCast_mod]
  rfl

/-- The signed reading of an n-bit value by comparison with half the range. -/
theorem signed_eq {n v : Nat} (hn : 1 ≤ n) (hv : v < 2 ^ n) :
    signed n v = if 2 ^ (n - 1) ≤ v then (v : Int) - (2 ^ n : Nat) else v := by
  unfold signed
  have hp : 2 ^ n = 2 * 2 ^ (n - 1) := by
    rw [← pow_succ']; congr 1; omega
  have : v.testBit (n - 1) = decide (2 ^ (n - 1) ≤ v) := by
    rw [Nat.testBit_eq_decide_div_mod_eq]
    by_cases h : 2 ^ (n - 1) ≤ v
    · have h2 : v / 2 ^ (n - 1) = 1 := by
        rw [Nat.div_eq_iff (Nat.two_pow_pos _)]
        omega
      simp [h, h2]
    · have h2 : v / 2 ^ (n - 1) = 0 := Nat.div_eq_of_lt (by omega)
      simp [h, h2]
  rw [this]
  simp only [decide_eq_true_eq]

/-- A value in the signed range is what its remainder reads as. -/
theorem signed_ofInt {n : Nat} {d : Int} (hn : 1 ≤ n) (h1 : minSigned n ≤ d) (h2 : d ≤ maxSigned n) :
    signed n (ofInt n d) = d := by
  have hp : 2 ^ n = 2 * 2 ^ (n - 1) := by
    rw [← pow_succ']; congr 1; omega
  rw [signed_eq hn (ofInt_lt n d)]
  unfold minSigned maxSigned at *
  unfold ofInt
  rw [hp]
  have hpos := Nat.two_pow_pos (n - 1)
  generalize 2 ^ (n - 1) = m at *
  rcases lt_or_ge d 0 with hd | hd
  · have : d % ((2 * m : Nat) : Int) = d + (2 * m : Nat) := by
      rw [← Int.add_emod_right]; exact Int.emod_eq_of_lt (by omega) (by omega)
    rw [this]
    split <;> omega
  · have : d % ((2 * m : Nat) : Int) = d := Int.emod_eq_of_lt (by omega) (by omega)
    rw [this]
    split <;> omega

/-- The remainder of a signed reading is the value read. -/
theorem ofInt_signed {n v : Nat} (hn : 1 ≤ n) (h : v < 2 ^ n) : ofInt n (signed n v) = v := by
  rw [signed_eq hn h]
  split
  · unfold ofInt; rw [Int.sub_emod_right, ← Int.natCast_mod, Nat.mod_eq_of_lt h]; rfl
  · rw [ofInt_natCast, Nat.mod_eq_of_lt h]

/-- The signed reading lies in [MIN_n, MAX_n]. -/
theorem signed_range {n v : Nat} (hn : 1 ≤ n) (h : v < 2 ^ n) : minSigned n ≤ signed n v ∧ signed n v ≤ maxSigned n := by
  rw [signed_eq hn h]
  have hp : 2 ^ n = 2 * 2 ^ (n - 1) := by
    rw [← pow_succ']; congr 1; omega
  unfold minSigned maxSigned
  split <;> omega

end Sys2Proof
end

