-- ==== Sys2Proof/Laws/Encoding.lean ====
section
/-! SUPPORT. The opcode map is invertible, an instruction is its form and its operands, and one operand decodes from its
own cells. -/

namespace Sys2Proof

theorem Form.all_getElem? (f : Form) : Form.all[f.number - 1]? = some f := by
  cases f <;> rfl

theorem Form.number_bounds (f : Form) : 1 ≤ f.number ∧ f.number ≤ 96 := by
  cases f <;> decide

theorem Form.all_length : Form.all.length = 96 := rfl

/-- Of distinct values, the k-th looks up the k-th form. -/
theorem lookupForm_getElem? {vs : List Nat} {fs : List Form} {k v : Nat} {f : Form} (hn : vs.Nodup)
    (hv : vs[k]? = some v) (hf : fs[k]? = some f) : lookupForm v vs fs = some f := by
  induction vs generalizing fs k with
  | nil => simp at hv
  | cons x xs ih =>
    cases fs with
    | nil => simp at hf
    | cons g gs =>
      rw [List.nodup_cons] at hn
      cases k with
      | zero => simp_all [lookupForm]
      | succ k =>
        simp only [List.getElem?_cons_succ] at hv hf
        have : x ≠ v := fun h => hn.1 (h ▸ List.mem_of_getElem? hv)
        simp only [lookupForm, if_neg this]
        exact ih hn.2 hv hf

/-- A form that a lookup finds stands where its value stands. -/
theorem lookupForm_some {vs : List Nat} {fs : List Form} {v : Nat} {f : Form} (h : lookupForm v vs fs = some f) :
    ∃ k : Nat, vs[k]? = some v ∧ fs[k]? = some f := by
  induction vs generalizing fs with
  | nil => simp [lookupForm] at h
  | cons x xs ih =>
    cases fs with
    | nil => simp [lookupForm] at h
    | cons g gs =>
      unfold lookupForm at h
      split at h
      · exact ⟨0, by simp_all, by simp_all⟩
      · obtain ⟨k, hk, hk'⟩ := ih h
        exact ⟨k + 1, by simpa using hk, by simpa using hk'⟩

theorem opmap_getElem? {c : Config} (hc : c.admissible = true) (f : Form) :
    c.opmap[f.number - 1]? = some (c.opcode f) := by
  have h := of_decide_eq_true hc
  have hb := f.number_bounds
  have : f.number - 1 < c.opmap.length := by omega
  simp [Config.opcode, this]

/-- The opcode of a form looks up that form. -/
theorem formOf_opcode {c : Config} (hc : c.admissible = true) (f : Form) : c.formOf (c.opcode f) = some f := by
  have h := of_decide_eq_true hc
  exact lookupForm_getElem? h.2.2.2.2.2.2.2.1 (opmap_getElem? hc f) f.all_getElem?

/-- What an opcode value looks up is the form to which it belongs. -/
theorem opcode_of_formOf {c : Config} (hc : c.admissible = true) {op : Nat} {f : Form} (h : c.formOf op = some f) :
    c.opcode f = op := by
  obtain ⟨k, hk, hf⟩ := lookupForm_some h
  have hn : f.number - 1 = k := by
    have hlt : k < 96 := by
      have := (List.getElem?_eq_some_iff.mp hf).1
      simpa [Form.all_length] using this
    have key : ∀ k, k < 96 → (Form.all[k]?.map fun f => f.number - 1) = some k := by decide
    have := key k hlt
    rw [hf] at this
    simpa using this
  have := opmap_getElem? hc f
  rw [hn, hk] at this
  simpa using this.symm

@[simp] theorem Reg.ofId_id (r : Reg) : Reg.ofId r.id = some r := by
  cases r <;> rfl

theorem Reg.id_le (r : Reg) : r.id ≤ 5 := by
  cases r <;> decide

/-- An id selects the register that has it. -/
theorem Reg.ofId_eq_some {n : Nat} {r : Reg} : Reg.ofId n = some r ↔ n = r.id := by
  constructor
  · intro h
    unfold Reg.ofId at h
    split at h <;> simp_all <;> subst h <;> rfl
  · rintro rfl; simp

/-- An id selects no register when it is above 5. -/
theorem Reg.ofId_eq_none {n : Nat} : Reg.ofId n = none ↔ 5 < n := by
  constructor
  · intro h
    by_contra hn
    have : n = 0 ∨ n = 1 ∨ n = 2 ∨ n = 3 ∨ n = 4 ∨ n = 5 := by omega
    rcases this with rfl | rfl | rfl | rfl | rfl | rfl <;> simp [Reg.ofId] at h
  · intro h
    unfold Reg.ofId
    split <;> first | omega | rfl

/-- The operands a form is built from are of its format, and give the form and the operands back. -/
theorem Form.build_some {f : Form} {os : List Operand} {i : Instr} (h : f.build os = some i) :
    i.form = f ∧ i.operands = os := by
  cases f <;>
    · simp only [Form.build, build0, buildR, buildRR, buildRI, buildIR, buildI, buildO] at h
      split at h <;> simp_all
      subst h
      exact ⟨rfl, rfl⟩

/-- One operand decodes when its cells are there: a register if the id selects one, an immediate as it is, an offset by its
signed reading. -/
theorem decodeOperand_ok {c : Config} {le : Bool} {k : OperandClass} {cells rest : List Nat} {o : Operand} :
    decodeOperand c le k cells = .ok (o, rest) ↔
      k.cells c ≤ cells.length ∧ rest = cells.drop (k.cells c) ∧
      let v := unpack c.cellBits (cells.take (k.cells c)) le
      match k with
      | .r => ∃ r : Reg, v = r.id ∧ o = .reg r
      | .io => o = .off (signed c.addrBits v)
      | .ib | .iw | .ia => o = .imm v := by
  unfold decodeOperand
  split
  · simp; omega
  · have hl : k.cells c ≤ cells.length := by omega
    simp only [hl, true_and]
    cases k
    · simp only
      split
      · rename_i r hr
        have hr' := Reg.ofId_eq_some.mp hr
        simp only [Except.ok.injEq, Prod.mk.injEq]
        constructor
        · rintro ⟨rfl, rfl⟩; exact ⟨rfl, r, hr', rfl⟩
        · rintro ⟨rfl, q, hq, rfl⟩
          have : Reg.ofId r.id = some q := by rw [← hr', hq, Reg.ofId_id]
          rw [Reg.ofId_id] at this
          simp_all
      · rename_i hr
        simp only [reduceCtorEq, false_iff, not_and, not_exists]
        rintro - q hq -
        rw [hq] at hr
        simp at hr
    all_goals
      simp only [Except.ok.injEq, Prod.mk.injEq]
      exact ⟨fun h => ⟨h.2.symm, h.1.symm⟩, fun h => ⟨h.2.symm, h.1.symm⟩⟩

/-- An operand fails to decode when its cells are not all there, or when they are and hold no register id. -/
theorem decodeOperand_error {c : Config} {le : Bool} {k : OperandClass} {cells : List Nat} {e : FaultKind} :
    decodeOperand c le k cells = .error e ↔
      (cells.length < k.cells c ∧ e = .outOfBounds) ∨
      (k.cells c ≤ cells.length ∧ k = .r ∧ 5 < unpack c.cellBits (cells.take (k.cells c)) le ∧ e = .badRegister) := by
  unfold decodeOperand
  split
  · rename_i hl
    simp only [Except.error.injEq, hl, true_and]
    constructor
    · rintro rfl; exact .inl rfl
    · rintro (rfl | ⟨h, -⟩)
      · rfl
      · omega
  · rename_i hl
    have hl' : k.cells c ≤ cells.length := by omega
    simp only [hl, false_and, false_or, hl', true_and]
    cases k
    · simp only [true_and]
      split
      · rename_i r hr
        have := r.id_le
        have := Reg.ofId_eq_some.mp hr
        simp; omega
      · rename_i hr
        have := Reg.ofId_eq_none.mp hr
        simp only [Except.error.injEq, this, true_and]
        exact eq_comm
    all_goals simp

theorem decodeOperands_cons {c : Config} {le : Bool} {k : OperandClass} {ks : List OperandClass} {cells : List Nat}
    {os : List Operand} :
    decodeOperands c le (k :: ks) cells = .ok os ↔
      ∃ o rest ps, decodeOperand c le k cells = .ok (o, rest) ∧ decodeOperands c le ks rest = .ok ps ∧ os = o :: ps := by
  simp only [decodeOperands]
  split
  · rename_i e he
    simp [he]
  · rename_i o rest ho
    split
    · rename_i e he
      simp [ho, he]
    · rename_i ps hps
      constructor
      · rintro ⟨⟩
        exact ⟨o, rest, ps, ho, hps, rfl⟩
      · rintro ⟨_, _, _, h1, h2, rfl⟩
        rw [ho] at h1
        cases h1
        rw [hps] at h2
        cases h2
        rfl

theorem decodeOperands_nil {c : Config} {le : Bool} {cells : List Nat} {os : List Operand} :
    decodeOperands c le [] cells = .ok os ↔ os = [] := by
  simp [decodeOperands, eq_comm]

/-- The operands decoded for a form always build an instruction: the decoder's last arm is never taken. -/
theorem decodeOperands_build {c : Config} {le : Bool} {f : Form} {cells : List Nat} {os : List Operand}
    (h : decodeOperands c le f.classes cells = .ok os) : ∃ i, f.build os = some i := by
  have key : ∀ g : Format, ∀ cells os, decodeOperands c le g.classes cells = .ok os →
      match g with
      | .N => os = []
      | .R => ∃ r, os = [.reg r]
      | .RR => ∃ r q, os = [.reg r, .reg q]
      | .RIB | .RIW | .RIA => ∃ r v, os = [.reg r, .imm v]
      | .IAR => ∃ v r, os = [.imm v, .reg r]
      | .IA => ∃ v, os = [.imm v]
      | .IO => ∃ d, os = [.off d] := by
    intro g cells os h
    cases g <;> simp only [Format.classes, decodeOperands_cons, decodeOperand_ok, decodeOperands_nil] at h
    · exact h
    · obtain ⟨_, _, _, ⟨-, -, r, -, rfl⟩, rfl, rfl⟩ := h
      exact ⟨r, rfl⟩
    · obtain ⟨_, _, _, ⟨-, -, r, -, rfl⟩, ⟨_, _, _, ⟨-, -, q, -, rfl⟩, rfl, rfl⟩, rfl⟩ := h
      exact ⟨r, q, rfl⟩
    · obtain ⟨_, _, _, ⟨-, -, r, -, rfl⟩, ⟨_, _, _, ⟨-, -, rfl⟩, rfl, rfl⟩, rfl⟩ := h
      exact ⟨r, _, rfl⟩
    · obtain ⟨_, _, _, ⟨-, -, r, -, rfl⟩, ⟨_, _, _, ⟨-, -, rfl⟩, rfl, rfl⟩, rfl⟩ := h
      exact ⟨r, _, rfl⟩
    · obtain ⟨_, _, _, ⟨-, -, r, -, rfl⟩, ⟨_, _, _, ⟨-, -, rfl⟩, rfl, rfl⟩, rfl⟩ := h
      exact ⟨r, _, rfl⟩
    · obtain ⟨_, _, _, ⟨-, -, rfl⟩, ⟨_, _, _, ⟨-, -, r, -, rfl⟩, rfl, rfl⟩, rfl⟩ := h
      exact ⟨_, r, rfl⟩
    · obtain ⟨_, _, _, ⟨-, -, rfl⟩, rfl, rfl⟩ := h
      exact ⟨_, rfl⟩
    · obtain ⟨_, _, _, ⟨-, -, rfl⟩, rfl, rfl⟩ := h
      exact ⟨_, rfl⟩
  have := key f.format cells os h
  cases f <;> simp only [Form.format] at this <;>
    first
      | (obtain rfl := this; exact ⟨_, rfl⟩)
      | (obtain ⟨_, rfl⟩ := this; exact ⟨_, rfl⟩)
      | (obtain ⟨_, _, rfl⟩ := this; exact ⟨_, rfl⟩)

/-- What the decoder answers: the form that the first cell looks up, with operands that decode from the cells after it. -/
theorem decode_ok {c : Config} {cells : List Nat} {i : Instr} :
    decode c cells = .ok i ↔
      ∃ op rest, cells = op :: rest ∧ c.formOf op = some i.form ∧
        decodeOperands c (op % 2 == 0) i.form.classes rest = .ok i.operands ∧ i.form.build i.operands = some i := by
  cases cells with
  | nil => simp [decode]
  | cons op rest =>
    simp only [decode]
    split
    · simp_all
    · rename_i f hf
      split
      · rename_i e he
        constructor
        · rintro ⟨⟩
        · rintro ⟨_, _, h, h', h'', -⟩
          simp_all
      · rename_i os hos
        obtain ⟨j, hj⟩ := decodeOperands_build hos
        obtain ⟨rfl, rfl⟩ := Form.build_some hj
        simp only [hj, Except.ok.injEq]
        constructor
        · rintro rfl
          exact ⟨op, rest, rfl, hf, hos, hj⟩
        · rintro ⟨_, _, h, h', h'', h3⟩
          obtain ⟨rfl, rfl⟩ := List.cons.inj h
          rw [hf] at h'
          simp only [Option.some.injEq] at h'
          rw [← h'] at h'' h3
          rw [hos] at h''
          simp only [Except.ok.injEq] at h''
          rw [← h'', hj] at h3
          exact Option.some.inj h3

/-- Why the decoder raises: no cell, no form, or an operand that does not decode. -/
theorem decode_error {c : Config} {cells : List Nat} {e : FaultKind} :
    decode c cells = .error e ↔
      (cells = [] ∧ e = .outOfBounds) ∨
      ∃ op rest, cells = op :: rest ∧
        ((c.formOf op = none ∧ e = .unknownOpcode) ∨
         ∃ f, c.formOf op = some f ∧ decodeOperands c (op % 2 == 0) f.classes rest = .error e) := by
  cases cells with
  | nil => simp [decode, eq_comm]
  | cons op rest =>
    simp only [decode, reduceCtorEq, false_and, false_or]
    split
    · rename_i hf
      simp only [Except.error.injEq]
      constructor
      · rintro rfl; exact ⟨op, rest, rfl, .inl ⟨hf, rfl⟩⟩
      · rintro ⟨_, _, h, ⟨-, rfl⟩ | ⟨f, hf', -⟩⟩
        · rfl
        · obtain ⟨rfl, rfl⟩ := List.cons.inj h
          rw [hf] at hf'; cases hf'
    · rename_i f hf
      have out : ∀ x : Except FaultKind (List Operand), decodeOperands c (op % 2 == 0) f.classes rest = x →
          ((∃ op' rest', op :: rest = op' :: rest' ∧
            ((c.formOf op' = none ∧ e = .unknownOpcode) ∨
              ∃ g, c.formOf op' = some g ∧ decodeOperands c (op' % 2 == 0) g.classes rest' = .error e)) ↔ x = .error e) := by
        intro x hx
        constructor
        · rintro ⟨_, _, h, ⟨h', -⟩ | ⟨g, hg, h'⟩⟩ <;> obtain ⟨rfl, rfl⟩ := List.cons.inj h
          · rw [hf] at h'; cases h'
          · rw [hf] at hg; cases hg; rw [← hx, h']
        · rintro rfl
          exact ⟨op, rest, rfl, .inr ⟨f, hf, hx⟩⟩
      split
      · rename_i e' he
        rw [out _ he]
        simp
      · rename_i os hos
        rw [out _ hos]
        obtain ⟨j, hj⟩ := decodeOperands_build hos
        simp [hj]

end Sys2Proof
end

