-- ==== Sys2Proof/Laws/Memory.lean ====
section
/-! SUPPORT. A backing array reads back what was stored, stores nothing else, and every store keeps the canonical form and
the bounds. -/

namespace Sys2Proof.Machine

theorem Memory.all_set {P : Nat × Nat → Bool} {m : Memory} {a : Nat} {v : Nat} (hm : m.all P = true)
    (hv : v ≠ Memory.unlisted → P (a, v) = true) : (m.set a v).all P = true := by
  induction m with
  | nil =>
    unfold Memory.set
    split
    · rfl
    · simp [hv ‹_›]
  | cons e m ih =>
    obtain ⟨k, w⟩ := e
    simp only [List.all_cons, Bool.and_eq_true] at hm
    unfold Memory.set
    split
    · split <;> simp_all
    · split
      · split <;> simp_all
      · simp [hm.1, ih hm.2]

theorem Memory.rising_set {m : Memory} (a : Nat) (v : Nat) (h : Memory.rising m = true) :
    Memory.rising (m.set a v) = true := by
  induction m with
  | nil => unfold Memory.set; split <;> rfl
  | cons e m ih =>
    obtain ⟨k, w⟩ := e
    simp only [Memory.rising, Bool.and_eq_true] at h
    obtain ⟨hk, hm⟩ := h
    unfold Memory.set
    split
    · rename_i hak
      split
      · simp [Memory.rising, hk, hm]
      · simp only [Memory.rising, Bool.and_eq_true, List.all_cons, decide_eq_true_eq]
        refine ⟨⟨hak, ?_⟩, hk, hm⟩
        rw [List.all_eq_true] at hk ⊢
        intro e he
        have := hk e he
        simp only [decide_eq_true_eq] at this ⊢
        omega
    · split
      · subst_vars
        split
        · exact hm
        · simp [Memory.rising, hk, hm]
      · simp only [Memory.rising, Bool.and_eq_true]
        exact ⟨Memory.all_set hk (fun _ => by simp only [decide_eq_true_eq]; omega), ih hm⟩

/-- Every store keeps the canonical form. -/
theorem Memory.wf_set {m : Memory} (a : Nat) (v : Nat) (h : m.wf = true) : (m.set a v).wf = true := by
  simp only [Memory.wf, Bool.and_eq_true] at h ⊢
  exact ⟨Memory.rising_set a v h.1, Memory.all_set h.2 (fun hv => by simpa using hv)⟩

/-- A store inside the bounds keeps the bounds. -/
theorem Memory.fits_set {m : Memory} {size cb a : Nat} {v : Nat} (h : m.fits size cb = true) (ha : a < size)
    (hv : v < 2 ^ cb) : (m.set a v).fits size cb = true :=
  Memory.all_set h (fun _ => by simp [ha, hv])

theorem Memory.get_eq_unlisted {m : Memory} {a : Nat} (h : m.all (fun e => decide (a < e.1)) = true) :
    m.get a = Memory.unlisted := by
  induction m with
  | nil => rfl
  | cons e m ih =>
    obtain ⟨k, w⟩ := e
    simp only [List.all_cons, Bool.and_eq_true, decide_eq_true_eq] at h
    unfold Memory.get
    rw [if_neg (by omega)]
    exact ih h.2

/-- A store leaves every other address as it was. -/
theorem Memory.get_set_of_ne (m : Memory) {a b : Nat} (v : Nat) (h : b ≠ a) : (m.set a v).get b = m.get b := by
  induction m with
  | nil =>
    unfold Memory.set
    split
    · rfl
    · simp [Memory.get, Ne.symm h]
  | cons e m ih =>
    obtain ⟨k, w⟩ := e
    unfold Memory.set
    split
    · split
      · rfl
      · rw [Memory.get, if_neg (Ne.symm h)]
    · split
      · subst_vars
        split
        · rw [Memory.get, if_neg (Ne.symm h)]
        · simp [Memory.get, Ne.symm h]
      · simp only [Memory.get, ih]

/-- A store reads back. -/
theorem Memory.get_set_same {m : Memory} (a : Nat) (v : Nat) (h : m.wf = true) : (m.set a v).get a = v := by
  induction m with
  | nil =>
    unfold Memory.set
    split
    · rw [Memory.get]; exact Eq.symm ‹_›
    · simp [Memory.get]
  | cons e m ih =>
    obtain ⟨k, w⟩ := e
    simp only [Memory.wf, Memory.rising, Bool.and_eq_true, List.all_cons] at h
    obtain ⟨⟨hk, hm⟩, hw, hz⟩ := h
    unfold Memory.set
    split
    · rename_i hak
      split
      · rename_i hv
        rw [Memory.get, if_neg (by omega), hv]
        apply Memory.get_eq_unlisted
        rw [List.all_eq_true] at hk ⊢
        intro e he
        have := hk e he
        simp only [decide_eq_true_eq] at this ⊢
        omega
      · simp [Memory.get]
    · split
      · subst_vars
        split
        · rename_i hv
          rw [hv]
          exact Memory.get_eq_unlisted hk
        · simp [Memory.get]
      · rw [Memory.get, if_neg (by omega)]
        exact ih (by simp [Memory.wf, hm, hz])

theorem Memory.wf_setCells {m : Memory} (a : Nat) (xs : List Nat) (h : m.wf = true) : (m.setCells a xs).wf = true := by
  induction xs generalizing m a with
  | nil => exact h
  | cons x xs ih => exact ih (a + 1) (Memory.wf_set a x h)

theorem Memory.fits_setCells {m : Memory} {size cb a : Nat} {xs : List Nat} (h : m.fits size cb = true)
    (ha : a + xs.length ≤ size) (hx : ∀ x ∈ xs, x < 2 ^ cb) : (m.setCells a xs).fits size cb = true := by
  induction xs generalizing m a with
  | nil => exact h
  | cons x xs ih =>
    simp only [List.length_cons] at ha
    exact ih (Memory.fits_set h (by omega) (hx x (by simp))) (by omega) (fun y hy => hx y (by simp [hy]))

/-- A store of several cells leaves every address outside them as it was. -/
theorem Memory.get_setCells_outside (m : Memory) {a b : Nat} (xs : List Nat) (h : b < a ∨ a + xs.length ≤ b) :
    (m.setCells a xs).get b = m.get b := by
  induction xs generalizing m a with
  | nil => rfl
  | cons x xs ih =>
    simp only [List.length_cons] at h
    rw [Memory.setCells, ih _ (by omega), Memory.get_set_of_ne m x (by omega)]

theorem Memory.getCells_congr {m m' : Memory} {a n : Nat} (h : ∀ b, a ≤ b → b < a + n → m'.get b = m.get b) :
    m'.getCells a n = m.getCells a n := by
  induction n generalizing a with
  | zero => rfl
  | succ n ih =>
    simp only [Memory.getCells]
    rw [h a (by omega) (by omega), ih (fun b hb hb' => h b (by omega) (by omega))]

/-- Several cells read back as they were stored. -/
theorem Memory.getCells_setCells_same {m : Memory} (a : Nat) (xs : List Nat) (h : m.wf = true) :
    (m.setCells a xs).getCells a xs.length = xs := by
  induction xs generalizing m a with
  | nil => rfl
  | cons x xs ih =>
    simp only [Memory.setCells, List.length_cons, Memory.getCells]
    rw [Memory.get_setCells_outside _ _ (by omega), Memory.get_set_same a x h, ih (a + 1) (Memory.wf_set a x h)]

@[simp] theorem Memory.getCells_length (m : Memory) (a n : Nat) : (m.getCells a n).length = n := by
  induction n generalizing a with
  | zero => rfl
  | succ n ih => simp [Memory.getCells, ih]

theorem Memory.getCells_getElem? (m : Memory) (a n k : Nat) (h : k < n) :
    (m.getCells a n)[k]? = some (m.get (a + k)) := by
  induction n generalizing a k with
  | zero => omega
  | succ n ih =>
    cases k with
    | zero => rfl
    | succ k =>
      simp only [Memory.getCells, List.getElem?_cons_succ]
      rw [ih (a + 1) k (by omega)]
      congr 2; omega

theorem Memory.get_lt {m : Memory} {size cb : Nat} (h : m.fits size cb = true) (a : Nat) : m.get a < 2 ^ cb := by
  induction m with
  | nil => exact Nat.two_pow_pos cb
  | cons e m ih =>
    obtain ⟨k, w⟩ := e
    simp only [Memory.fits, List.all_cons, Bool.and_eq_true, decide_eq_true_eq] at h
    unfold Memory.get
    split
    · exact h.1.2
    · exact ih h.2

theorem Memory.mem_getCells_lt {m : Memory} {size cb : Nat} (h : m.fits size cb = true) {a n : Nat} {x : Nat}
    (hx : x ∈ m.getCells a n) : x < 2 ^ cb := by
  induction n generalizing a with
  | zero => simp [Memory.getCells] at hx
  | succ n ih =>
    simp only [Memory.getCells, List.mem_cons] at hx
    rcases hx with rfl | hx
    · exact Memory.get_lt h a
    · exact ih hx

end Sys2Proof.Machine
end

