-- ==== Sys2Proof/Laws/State.lean ====
section
/-! SUPPORT. The small lemmas of State: one per field and update, so that no proof unfolds a record update. -/

namespace Sys2Proof.Machine

@[simp] theorem advance_config (s : State) (f : Form) : (s.advance f).config = s.config := rfl
@[simp] theorem advance_imageLen (s : State) (f : Form) : (s.advance f).imageLen = s.imageLen := rfl
@[simp] theorem advance_a (s : State) (f : Form) : (s.advance f).a = s.a := rfl
@[simp] theorem advance_b (s : State) (f : Form) : (s.advance f).b = s.b := rfl
@[simp] theorem advance_c (s : State) (f : Form) : (s.advance f).c = s.c := rfl
@[simp] theorem advance_f (s : State) (f : Form) : (s.advance f).f = s.f := rfl
@[simp] theorem advance_ip (s : State) (f : Form) : (s.advance f).ip = s.ipNext f := rfl
@[simp] theorem advance_sp (s : State) (f : Form) : (s.advance f).sp = s.sp := rfl
@[simp] theorem advance_status (s : State) (f : Form) : (s.advance f).status = s.status := rfl
@[simp] theorem advance_ramArray (s : State) (f : Form) : (s.advance f).ramArray = s.ramArray := rfl
@[simp] theorem advance_programArray (s : State) (f : Form) : (s.advance f).programArray = s.programArray := rfl
@[simp] theorem advance_stackArray (s : State) (f : Form) : (s.advance f).stackArray = s.stackArray := rfl
@[simp] theorem advance_channel (s : State) (f : Form) : (s.advance f).channel = s.channel := rfl

@[simp] theorem takeFault_config (s : State) (k : FaultKind) : (s.takeFault k).config = s.config := rfl
@[simp] theorem takeFault_imageLen (s : State) (k : FaultKind) : (s.takeFault k).imageLen = s.imageLen := rfl
@[simp] theorem takeFault_a (s : State) (k : FaultKind) : (s.takeFault k).a = s.a := rfl
@[simp] theorem takeFault_b (s : State) (k : FaultKind) : (s.takeFault k).b = s.b := rfl
@[simp] theorem takeFault_c (s : State) (k : FaultKind) : (s.takeFault k).c = s.c := rfl
@[simp] theorem takeFault_f (s : State) (k : FaultKind) : (s.takeFault k).f = s.f := rfl
@[simp] theorem takeFault_ip (s : State) (k : FaultKind) : (s.takeFault k).ip = s.ip := rfl
@[simp] theorem takeFault_sp (s : State) (k : FaultKind) : (s.takeFault k).sp = s.sp := rfl
@[simp] theorem takeFault_status (s : State) (k : FaultKind) : (s.takeFault k).status = .faulted k s.ip := rfl
@[simp] theorem takeFault_ramArray (s : State) (k : FaultKind) : (s.takeFault k).ramArray = s.ramArray := rfl
@[simp] theorem takeFault_programArray (s : State) (k : FaultKind) : (s.takeFault k).programArray = s.programArray := rfl
@[simp] theorem takeFault_stackArray (s : State) (k : FaultKind) : (s.takeFault k).stackArray = s.stackArray := rfl
@[simp] theorem takeFault_channel (s : State) (k : FaultKind) : (s.takeFault k).channel = s.channel := rfl

@[simp] theorem jump_config (s : State) (t : Nat) : (s.jump t).config = s.config := rfl
@[simp] theorem jump_imageLen (s : State) (t : Nat) : (s.jump t).imageLen = s.imageLen := rfl
@[simp] theorem jump_a (s : State) (t : Nat) : (s.jump t).a = s.a := rfl
@[simp] theorem jump_b (s : State) (t : Nat) : (s.jump t).b = s.b := rfl
@[simp] theorem jump_c (s : State) (t : Nat) : (s.jump t).c = s.c := rfl
@[simp] theorem jump_f (s : State) (t : Nat) : (s.jump t).f = s.f := rfl
@[simp] theorem jump_ip (s : State) (t : Nat) : (s.jump t).ip = t % 2 ^ s.config.addrBits := rfl
@[simp] theorem jump_sp (s : State) (t : Nat) : (s.jump t).sp = s.sp := rfl
@[simp] theorem jump_status (s : State) (t : Nat) : (s.jump t).status = s.status := rfl
@[simp] theorem jump_ramArray (s : State) (t : Nat) : (s.jump t).ramArray = s.ramArray := rfl
@[simp] theorem jump_programArray (s : State) (t : Nat) : (s.jump t).programArray = s.programArray := rfl
@[simp] theorem jump_stackArray (s : State) (t : Nat) : (s.jump t).stackArray = s.stackArray := rfl
@[simp] theorem jump_channel (s : State) (t : Nat) : (s.jump t).channel = s.channel := rfl

@[simp] theorem setFlags_config (s : State) (w : Nat) (r : AluResult) : (s.setFlags w r).config = s.config := rfl
@[simp] theorem setFlags_imageLen (s : State) (w : Nat) (r : AluResult) : (s.setFlags w r).imageLen = s.imageLen := rfl
@[simp] theorem setFlags_a (s : State) (w : Nat) (r : AluResult) : (s.setFlags w r).a = s.a := rfl
@[simp] theorem setFlags_b (s : State) (w : Nat) (r : AluResult) : (s.setFlags w r).b = s.b := rfl
@[simp] theorem setFlags_c (s : State) (w : Nat) (r : AluResult) : (s.setFlags w r).c = s.c := rfl
@[simp] theorem setFlags_ip (s : State) (w : Nat) (r : AluResult) : (s.setFlags w r).ip = s.ip := rfl
@[simp] theorem setFlags_sp (s : State) (w : Nat) (r : AluResult) : (s.setFlags w r).sp = s.sp := rfl
@[simp] theorem setFlags_status (s : State) (w : Nat) (r : AluResult) : (s.setFlags w r).status = s.status := rfl
@[simp] theorem setFlags_ramArray (s : State) (w : Nat) (r : AluResult) : (s.setFlags w r).ramArray = s.ramArray := rfl
@[simp] theorem setFlags_programArray (s : State) (w : Nat) (r : AluResult) : (s.setFlags w r).programArray = s.programArray := rfl
@[simp] theorem setFlags_stackArray (s : State) (w : Nat) (r : AluResult) : (s.setFlags w r).stackArray = s.stackArray := rfl
@[simp] theorem setFlags_channel (s : State) (w : Nat) (r : AluResult) : (s.setFlags w r).channel = s.channel := rfl

@[simp] theorem setCarry_config (s : State) (b : Bool) : (s.setCarry b).config = s.config := rfl
@[simp] theorem setCarry_imageLen (s : State) (b : Bool) : (s.setCarry b).imageLen = s.imageLen := rfl
@[simp] theorem setCarry_a (s : State) (b : Bool) : (s.setCarry b).a = s.a := rfl
@[simp] theorem setCarry_b (s : State) (b : Bool) : (s.setCarry b).b = s.b := rfl
@[simp] theorem setCarry_c (s : State) (b : Bool) : (s.setCarry b).c = s.c := rfl
@[simp] theorem setCarry_f (s : State) (b : Bool) : (s.setCarry b).f = setBit s.f s.config.flagPos.c b := rfl
@[simp] theorem setCarry_ip (s : State) (b : Bool) : (s.setCarry b).ip = s.ip := rfl
@[simp] theorem setCarry_sp (s : State) (b : Bool) : (s.setCarry b).sp = s.sp := rfl
@[simp] theorem setCarry_status (s : State) (b : Bool) : (s.setCarry b).status = s.status := rfl
@[simp] theorem setCarry_ramArray (s : State) (b : Bool) : (s.setCarry b).ramArray = s.ramArray := rfl
@[simp] theorem setCarry_programArray (s : State) (b : Bool) : (s.setCarry b).programArray = s.programArray := rfl
@[simp] theorem setCarry_stackArray (s : State) (b : Bool) : (s.setCarry b).stackArray = s.stackArray := rfl
@[simp] theorem setCarry_channel (s : State) (b : Bool) : (s.setCarry b).channel = s.channel := rfl

@[simp] theorem send_config (s : State) (e : HostEvent) : (s.send e).config = s.config := rfl
@[simp] theorem send_imageLen (s : State) (e : HostEvent) : (s.send e).imageLen = s.imageLen := rfl
@[simp] theorem send_a (s : State) (e : HostEvent) : (s.send e).a = s.a := rfl
@[simp] theorem send_b (s : State) (e : HostEvent) : (s.send e).b = s.b := rfl
@[simp] theorem send_c (s : State) (e : HostEvent) : (s.send e).c = s.c := rfl
@[simp] theorem send_f (s : State) (e : HostEvent) : (s.send e).f = s.f := rfl
@[simp] theorem send_ip (s : State) (e : HostEvent) : (s.send e).ip = s.ip := rfl
@[simp] theorem send_sp (s : State) (e : HostEvent) : (s.send e).sp = s.sp := rfl
@[simp] theorem send_status (s : State) (e : HostEvent) : (s.send e).status = s.status := rfl
@[simp] theorem send_ramArray (s : State) (e : HostEvent) : (s.send e).ramArray = s.ramArray := rfl
@[simp] theorem send_programArray (s : State) (e : HostEvent) : (s.send e).programArray = s.programArray := rfl
@[simp] theorem send_stackArray (s : State) (e : HostEvent) : (s.send e).stackArray = s.stackArray := rfl
@[simp] theorem send_channel (s : State) (e : HostEvent) : (s.send e).channel =
    { s.channel with sent := s.channel.sent ++ [e], returns := s.channel.returns.map (· - 1) } := rfl

@[simp] theorem takeAnswer_config (s : State) : s.takeAnswer.config = s.config := rfl
@[simp] theorem takeAnswer_imageLen (s : State) : s.takeAnswer.imageLen = s.imageLen := rfl
@[simp] theorem takeAnswer_a (s : State) : s.takeAnswer.a = s.a := rfl
@[simp] theorem takeAnswer_b (s : State) : s.takeAnswer.b = s.b := rfl
@[simp] theorem takeAnswer_c (s : State) : s.takeAnswer.c = s.c := rfl
@[simp] theorem takeAnswer_f (s : State) : s.takeAnswer.f = s.f := rfl
@[simp] theorem takeAnswer_ip (s : State) : s.takeAnswer.ip = s.ip := rfl
@[simp] theorem takeAnswer_sp (s : State) : s.takeAnswer.sp = s.sp := rfl
@[simp] theorem takeAnswer_status (s : State) : s.takeAnswer.status = s.status := rfl
@[simp] theorem takeAnswer_ramArray (s : State) : s.takeAnswer.ramArray = s.ramArray := rfl
@[simp] theorem takeAnswer_programArray (s : State) : s.takeAnswer.programArray = s.programArray := rfl
@[simp] theorem takeAnswer_stackArray (s : State) : s.takeAnswer.stackArray = s.stackArray := rfl
@[simp] theorem takeAnswer_channel (s : State) : s.takeAnswer.channel = { s.channel with answers := s.channel.answers.tail } := rfl

@[simp] theorem putReg_config (s : State) (r : Reg) (v : Nat) : (s.putReg r v).config = s.config := by cases r <;> rfl
@[simp] theorem putReg_imageLen (s : State) (r : Reg) (v : Nat) : (s.putReg r v).imageLen = s.imageLen := by cases r <;> rfl
@[simp] theorem putReg_status (s : State) (r : Reg) (v : Nat) : (s.putReg r v).status = s.status := by cases r <;> rfl
@[simp] theorem putReg_ramArray (s : State) (r : Reg) (v : Nat) : (s.putReg r v).ramArray = s.ramArray := by cases r <;> rfl
@[simp] theorem putReg_programArray (s : State) (r : Reg) (v : Nat) : (s.putReg r v).programArray = s.programArray := by cases r <;> rfl
@[simp] theorem putReg_stackArray (s : State) (r : Reg) (v : Nat) : (s.putReg r v).stackArray = s.stackArray := by cases r <;> rfl
@[simp] theorem putReg_channel (s : State) (r : Reg) (v : Nat) : (s.putReg r v).channel = s.channel := by cases r <;> rfl

@[simp] theorem setArray_config (s : State) (n : Space) (m : Memory) : (s.setArray n m).config = s.config := by cases n <;> rfl
@[simp] theorem setArray_imageLen (s : State) (n : Space) (m : Memory) : (s.setArray n m).imageLen = s.imageLen := by cases n <;> rfl
@[simp] theorem setArray_a (s : State) (n : Space) (m : Memory) : (s.setArray n m).a = s.a := by cases n <;> rfl
@[simp] theorem setArray_b (s : State) (n : Space) (m : Memory) : (s.setArray n m).b = s.b := by cases n <;> rfl
@[simp] theorem setArray_c (s : State) (n : Space) (m : Memory) : (s.setArray n m).c = s.c := by cases n <;> rfl
@[simp] theorem setArray_f (s : State) (n : Space) (m : Memory) : (s.setArray n m).f = s.f := by cases n <;> rfl
@[simp] theorem setArray_ip (s : State) (n : Space) (m : Memory) : (s.setArray n m).ip = s.ip := by cases n <;> rfl
@[simp] theorem setArray_sp (s : State) (n : Space) (m : Memory) : (s.setArray n m).sp = s.sp := by cases n <;> rfl
@[simp] theorem setArray_status (s : State) (n : Space) (m : Memory) : (s.setArray n m).status = s.status := by cases n <;> rfl
@[simp] theorem setArray_channel (s : State) (n : Space) (m : Memory) : (s.setArray n m).channel = s.channel := by cases n <;> rfl

@[simp] theorem setBacking_config (s : State) (n : Space) (m : Memory) : (s.setBacking n m).config = s.config := setArray_config _ _ _
@[simp] theorem setBacking_imageLen (s : State) (n : Space) (m : Memory) : (s.setBacking n m).imageLen = s.imageLen := setArray_imageLen _ _ _
@[simp] theorem setBacking_a (s : State) (n : Space) (m : Memory) : (s.setBacking n m).a = s.a := setArray_a _ _ _
@[simp] theorem setBacking_b (s : State) (n : Space) (m : Memory) : (s.setBacking n m).b = s.b := setArray_b _ _ _
@[simp] theorem setBacking_c (s : State) (n : Space) (m : Memory) : (s.setBacking n m).c = s.c := setArray_c _ _ _
@[simp] theorem setBacking_f (s : State) (n : Space) (m : Memory) : (s.setBacking n m).f = s.f := setArray_f _ _ _
@[simp] theorem setBacking_ip (s : State) (n : Space) (m : Memory) : (s.setBacking n m).ip = s.ip := setArray_ip _ _ _
@[simp] theorem setBacking_sp (s : State) (n : Space) (m : Memory) : (s.setBacking n m).sp = s.sp := setArray_sp _ _ _
@[simp] theorem setBacking_status (s : State) (n : Space) (m : Memory) : (s.setBacking n m).status = s.status := setArray_status _ _ _
@[simp] theorem setBacking_channel (s : State) (n : Space) (m : Memory) : (s.setBacking n m).channel = s.channel := setArray_channel _ _ _

@[simp] theorem store_config (s : State) (n : Space) (a k v : Nat) : (s.store n a k v).config = s.config := setArray_config _ _ _
@[simp] theorem store_imageLen (s : State) (n : Space) (a k v : Nat) : (s.store n a k v).imageLen = s.imageLen := setArray_imageLen _ _ _
@[simp] theorem store_a (s : State) (n : Space) (a k v : Nat) : (s.store n a k v).a = s.a := setArray_a _ _ _
@[simp] theorem store_b (s : State) (n : Space) (a k v : Nat) : (s.store n a k v).b = s.b := setArray_b _ _ _
@[simp] theorem store_c (s : State) (n : Space) (a k v : Nat) : (s.store n a k v).c = s.c := setArray_c _ _ _
@[simp] theorem store_f (s : State) (n : Space) (a k v : Nat) : (s.store n a k v).f = s.f := setArray_f _ _ _
@[simp] theorem store_ip (s : State) (n : Space) (a k v : Nat) : (s.store n a k v).ip = s.ip := setArray_ip _ _ _
@[simp] theorem store_sp (s : State) (n : Space) (a k v : Nat) : (s.store n a k v).sp = s.sp := setArray_sp _ _ _
@[simp] theorem store_status (s : State) (n : Space) (a k v : Nat) : (s.store n a k v).status = s.status := setArray_status _ _ _
@[simp] theorem store_channel (s : State) (n : Space) (a k v : Nat) : (s.store n a k v).channel = s.channel := setArray_channel _ _ _

@[simp] theorem advance_array (s : State) (f : Form) (n : Space) : (s.advance f).array n = s.array n := by cases n <;> rfl
@[simp] theorem takeFault_array (s : State) (k : FaultKind) (n : Space) : (s.takeFault k).array n = s.array n := by cases n <;> rfl
@[simp] theorem jump_array (s : State) (t : Nat) (n : Space) : (s.jump t).array n = s.array n := by cases n <;> rfl
@[simp] theorem setFlags_array (s : State) (w : Nat) (r : AluResult) (n : Space) : (s.setFlags w r).array n = s.array n := by cases n <;> rfl
@[simp] theorem setCarry_array (s : State) (b : Bool) (n : Space) : (s.setCarry b).array n = s.array n := by cases n <;> rfl
@[simp] theorem send_array (s : State) (e : HostEvent) (n : Space) : (s.send e).array n = s.array n := by cases n <;> rfl
@[simp] theorem takeAnswer_array (s : State) (n : Space) : s.takeAnswer.array n = s.array n := by cases n <;> rfl
@[simp] theorem putReg_array (s : State) (r : Reg) (v : Nat) (n : Space) : (s.putReg r v).array n = s.array n := by cases n <;> cases r <;> rfl

@[simp] theorem advance_backing (s : State) (f : Form) (n : Space) : (s.advance f).backing n = s.backing n := by simp [State.backing]
@[simp] theorem takeFault_backing (s : State) (k : FaultKind) (n : Space) : (s.takeFault k).backing n = s.backing n := by simp [State.backing]
@[simp] theorem jump_backing (s : State) (t : Nat) (n : Space) : (s.jump t).backing n = s.backing n := by simp [State.backing]
@[simp] theorem setFlags_backing (s : State) (w : Nat) (r : AluResult) (n : Space) : (s.setFlags w r).backing n = s.backing n := by simp [State.backing]
@[simp] theorem setCarry_backing (s : State) (b : Bool) (n : Space) : (s.setCarry b).backing n = s.backing n := by simp [State.backing]
@[simp] theorem send_backing (s : State) (e : HostEvent) (n : Space) : (s.send e).backing n = s.backing n := by simp [State.backing]
@[simp] theorem takeAnswer_backing (s : State) (n : Space) : s.takeAnswer.backing n = s.backing n := by simp [State.backing]
@[simp] theorem putReg_backing (s : State) (r : Reg) (v : Nat) (n : Space) : (s.putReg r v).backing n = s.backing n := by simp [State.backing]

/-- The size of a space depends on the configuration and the image length alone. -/
theorem size_congr {s t : State} (n : Space) (hc : t.config = s.config) (hl : t.imageLen = s.imageLen) :
    t.size n = s.size n := by
  have hr : t.requested = s.requested := by
    funext m; cases m <;> simp [State.requested, hc, hl]
  simp only [State.size, State.share, hr, hc]

@[simp] theorem advance_size (s : State) (f : Form) (n : Space) : (s.advance f).size n = s.size n := size_congr n (by simp) (by simp)
@[simp] theorem takeFault_size (s : State) (k : FaultKind) (n : Space) : (s.takeFault k).size n = s.size n := size_congr n (by simp) (by simp)
@[simp] theorem jump_size (s : State) (t : Nat) (n : Space) : (s.jump t).size n = s.size n := size_congr n (by simp) (by simp)
@[simp] theorem setFlags_size (s : State) (w : Nat) (r : AluResult) (n : Space) : (s.setFlags w r).size n = s.size n := size_congr n (by simp) (by simp)
@[simp] theorem setCarry_size (s : State) (b : Bool) (n : Space) : (s.setCarry b).size n = s.size n := size_congr n (by simp) (by simp)
@[simp] theorem send_size (s : State) (e : HostEvent) (n : Space) : (s.send e).size n = s.size n := size_congr n (by simp) (by simp)
@[simp] theorem takeAnswer_size (s : State) (n : Space) : s.takeAnswer.size n = s.size n := size_congr n (by simp) (by simp)
@[simp] theorem putReg_size (s : State) (r : Reg) (v : Nat) (n : Space) : (s.putReg r v).size n = s.size n := size_congr n (by simp) (by simp)
@[simp] theorem setArray_size (s : State) (n : Space) (m : Memory) (q : Space) : (s.setArray n m).size q = s.size q := size_congr q (by simp) (by simp)
@[simp] theorem setBacking_size (s : State) (n : Space) (m : Memory) (q : Space) : (s.setBacking n m).size q = s.size q := size_congr q (by simp) (by simp)
@[simp] theorem store_size (s : State) (n : Space) (a k v : Nat) (q : Space) : (s.store n a k v).size q = s.size q := size_congr q (by simp) (by simp)

@[simp] theorem putReg_reg (s : State) (r : Reg) (v : Nat) : (s.putReg r v).reg r = v := by cases r <;> rfl

theorem putReg_reg_of_ne (s : State) {r q : Reg} (v : Nat) (h : q ≠ r) : (s.putReg r v).reg q = s.reg q := by
  cases r <;> cases q <;> first | rfl | exact absurd rfl h

@[simp] theorem setArray_array (s : State) (n : Space) (m : Memory) : (s.setArray n m).array n = m := by
  cases n <;> rfl

theorem setArray_array_of_ne (s : State) {n q : Space} (m : Memory) (h : q ≠ n) :
    (s.setArray n m).array q = s.array q := by
  cases n <;> cases q <;> first | rfl | exact absurd rfl h

@[simp] theorem setArray_reg (s : State) (n : Space) (m : Memory) (r : Reg) : (s.setArray n m).reg r = s.reg r := by
  cases n <;> cases r <;> rfl

@[simp] theorem store_reg (s : State) (n : Space) (a k v : Nat) (r : Reg) : (s.store n a k v).reg r = s.reg r :=
  setArray_reg _ _ _ _

@[simp] theorem takeFault_reg (s : State) (k : FaultKind) (r : Reg) : (s.takeFault k).reg r = s.reg r := by
  cases r <;> rfl

@[simp] theorem send_reg (s : State) (e : HostEvent) (r : Reg) : (s.send e).reg r = s.reg r := by
  cases r <;> rfl

@[simp] theorem takeAnswer_reg (s : State) (r : Reg) : s.takeAnswer.reg r = s.reg r := by
  cases r <;> rfl

theorem advance_reg_of_ne (s : State) (f : Form) {r : Reg} (h : r ≠ .ip) : (s.advance f).reg r = s.reg r := by
  cases r <;> first | rfl | exact absurd rfl h

theorem jump_reg_of_ne (s : State) (t : Nat) {r : Reg} (h : r ≠ .ip) : (s.jump t).reg r = s.reg r := by
  cases r <;> first | rfl | exact absurd rfl h

theorem setFlags_reg_of_ne (s : State) (w : Nat) (x : AluResult) {r : Reg} (h : r ≠ .f) :
    (s.setFlags w x).reg r = s.reg r := by
  cases r <;> first | rfl | exact absurd rfl h

theorem setCarry_reg_of_ne (s : State) (b : Bool) {r : Reg} (h : r ≠ .f) : (s.setCarry b).reg r = s.reg r := by
  cases r <;> first | rfl | exact absurd rfl h

end Sys2Proof.Machine
end

