-- ==== Sys2Proof/Laws/Ops.lean ====
section
/-! SUPPORT. Each shared operation: once, all that it can do. -/

namespace Sys2Proof.Machine

/-- A computation that may raise answers a value when its first part does and the rest does. -/
theorem bind_eq_ok {α β : Type} {x : Except FaultKind α} {g : α → Except FaultKind β} {t : β} :
    x >>= g = .ok t ↔ ∃ v, x = .ok v ∧ g v = .ok t := by
  cases x <;> simp [bind, Except.bind]

/-- A computation raises in its first part or in the rest. -/
theorem bind_eq_error {α β : Type} {x : Except FaultKind α} {g : α → Except FaultKind β} {k : FaultKind} :
    x >>= g = .error k ↔ x = .error k ∨ ∃ v, x = .ok v ∧ g v = .error k := by
  cases x <;> simp [bind, Except.bind]

/-- A register write stores the merged value unless that would leave SP above size(stack). -/
theorem regWrite_ok {s t : State} {r : Reg} {tag : Tag} {v : Nat} :
    s.regWrite r tag v = .ok t ↔ (r = .sp → s.merged r tag v ≤ s.size .stack) ∧ t = s.putReg r (s.merged r tag v) := by
  unfold State.regWrite
  split
  · rename_i h
    simp only [reduceCtorEq, false_iff, not_and]
    intro h'
    have := h' h.1
    omega
  · rename_i h
    simp only [Except.ok.injEq]
    constructor
    · rintro rfl
      exact ⟨fun hr => by by_contra hlt; exact h ⟨hr, by omega⟩, rfl⟩
    · rintro ⟨-, rfl⟩; rfl

/-- A register write raises OUT_OF_BOUNDS for SP and nothing else. -/
theorem regWrite_error {s : State} {r : Reg} {tag : Tag} {v : Nat} {k : FaultKind} :
    s.regWrite r tag v = .error k ↔ k = .outOfBounds ∧ r = .sp ∧ s.size .stack < s.merged r tag v := by
  unfold State.regWrite
  split
  · rename_i h
    simp [h, eq_comm]
    intro
    rw [← h.1]; exact h.2
  · simp_all

theorem regWrite_of_ne {s : State} {r : Reg} (tag : Tag) (v : Nat) (h : r ≠ .sp) :
    s.regWrite r tag v = .ok (s.putReg r (s.merged r tag v)) :=
  regWrite_ok.mpr ⟨fun hr => absurd hr h, rfl⟩

theorem memRead_ok {s : State} {n : Space} {a k v : Nat} :
    s.memRead n a k = .ok v ↔
      a + k ≤ s.size n ∧ v = unpack s.config.cellBits ((s.backing n).getCells a k) true := by
  unfold State.memRead
  split <;> simp_all [eq_comm]

theorem memRead_error {s : State} {n : Space} {a k : Nat} {e : FaultKind} :
    s.memRead n a k = .error e ↔ e = .outOfBounds ∧ s.size n < a + k := by
  unfold State.memRead
  split <;> simp_all [eq_comm]

theorem romRead_ok {s : State} {a k v : Nat} {le : Bool} :
    s.romRead a k le = .ok v ↔
      a + k ≤ s.size .program ∧ v = unpack s.config.cellBits ((s.backing .program).getCells a k) le := by
  unfold State.romRead
  split <;> simp_all [eq_comm]

theorem romRead_error {s : State} {a k : Nat} {le : Bool} {e : FaultKind} :
    s.romRead a k le = .error e ↔ e = .outOfBounds ∧ s.size .program < a + k := by
  unfold State.romRead
  split <;> simp_all [eq_comm]

theorem memWrite_ok {s t : State} {n : Space} {a k v : Nat} :
    s.memWrite n a k v = .ok t ↔ n ≠ .program ∧ a + k ≤ s.size n ∧ t = s.store n a k v := by
  unfold State.memWrite
  split
  · simp_all
  · split <;> simp_all [eq_comm]

theorem memWrite_error {s : State} {n : Space} {a k v : Nat} {e : FaultKind} :
    s.memWrite n a k v = .error e ↔
      (n = .program ∧ e = .readOnlyWrite) ∨ (n ≠ .program ∧ s.size n < a + k ∧ e = .outOfBounds) := by
  unfold State.memWrite
  split
  · simp_all [eq_comm]
  · split <;> simp_all [eq_comm]

theorem pushCells_ok {s t : State} {k v : Nat} :
    s.pushCells k v = .ok t ↔
      s.sp + k ≤ s.size .stack ∧ t = { s.store .stack s.sp k v with sp := (s.sp + k) % 2 ^ s.config.addrBits } := by
  unfold State.pushCells
  split
  · simp; omega
  · simp only [bind_eq_ok, memWrite_ok, Except.ok.injEq]
    constructor
    · rintro ⟨u, ⟨-, h, rfl⟩, rfl⟩; exact ⟨h, rfl⟩
    · rintro ⟨h, rfl⟩; exact ⟨_, ⟨by simp, h, rfl⟩, rfl⟩

theorem pushCells_error {s : State} {k v : Nat} {e : FaultKind} :
    s.pushCells k v = .error e ↔ s.size .stack < s.sp + k ∧ e = .stackOverflow := by
  unfold State.pushCells
  split
  · simp_all [eq_comm]
  · simp only [bind_eq_error, memWrite_error]
    constructor
    · rintro (⟨h, -⟩ | h) <;> simp_all
    · rintro ⟨h, -⟩; omega

theorem popCells_ok {s t : State} {k v : Nat} :
    s.popCells k = .ok (v, t) ↔
      k ≤ s.sp ∧ s.sp ≤ s.size .stack ∧
        v = unpack s.config.cellBits ((s.backing .stack).getCells (s.sp - k) k) true ∧ t = { s with sp := s.sp - k } := by
  unfold State.popCells
  split
  · simp; omega
  · simp only [bind_eq_ok, memRead_ok, Except.ok.injEq, Prod.mk.injEq]
    constructor
    · rintro ⟨u, ⟨h, rfl⟩, rfl, rfl⟩; exact ⟨by omega, by omega, rfl, rfl⟩
    · rintro ⟨h, h', rfl, rfl⟩; exact ⟨_, ⟨by omega, rfl⟩, rfl, rfl⟩

theorem popCells_error {s : State} {k : Nat} {e : FaultKind} :
    s.popCells k = .error e ↔
      (s.sp < k ∧ e = .stackUnderflow) ∨ (k ≤ s.sp ∧ s.size .stack < s.sp ∧ e = .outOfBounds) := by
  unfold State.popCells
  split
  · rename_i h
    simp [h, eq_comm]
  · rename_i h
    simp only [bind_eq_error, memRead_error, reduceCtorEq, and_false, exists_false, or_false]
    constructor
    · rintro ⟨rfl, h'⟩; exact .inr ⟨by omega, by omega, rfl⟩
    · rintro (⟨h', -⟩ | ⟨-, h', rfl⟩)
      · omega
      · exact ⟨rfl, by omega⟩

/-- One instruction answers the state its body answers, or the fault its body raises, taken in the state before it. -/
theorem run_next {s t : State} {f : Form} {body : State → Except FaultKind State} :
    s.run f body = .next t ↔
      body (s.advance f) = .ok t ∨ ∃ k, body (s.advance f) = .error k ∧ t = s.takeFault k := by
  unfold State.run
  cases body (s.advance f) <;> simp [eq_comm]

theorem run_of_ok {s t : State} {f : Form} {body : State → Except FaultKind State} (h : body (s.advance f) = .ok t) :
    s.run f body = .next t :=
  run_next.mpr (.inl h)

theorem run_of_error {s : State} {f : Form} {body : State → Except FaultKind State} {k : FaultKind}
    (h : body (s.advance f) = .error k) : s.run f body = .next (s.takeFault k) :=
  run_next.mpr (.inr ⟨k, h, rfl⟩)

theorem hostHolds_iff {s : State} : s.hostHolds = true ↔ s.channel.returns = some 0 := by
  simp [State.hostHolds]

/-- A request of the host waits while the host holds the block, and else sends its event; it never faults. -/
theorem request_next {s t : State} {f : Form} {e : State → HostEvent} :
    s.request f e = .next t ↔
      (s.hostHolds = true ∧ t = s) ∨ (s.hostHolds = false ∧ t = (s.advance f).send (e (s.advance f))) := by
  unfold State.request
  cases s.hostHolds <;> simp [State.run, eq_comm]

/-- An ALU form with a destination: the merged result, then the flags. -/
theorem aluWrite_ok {s t : State} {tag : Tag} {rd : Reg} {r : AluResult} :
    s.aluWrite tag rd r = .ok t ↔
      (rd = .sp → s.merged rd tag r.value ≤ s.size .stack) ∧
        t = (s.putReg rd (s.merged rd tag r.value)).setFlags (s.config.bits tag) r := by
  simp only [State.aluWrite, bind_eq_ok, regWrite_ok, Except.ok.injEq]
  constructor
  · rintro ⟨v, ⟨h, rfl⟩, rfl⟩; exact ⟨h, by simp⟩
  · rintro ⟨h, rfl⟩; exact ⟨_, ⟨h, rfl⟩, by simp⟩

theorem aluWrite_error {s : State} {tag : Tag} {rd : Reg} {r : AluResult} {k : FaultKind} :
    s.aluWrite tag rd r = .error k ↔ k = .outOfBounds ∧ rd = .sp ∧ s.size .stack < s.merged rd tag r.value := by
  simp [State.aluWrite, bind_eq_error, regWrite_error]

/-- An ALU form with two operands. -/
theorem aluBinary_ok {s t : State} {op : AluOp} {tag : Tag} {rd : Reg} {src : Source} :
    s.aluBinary op tag rd src = .ok t ↔
      ∃ r, op.compute (s.config.bits tag) (s.regRead rd tag) (s.operand tag src) = .ok r ∧ s.aluWrite tag rd r = .ok t := by
  simp only [State.aluBinary, bind_eq_ok]

/-- The ALU raises DIV_BY_ZERO, for a division, and nothing else. -/
theorem compute_error {op : AluOp} {w a b : Nat} {k : FaultKind} :
    op.compute w a b = .error k ↔ (op = .div ∨ op = .mod) ∧ b = 0 ∧ k = .divByZero := by
  cases op <;> simp [AluOp.compute] <;> split <;> simp_all [eq_comm]

theorem aluBinary_error {s : State} {op : AluOp} {tag : Tag} {rd : Reg} {src : Source} {k : FaultKind} :
    s.aluBinary op tag rd src = .error k ↔
      ((op = .div ∨ op = .mod) ∧ s.operand tag src = 0 ∧ k = .divByZero) ∨
      ∃ r, op.compute (s.config.bits tag) (s.regRead rd tag) (s.operand tag src) = .ok r ∧
        s.aluWrite tag rd r = .error k := by
  simp only [State.aluBinary, bind_eq_error, compute_error]

theorem aluCompare_eq (s : State) (tag : Tag) (rd : Reg) (src : Source) :
    ∃ r, AluOp.sub.compute (s.config.bits tag) (s.regRead rd tag) (s.operand tag src) = .ok r ∧
      s.aluCompare tag rd src = .ok (s.setFlags (s.config.bits tag) r) :=
  ⟨_, rfl, rfl⟩

/-- An answer of the host is received without a fault. -/
theorem receive_ok (s : State) (r : HostAnswer) :
    ∃ v b, s.receive r = .ok ((s.putReg .a (s.merged .a .byte v)).setCarry b).takeAnswer := by
  cases r with
  | byte x => exact ⟨x.toNat % 2 ^ s.config.cellBits, false, by
      simp [State.receive, regWrite_of_ne, bind, Except.bind]⟩
  | endOfStream => exact ⟨mask s.config.cellBits, true, by
      simp [State.receive, regWrite_of_ne, bind, Except.bind]⟩

/-- The value a register write stores fits in the register. -/
theorem merged_lt {s : State} {r : Reg} (tag : Tag) (v : Nat) (h : s.reg r < 2 ^ s.config.regBits r)
    (hw : s.config.cellBits ≤ s.config.regBits r) : s.merged r tag v < 2 ^ s.config.regBits r := by
  unfold State.merged
  split
  · have hd : 2 ^ s.config.cellBits ∣ 2 ^ s.config.regBits r := pow_dvd_pow 2 hw
    have hv : v % 2 ^ s.config.cellBits < 2 ^ s.config.cellBits := Nat.mod_lt _ (Nat.two_pow_pos _)
    obtain ⟨q, hq⟩ := hd
    have hx : s.reg r - s.reg r % 2 ^ s.config.cellBits = 2 ^ s.config.cellBits * (s.reg r / 2 ^ s.config.cellBits) := by
      have := Nat.div_add_mod (s.reg r) (2 ^ s.config.cellBits)
      omega
    have hlt : s.reg r / 2 ^ s.config.cellBits < q := by
      rw [Nat.div_lt_iff_lt_mul (Nat.two_pow_pos _), Nat.mul_comm, ← hq]
      exact h
    have hle : 2 ^ s.config.cellBits * (s.reg r / 2 ^ s.config.cellBits + 1) ≤ 2 ^ s.config.cellBits * q :=
      Nat.mul_le_mul_left _ hlt
    rw [Nat.mul_add] at hle
    rw [hx, hq]
    omega
  · exact Nat.mod_lt _ (Nat.two_pow_pos _)

/-- Setting one bit of a value below 2^n keeps it there. -/
theorem setBit_lt {v p n : Nat} (b : Bool) (hv : v < 2 ^ n) (hp : p < n) : setBit v p b < 2 ^ n := by
  have hb : 2 ^ p < 2 ^ n := Nat.pow_lt_pow_right (by omega) hp
  unfold setBit
  apply Nat.xor_lt_two_pow (Nat.or_lt_two_pow hv hb)
  split
  · exact Nat.two_pow_pos n
  · exact hb

/-- The bits of a value after one was set. -/
theorem testBit_setBit (v p q : Nat) (b : Bool) : (setBit v p b).testBit q = if q = p then b else v.testBit q := by
  unfold setBit
  rw [Nat.testBit_xor, Nat.testBit_or]
  by_cases h : q = p
  · subst h
    cases b <;> simp [Nat.testBit_two_pow_self]
  · cases b <;> simp [h, Ne.symm h]

end Sys2Proof.Machine
end

