-- ==== Sys2Proof/Laws/Exec.lean ====
section
/-! SUPPORT. All that an instruction can do, once: `exec_canDo` inverts `exec` for the 96 instructions. Frames and
invariants follow from it by cases, with no meaning unfolded. -/

namespace Sys2Proof.Machine

/-- The forms that speak with the host or end the run. -/
def speaks (f : Form) : Bool :=
  f == .input || f == .output || f == .seek || f == .halt

/-- The states an instruction's own effect can lead to; `u` of each is the state after the decoder's advance. -/
inductive Effect (i : Instr) (s : State) : State → Prop where
  /-- A move or a load: one register write. -/
  | write (rd : Reg) (tag : Tag) (v : Nat) (dest : i.dest = some rd) (implicit : i.implicit = []) (alu : i.isAlu = false)
      (stored : stores i s = none) (host : speaks i.form = false)
      (ok : rd = .sp → (s.advance i.form).merged rd tag v ≤ s.size .stack) :
      Effect i s ((s.advance i.form).putReg rd ((s.advance i.form).merged rd tag v))
  /-- An ALU form with a destination: the register write, then the flags. -/
  | alu (rd : Reg) (tag : Tag) (r : AluResult) (dest : i.dest = some rd) (implicit : i.implicit = [.f])
      (alu : i.isAlu = true) (stored : stores i s = none) (host : speaks i.form = false)
      (ok : rd = .sp → (s.advance i.form).merged rd tag r.value ≤ s.size .stack) :
      Effect i s (((s.advance i.form).putReg rd ((s.advance i.form).merged rd tag r.value)).setFlags
        (s.config.bits tag) r)
  /-- A compare: the flags. -/
  | compare (tag : Tag) (r : AluResult) (dest : i.dest = .none) (implicit : i.implicit = [.f]) (alu : i.isAlu = true)
      (stored : stores i s = none) (host : speaks i.form = false) :
      Effect i s ((s.advance i.form).setFlags (s.config.bits tag) r)
  /-- A store to ram. -/
  | store (a k v : Nat) (dest : i.dest = .none) (implicit : i.implicit = []) (alu : i.isAlu = false)
      (stored : stores i s = some (.ram, a, k)) (host : speaks i.form = false) (fits : a + k ≤ s.size .ram) :
      Effect i s ((s.advance i.form).store .ram a k v)
  /-- A jump, taken or not. -/
  | jump (t : Option Nat) (dest : i.dest = .none) (implicit : i.implicit = []) (alu : i.isAlu = false)
      (stored : stores i s = none) (host : speaks i.form = false) :
      Effect i s (match t with | .none => s.advance i.form | some a => (s.advance i.form).jump a)
  /-- A loop, taken or not. -/
  | loop (t : Option Nat) (dest : i.dest = .none) (implicit : i.implicit = [.c]) (alu : i.isAlu = false)
      (stored : stores i s = none) (host : speaks i.form = false) :
      Effect i s
        (let u := { s.advance i.form with c := ofInt s.config.wordBits ((s.c : Int) - 1) }
         match t with | .none => u | some a => u.jump a)
  /-- A push or a call: a store at SP, SP raised, and for a call a jump. -/
  | push (k v : Nat) (t : Option Nat) (dest : i.dest = .none) (implicit : i.implicit = [.sp]) (alu : i.isAlu = false)
      (stored : stores i s = some (.stack, s.sp, k)) (host : speaks i.form = false) (fits : s.sp + k ≤ s.size .stack) :
      Effect i s
        (let u := { (s.advance i.form).store .stack s.sp k v with sp := (s.sp + k) % 2 ^ s.config.addrBits }
         match t with | .none => u | some a => u.jump a)
  /-- A return: SP lowered and a jump. -/
  | ret (k a : Nat) (dest : i.dest = .none) (implicit : i.implicit = [.sp]) (alu : i.isAlu = false)
      (stored : stores i s = none) (host : speaks i.form = false) (fits : k ≤ s.sp ∧ s.sp ≤ s.size .stack) :
      Effect i s ({ s.advance i.form with sp := s.sp - k }.jump a)
  /-- A pop: SP lowered, then a register write. -/
  | pop (rd : Reg) (k v : Nat) (dest : i.dest = some rd) (implicit : i.implicit = [.sp]) (alu : i.isAlu = false)
      (stored : stores i s = none) (host : speaks i.form = false) (fits : k ≤ s.sp ∧ s.sp ≤ s.size .stack)
      (ok : rd = .sp → { s.advance i.form with sp := s.sp - k }.merged rd .word v ≤ s.size .stack) :
      Effect i s ({ s.advance i.form with sp := s.sp - k }.putReg rd
        ({ s.advance i.form with sp := s.sp - k }.merged rd .word v))
  /-- An answer taken by `in`. -/
  | input (v : Nat) (b : Bool) (is : i = .input) (pending : s.channel.answers ≠ []) :
      Effect i s ((((s.advance .input).putReg .a ((s.advance .input).merged .a .byte v)).setCarry b).takeAnswer)
  /-- An event sent by `out` or `seek`. -/
  | send (e : HostEvent) (is : i = .output ∨ ∃ q r, i = .seek q r) (returned : s.hostHolds = false) :
      Effect i s ((s.advance i.form).send e)
  /-- The end of the run. -/
  | halt (is : i = .halt) : Effect i s { s.advance .halt with status := .halted }

/-- A run that starts with a step to a next state. -/
theorem run_succ_of_next {M : Host.Core} {s t : M.State} (k : Nat) (h : M.step s = .next t) :
    M.run (k + 1) s = M.run k t := by
  simp only [Host.Core.run, h]

/-- A run of this machine that starts with a step to a next state. -/
theorem core_run_succ {s t : State} (k : Nat) (h : step s = .next t) : core.run (k + 1) s = core.run k t :=
  run_succ_of_next (M := core) k h

section Shapes

variable {i : Instr} {s t : State}

/-- A run is the fault its body raises or the effect of the state its body answers. -/
theorem run_effect {body : State → Except FaultKind State} (h : s.run i.form body = .next t)
    (hok : ∀ t, body (s.advance i.form) = .ok t → Effect i s t) :
    (∃ k, body (s.advance i.form) = .error k ∧ t = s.takeFault k) ∨ Effect i s t := by
  rcases run_next.mp h with h | h
  · exact .inr (hok t h)
  · exact .inl h

theorem effect_write {rd : Reg} {tag : Tag} {x : State → Except FaultKind Nat} {body : State → Except FaultKind State}
    (hb : ∀ u, body u = (do let v ← x u; u.regWrite rd tag v)) (dest : i.dest = some rd)
    (implicit : i.implicit = []) (alu : i.isAlu = false) (stored : stores i s = none) (host : speaks i.form = false)
    (h : s.run i.form body = .next t) :
    (∃ k, body (s.advance i.form) = .error k ∧ t = s.takeFault k) ∨ Effect i s t := by
  refine run_effect h fun u hu => ?_
  rw [hb] at hu
  obtain ⟨v, -, hv⟩ := bind_eq_ok.mp hu
  obtain ⟨hsp, rfl⟩ := regWrite_ok.mp hv
  exact .write rd tag v dest implicit alu stored host (by simpa using hsp)

theorem effect_alu {rd : Reg} {tag : Tag} {x : State → Except FaultKind AluResult}
    {body : State → Except FaultKind State} (hb : ∀ u, body u = (do let r ← x u; u.aluWrite tag rd r))
    (dest : i.dest = some rd) (implicit : i.implicit = [.f]) (alu : i.isAlu = true) (stored : stores i s = none)
    (host : speaks i.form = false) (h : s.run i.form body = .next t) :
    (∃ k, body (s.advance i.form) = .error k ∧ t = s.takeFault k) ∨ Effect i s t := by
  refine run_effect h fun u hu => ?_
  rw [hb] at hu
  obtain ⟨r, -, hr⟩ := bind_eq_ok.mp hu
  obtain ⟨hsp, rfl⟩ := aluWrite_ok.mp hr
  exact .alu rd tag r dest implicit alu stored host (by simpa using hsp)

theorem effect_binary {op : AluOp} {rd : Reg} {tag : Tag} {src : Source} (dest : i.dest = some rd)
    (implicit : i.implicit = [.f]) (alu : i.isAlu = true) (stored : stores i s = none) (host : speaks i.form = false)
    (h : s.run i.form (fun u => u.aluBinary op tag rd src) = .next t) :
    (∃ k, (s.advance i.form).aluBinary op tag rd src = .error k ∧ t = s.takeFault k) ∨ Effect i s t :=
  effect_alu (body := fun u => u.aluBinary op tag rd src)
    (x := fun u => op.compute (u.config.bits tag) (u.regRead rd tag) (u.operand tag src)) (fun _ => rfl)
    dest implicit alu stored host h

theorem effect_unary {op : Nat → Nat → AluResult} {rd : Reg} {tag : Tag} (dest : i.dest = some rd)
    (implicit : i.implicit = [.f]) (alu : i.isAlu = true) (stored : stores i s = none) (host : speaks i.form = false)
    (h : s.run i.form (fun u => u.aluUnary op tag rd) = .next t) :
    (∃ k, (s.advance i.form).aluUnary op tag rd = .error k ∧ t = s.takeFault k) ∨ Effect i s t :=
  effect_alu (body := fun u => u.aluUnary op tag rd)
    (x := fun u => .ok (op (u.config.bits tag) (u.regRead rd tag))) (fun _ => rfl) dest implicit alu stored host h

theorem effect_compare {rd : Reg} {tag : Tag} {src : Source} (dest : i.dest = .none) (implicit : i.implicit = [.f])
    (alu : i.isAlu = true) (stored : stores i s = none) (host : speaks i.form = false)
    (h : s.run i.form (fun u => u.aluCompare tag rd src) = .next t) :
    (∃ k, (s.advance i.form).aluCompare tag rd src = .error k ∧ t = s.takeFault k) ∨ Effect i s t := by
  refine run_effect h fun u hu => ?_
  obtain ⟨r, -, hr⟩ := aluCompare_eq (s.advance i.form) tag rd src
  rw [hr] at hu
  cases hu
  exact .compare tag r dest implicit alu stored host

theorem effect_store {a k : State → Nat} {v : State → Nat} (dest : i.dest = .none) (implicit : i.implicit = [])
    (alu : i.isAlu = false) (stored : stores i s = some (.ram, a (s.advance i.form), k (s.advance i.form)))
    (host : speaks i.form = false)
    (h : s.run i.form (fun u => u.memWrite .ram (a u) (k u) (v u)) = .next t) :
    (∃ e, (s.advance i.form).memWrite .ram (a (s.advance i.form)) (k (s.advance i.form)) (v (s.advance i.form)) =
      .error e ∧ t = s.takeFault e) ∨ Effect i s t := by
  refine run_effect h fun u hu => ?_
  obtain ⟨-, hf, rfl⟩ := memWrite_ok.mp hu
  exact .store _ _ _ dest implicit alu stored host (by simpa using hf)

theorem effect_jump {x : State → State} (hx : ∀ u : State, x u = u ∨ ∃ a, x u = u.jump a) (dest : i.dest = .none)
    (implicit : i.implicit = []) (alu : i.isAlu = false) (stored : stores i s = none) (host : speaks i.form = false)
    (h : s.run i.form (fun u => .ok (x u)) = .next t) : Effect i s t := by
  rcases run_next.mp h with h | ⟨k, h, -⟩
  · cases h
    rcases hx (s.advance i.form) with h | ⟨a, h⟩ <;> rw [h]
    · exact .jump .none dest implicit alu stored host
    · exact .jump (some a) dest implicit alu stored host
  · cases h

theorem effect_loop {x : State → Nat} (dest : i.dest = .none) (implicit : i.implicit = [.c])
    (alu : i.isAlu = false) (stored : stores i s = none) (host : speaks i.form = false)
    (h : s.run i.form (fun u => .ok (u.loopTo (x u))) = .next t) : Effect i s t := by
  rcases run_next.mp h with h | ⟨k, h, -⟩
  · cases h
    unfold State.loopTo
    simp only
    split
    · exact .loop (some _) dest implicit alu stored host
    · exact .loop .none dest implicit alu stored host
  · cases h

theorem effect_call {x : State → Nat} (dest : i.dest = .none) (implicit : i.implicit = [.sp])
    (alu : i.isAlu = false) (stored : stores i s = some (.stack, s.sp, s.config.addrCells)) (host : speaks i.form = false)
    (h : s.run i.form (fun u => u.callTo (x u)) = .next t) :
    (∃ e, (s.advance i.form).callTo (x (s.advance i.form)) = .error e ∧ t = s.takeFault e) ∨ Effect i s t := by
  refine run_effect h fun u hu => ?_
  obtain ⟨v, hv, hu⟩ := bind_eq_ok.mp hu
  obtain ⟨hf, rfl⟩ := pushCells_ok.mp hv
  cases hu
  exact .push _ _ (Option.some _) dest implicit alu stored host (by simpa using hf)

end Shapes

theorem jumpIf_cases (u : State) (cond : Condition) (a : Nat) : u.jumpIf cond a = u ∨ ∃ b, u.jumpIf cond a = u.jump b := by
  unfold State.jumpIf
  split
  · exact .inr ⟨a, rfl⟩
  · exact .inl rfl

/-- What an instruction can do: take a fault (none of those that speak with the host does), wait for the host, or have one
of the effects above. -/
def CanDo (i : Instr) (s t : State) : Prop :=
  (∃ k, speaks i.form = false ∧ t = s.takeFault k) ∨ (s.waitsIn i ∧ t = s) ∨ Effect i s t

theorem canDo_of {i : Instr} {s t : State} {P : FaultKind → Prop} (hs : speaks i.form = false)
    (h : (∃ k, P k ∧ t = s.takeFault k) ∨ Effect i s t) : CanDo i s t :=
  h.elim (fun ⟨k, _, hk⟩ => .inl ⟨k, hs, hk⟩) (fun h => .inr (.inr h))

/-- `out` and `seek` wait while the host holds them, and send their event once it returns. -/
theorem canDo_request {i : Instr} {s t : State} {e : State → HostEvent} (is : i = .output ∨ ∃ q r, i = .seek q r)
    (waits : s.waitsIn i ↔ s.hostHolds = true) (h : s.request i.form e = .next t) : CanDo i s t := by
  rcases request_next.mp h with ⟨hh, rfl⟩ | ⟨hh, rfl⟩
  · exact .inr (.inl ⟨waits.mpr hh, rfl⟩)
  · exact .inr (.inr (.send _ is hh))

section Instructions

variable {s t : State}

theorem input_canDo (h : exec .input s = .next t) : CanDo .input s t := by
  change execInput s = .next t at h
  unfold execInput at h
  split at h
  · rename_i ha
    cases h
    exact .inr (.inl ⟨ha, rfl⟩)
  · rename_i r rs ha
    obtain ⟨v, b, hv⟩ := receive_ok (s.advance .input) r
    rw [run_of_ok hv] at h
    cases h
    exact .inr (.inr (.input v b rfl (by simp [ha])))

theorem output_canDo (h : exec .output s = .next t) : CanDo .output s t := by
  exact canDo_request (.inl rfl) Iff.rfl h

theorem seek_canDo (q r : Reg) (h : exec (.seek q r) s = .next t) : CanDo (.seek q r) s t := by
  exact canDo_request (.inr ⟨q, r, rfl⟩) Iff.rfl h

theorem halt_canDo (h : exec .halt s = .next t) : CanDo .halt s t := by
  cases h
  exact .inr (.inr (.halt rfl))

theorem movbI2r_canDo (rd : Reg) (imm : Nat) (h : exec (.movbI2r rd imm) s = .next t) : CanDo (.movbI2r rd imm) s t :=
  canDo_of rfl (effect_write (body := fun u => u.regWrite rd .byte imm)
    (x := fun _ => .ok imm) (fun _ => rfl) rfl rfl rfl rfl rfl h)

theorem movwI2r_canDo (rd : Reg) (imm : Nat) (h : exec (.movwI2r rd imm) s = .next t) : CanDo (.movwI2r rd imm) s t :=
  canDo_of rfl (effect_write (body := fun u => u.regWrite rd .word imm)
    (x := fun _ => .ok imm) (fun _ => rfl) rfl rfl rfl rfl rfl h)

theorem movbR2r_canDo (rd rs : Reg) (h : exec (.movbR2r rd rs) s = .next t) : CanDo (.movbR2r rd rs) s t :=
  canDo_of rfl (effect_write (body := fun u => u.regWrite rd .byte (u.regRead rs .byte))
    (x := fun u => .ok (u.regRead rs .byte)) (fun _ => rfl) rfl rfl rfl rfl rfl h)

theorem movwR2r_canDo (rd rs : Reg) (h : exec (.movwR2r rd rs) s = .next t) : CanDo (.movwR2r rd rs) s t :=
  canDo_of rfl (effect_write (body := fun u => u.regWrite rd .word (u.regRead rs .word))
    (x := fun u => .ok (u.regRead rs .word)) (fun _ => rfl) rfl rfl rfl rfl rfl h)

theorem movbM2r_canDo (rd : Reg) (addr : Nat) (h : exec (.movbM2r rd addr) s = .next t) : CanDo (.movbM2r rd addr) s t :=
  canDo_of rfl (effect_write (tag := .byte) (body := fun u => u.loadByte rd addr)
    (x := fun u => u.memRead .ram addr 1) (fun _ => rfl) rfl rfl rfl rfl rfl h)

theorem movwM2r_canDo (rd : Reg) (addr : Nat) (h : exec (.movwM2r rd addr) s = .next t) : CanDo (.movwM2r rd addr) s t :=
  canDo_of rfl (effect_write (tag := .word) (body := fun u => u.loadWord rd addr)
    (x := fun u => u.memRead .ram addr u.config.wordCells) (fun _ => rfl) rfl rfl rfl rfl rfl h)

theorem movbR2m_canDo (addr : Nat) (rs : Reg) (h : exec (.movbR2m addr rs) s = .next t) : CanDo (.movbR2m addr rs) s t :=
  canDo_of rfl (effect_store (a := fun _ => addr) (k := fun _ => 1)
    (v := fun u => u.regRead rs .byte) rfl rfl rfl rfl rfl h)

theorem movwR2m_canDo (addr : Nat) (rs : Reg) (h : exec (.movwR2m addr rs) s = .next t) : CanDo (.movwR2m addr rs) s t :=
  canDo_of rfl (effect_store (a := fun _ => addr) (k := fun u => u.config.wordCells)
    (v := fun u => u.regRead rs .word) rfl rfl rfl rfl rfl h)

theorem ldb_canDo (rd ra : Reg) (h : exec (.ldb rd ra) s = .next t) : CanDo (.ldb rd ra) s t :=
  canDo_of rfl (effect_write (tag := .byte) (body := fun u => u.loadByte rd (u.addressIn ra))
    (x := fun u => u.memRead .ram (u.addressIn ra) 1) (fun _ => rfl) rfl rfl rfl rfl rfl h)

theorem ldw_canDo (rd ra : Reg) (h : exec (.ldw rd ra) s = .next t) : CanDo (.ldw rd ra) s t :=
  canDo_of rfl (effect_write (tag := .word) (body := fun u => u.loadWord rd (u.addressIn ra))
    (x := fun u => u.memRead .ram (u.addressIn ra) u.config.wordCells) (fun _ => rfl) rfl rfl rfl rfl rfl h)

theorem lda_canDo (rd ra : Reg) (h : exec (.lda rd ra) s = .next t) : CanDo (.lda rd ra) s t :=
  canDo_of rfl (effect_write (tag := .addr) (body := fun u => u.loadAddr rd (u.addressIn ra))
    (x := fun u => u.memRead .ram (u.addressIn ra) u.config.addrCells) (fun _ => rfl) rfl rfl rfl rfl rfl h)

theorem stb_canDo (ra rs : Reg) (h : exec (.stb ra rs) s = .next t) : CanDo (.stb ra rs) s t :=
  canDo_of rfl (effect_store (a := fun u => u.addressIn ra) (k := fun _ => 1)
    (v := fun u => u.regRead rs .byte) rfl rfl rfl rfl rfl h)

theorem stw_canDo (ra rs : Reg) (h : exec (.stw ra rs) s = .next t) : CanDo (.stw ra rs) s t :=
  canDo_of rfl (effect_store (a := fun u => u.addressIn ra) (k := fun u => u.config.wordCells)
    (v := fun u => u.regRead rs .word) rfl rfl rfl rfl rfl h)

theorem sta_canDo (ra rs : Reg) (h : exec (.sta ra rs) s = .next t) : CanDo (.sta ra rs) s t :=
  canDo_of rfl (effect_store (a := fun u => u.addressIn ra) (k := fun u => u.config.addrCells)
    (v := fun u => u.regRead rs .addr) rfl rfl rfl rfl rfl h)

theorem lpb_canDo (rd ra : Reg) (h : exec (.lpb rd ra) s = .next t) : CanDo (.lpb rd ra) s t :=
  canDo_of rfl (effect_write (tag := .byte) (x := fun u => u.romRead (u.addressIn ra) 1 true) (fun _ => rfl) rfl rfl rfl rfl
    rfl h)

theorem addBReg_canDo (rd rs : Reg) (h : exec (.addBReg rd rs) s = .next t) : CanDo (.addBReg rd rs) s t :=
  canDo_of rfl (effect_binary rfl rfl rfl rfl rfl h)

theorem addBImm_canDo (rd : Reg) (imm : Nat) (h : exec (.addBImm rd imm) s = .next t) : CanDo (.addBImm rd imm) s t :=
  canDo_of rfl (effect_binary rfl rfl rfl rfl rfl h)

theorem addWReg_canDo (rd rs : Reg) (h : exec (.addWReg rd rs) s = .next t) : CanDo (.addWReg rd rs) s t :=
  canDo_of rfl (effect_binary rfl rfl rfl rfl rfl h)

theorem addWImm_canDo (rd : Reg) (imm : Nat) (h : exec (.addWImm rd imm) s = .next t) : CanDo (.addWImm rd imm) s t :=
  canDo_of rfl (effect_binary rfl rfl rfl rfl rfl h)

theorem subBReg_canDo (rd rs : Reg) (h : exec (.subBReg rd rs) s = .next t) : CanDo (.subBReg rd rs) s t :=
  canDo_of rfl (effect_binary rfl rfl rfl rfl rfl h)

theorem subBImm_canDo (rd : Reg) (imm : Nat) (h : exec (.subBImm rd imm) s = .next t) : CanDo (.subBImm rd imm) s t :=
  canDo_of rfl (effect_binary rfl rfl rfl rfl rfl h)

theorem subWReg_canDo (rd rs : Reg) (h : exec (.subWReg rd rs) s = .next t) : CanDo (.subWReg rd rs) s t :=
  canDo_of rfl (effect_binary rfl rfl rfl rfl rfl h)

theorem subWImm_canDo (rd : Reg) (imm : Nat) (h : exec (.subWImm rd imm) s = .next t) : CanDo (.subWImm rd imm) s t :=
  canDo_of rfl (effect_binary rfl rfl rfl rfl rfl h)

theorem mulBReg_canDo (rd rs : Reg) (h : exec (.mulBReg rd rs) s = .next t) : CanDo (.mulBReg rd rs) s t :=
  canDo_of rfl (effect_binary rfl rfl rfl rfl rfl h)

theorem mulBImm_canDo (rd : Reg) (imm : Nat) (h : exec (.mulBImm rd imm) s = .next t) : CanDo (.mulBImm rd imm) s t :=
  canDo_of rfl (effect_binary rfl rfl rfl rfl rfl h)

theorem mulWReg_canDo (rd rs : Reg) (h : exec (.mulWReg rd rs) s = .next t) : CanDo (.mulWReg rd rs) s t :=
  canDo_of rfl (effect_binary rfl rfl rfl rfl rfl h)

theorem mulWImm_canDo (rd : Reg) (imm : Nat) (h : exec (.mulWImm rd imm) s = .next t) : CanDo (.mulWImm rd imm) s t :=
  canDo_of rfl (effect_binary rfl rfl rfl rfl rfl h)

theorem divBReg_canDo (rd rs : Reg) (h : exec (.divBReg rd rs) s = .next t) : CanDo (.divBReg rd rs) s t :=
  canDo_of rfl (effect_binary rfl rfl rfl rfl rfl h)

theorem divBImm_canDo (rd : Reg) (imm : Nat) (h : exec (.divBImm rd imm) s = .next t) : CanDo (.divBImm rd imm) s t :=
  canDo_of rfl (effect_binary rfl rfl rfl rfl rfl h)

theorem divWReg_canDo (rd rs : Reg) (h : exec (.divWReg rd rs) s = .next t) : CanDo (.divWReg rd rs) s t :=
  canDo_of rfl (effect_binary rfl rfl rfl rfl rfl h)

theorem divWImm_canDo (rd : Reg) (imm : Nat) (h : exec (.divWImm rd imm) s = .next t) : CanDo (.divWImm rd imm) s t :=
  canDo_of rfl (effect_binary rfl rfl rfl rfl rfl h)

theorem modBReg_canDo (rd rs : Reg) (h : exec (.modBReg rd rs) s = .next t) : CanDo (.modBReg rd rs) s t :=
  canDo_of rfl (effect_binary rfl rfl rfl rfl rfl h)

theorem modBImm_canDo (rd : Reg) (imm : Nat) (h : exec (.modBImm rd imm) s = .next t) : CanDo (.modBImm rd imm) s t :=
  canDo_of rfl (effect_binary rfl rfl rfl rfl rfl h)

theorem modWReg_canDo (rd rs : Reg) (h : exec (.modWReg rd rs) s = .next t) : CanDo (.modWReg rd rs) s t :=
  canDo_of rfl (effect_binary rfl rfl rfl rfl rfl h)

theorem modWImm_canDo (rd : Reg) (imm : Nat) (h : exec (.modWImm rd imm) s = .next t) : CanDo (.modWImm rd imm) s t :=
  canDo_of rfl (effect_binary rfl rfl rfl rfl rfl h)

theorem andBReg_canDo (rd rs : Reg) (h : exec (.andBReg rd rs) s = .next t) : CanDo (.andBReg rd rs) s t :=
  canDo_of rfl (effect_binary rfl rfl rfl rfl rfl h)

theorem andBImm_canDo (rd : Reg) (imm : Nat) (h : exec (.andBImm rd imm) s = .next t) : CanDo (.andBImm rd imm) s t :=
  canDo_of rfl (effect_binary rfl rfl rfl rfl rfl h)

theorem andWReg_canDo (rd rs : Reg) (h : exec (.andWReg rd rs) s = .next t) : CanDo (.andWReg rd rs) s t :=
  canDo_of rfl (effect_binary rfl rfl rfl rfl rfl h)

theorem andWImm_canDo (rd : Reg) (imm : Nat) (h : exec (.andWImm rd imm) s = .next t) : CanDo (.andWImm rd imm) s t :=
  canDo_of rfl (effect_binary rfl rfl rfl rfl rfl h)

theorem orBReg_canDo (rd rs : Reg) (h : exec (.orBReg rd rs) s = .next t) : CanDo (.orBReg rd rs) s t :=
  canDo_of rfl (effect_binary rfl rfl rfl rfl rfl h)

theorem orBImm_canDo (rd : Reg) (imm : Nat) (h : exec (.orBImm rd imm) s = .next t) : CanDo (.orBImm rd imm) s t :=
  canDo_of rfl (effect_binary rfl rfl rfl rfl rfl h)

theorem orWReg_canDo (rd rs : Reg) (h : exec (.orWReg rd rs) s = .next t) : CanDo (.orWReg rd rs) s t :=
  canDo_of rfl (effect_binary rfl rfl rfl rfl rfl h)

theorem orWImm_canDo (rd : Reg) (imm : Nat) (h : exec (.orWImm rd imm) s = .next t) : CanDo (.orWImm rd imm) s t :=
  canDo_of rfl (effect_binary rfl rfl rfl rfl rfl h)

theorem xorBReg_canDo (rd rs : Reg) (h : exec (.xorBReg rd rs) s = .next t) : CanDo (.xorBReg rd rs) s t :=
  canDo_of rfl (effect_binary rfl rfl rfl rfl rfl h)

theorem xorBImm_canDo (rd : Reg) (imm : Nat) (h : exec (.xorBImm rd imm) s = .next t) : CanDo (.xorBImm rd imm) s t :=
  canDo_of rfl (effect_binary rfl rfl rfl rfl rfl h)

theorem xorWReg_canDo (rd rs : Reg) (h : exec (.xorWReg rd rs) s = .next t) : CanDo (.xorWReg rd rs) s t :=
  canDo_of rfl (effect_binary rfl rfl rfl rfl rfl h)

theorem xorWImm_canDo (rd : Reg) (imm : Nat) (h : exec (.xorWImm rd imm) s = .next t) : CanDo (.xorWImm rd imm) s t :=
  canDo_of rfl (effect_binary rfl rfl rfl rfl rfl h)

theorem shlBReg_canDo (rd rs : Reg) (h : exec (.shlBReg rd rs) s = .next t) : CanDo (.shlBReg rd rs) s t :=
  canDo_of rfl (effect_binary rfl rfl rfl rfl rfl h)

theorem shlBImm_canDo (rd : Reg) (imm : Nat) (h : exec (.shlBImm rd imm) s = .next t) : CanDo (.shlBImm rd imm) s t :=
  canDo_of rfl (effect_binary rfl rfl rfl rfl rfl h)

theorem shlWReg_canDo (rd rs : Reg) (h : exec (.shlWReg rd rs) s = .next t) : CanDo (.shlWReg rd rs) s t :=
  canDo_of rfl (effect_binary rfl rfl rfl rfl rfl h)

theorem shlWImm_canDo (rd : Reg) (imm : Nat) (h : exec (.shlWImm rd imm) s = .next t) : CanDo (.shlWImm rd imm) s t :=
  canDo_of rfl (effect_binary rfl rfl rfl rfl rfl h)

theorem shrBReg_canDo (rd rs : Reg) (h : exec (.shrBReg rd rs) s = .next t) : CanDo (.shrBReg rd rs) s t :=
  canDo_of rfl (effect_binary rfl rfl rfl rfl rfl h)

theorem shrBImm_canDo (rd : Reg) (imm : Nat) (h : exec (.shrBImm rd imm) s = .next t) : CanDo (.shrBImm rd imm) s t :=
  canDo_of rfl (effect_binary rfl rfl rfl rfl rfl h)

theorem shrWReg_canDo (rd rs : Reg) (h : exec (.shrWReg rd rs) s = .next t) : CanDo (.shrWReg rd rs) s t :=
  canDo_of rfl (effect_binary rfl rfl rfl rfl rfl h)

theorem shrWImm_canDo (rd : Reg) (imm : Nat) (h : exec (.shrWImm rd imm) s = .next t) : CanDo (.shrWImm rd imm) s t :=
  canDo_of rfl (effect_binary rfl rfl rfl rfl rfl h)

theorem cmpBReg_canDo (rd rs : Reg) (h : exec (.cmpBReg rd rs) s = .next t) : CanDo (.cmpBReg rd rs) s t :=
  canDo_of rfl (effect_compare rfl rfl rfl rfl rfl h)

theorem cmpBImm_canDo (rd : Reg) (imm : Nat) (h : exec (.cmpBImm rd imm) s = .next t) : CanDo (.cmpBImm rd imm) s t :=
  canDo_of rfl (effect_compare rfl rfl rfl rfl rfl h)

theorem cmpWReg_canDo (rd rs : Reg) (h : exec (.cmpWReg rd rs) s = .next t) : CanDo (.cmpWReg rd rs) s t :=
  canDo_of rfl (effect_compare rfl rfl rfl rfl rfl h)

theorem cmpWImm_canDo (rd : Reg) (imm : Nat) (h : exec (.cmpWImm rd imm) s = .next t) : CanDo (.cmpWImm rd imm) s t :=
  canDo_of rfl (effect_compare rfl rfl rfl rfl rfl h)

theorem notB_canDo (rd : Reg) (h : exec (.notB rd) s = .next t) : CanDo (.notB rd) s t :=
  canDo_of rfl (effect_unary rfl rfl rfl rfl rfl h)

theorem notW_canDo (rd : Reg) (h : exec (.notW rd) s = .next t) : CanDo (.notW rd) s t :=
  canDo_of rfl (effect_unary rfl rfl rfl rfl rfl h)

theorem negB_canDo (rd : Reg) (h : exec (.negB rd) s = .next t) : CanDo (.negB rd) s t :=
  canDo_of rfl (effect_unary rfl rfl rfl rfl rfl h)

theorem negW_canDo (rd : Reg) (h : exec (.negW rd) s = .next t) : CanDo (.negW rd) s t :=
  canDo_of rfl (effect_unary rfl rfl rfl rfl rfl h)

theorem jmp_canDo (addr : Nat) (h : exec (.jmp addr) s = .next t) : CanDo (.jmp addr) s t :=
  .inr (.inr (effect_jump (fun _ => .inr ⟨_, rfl⟩) rfl rfl rfl rfl rfl h))

theorem jmpRel_canDo (off : Int) (h : exec (.jmpRel off) s = .next t) : CanDo (.jmpRel off) s t :=
  .inr (.inr (effect_jump (fun _ => .inr ⟨_, rfl⟩) rfl rfl rfl rfl rfl h))

theorem je_canDo (addr : Nat) (h : exec (.je addr) s = .next t) : CanDo (.je addr) s t :=
  .inr (.inr (effect_jump (fun u => jumpIf_cases u _ _) rfl rfl rfl rfl rfl h))

theorem jeRel_canDo (off : Int) (h : exec (.jeRel off) s = .next t) : CanDo (.jeRel off) s t :=
  .inr (.inr (effect_jump (fun u => jumpIf_cases u _ _) rfl rfl rfl rfl rfl h))

theorem jne_canDo (addr : Nat) (h : exec (.jne addr) s = .next t) : CanDo (.jne addr) s t :=
  .inr (.inr (effect_jump (fun u => jumpIf_cases u _ _) rfl rfl rfl rfl rfl h))

theorem jneRel_canDo (off : Int) (h : exec (.jneRel off) s = .next t) : CanDo (.jneRel off) s t :=
  .inr (.inr (effect_jump (fun u => jumpIf_cases u _ _) rfl rfl rfl rfl rfl h))

theorem jb_canDo (addr : Nat) (h : exec (.jb addr) s = .next t) : CanDo (.jb addr) s t :=
  .inr (.inr (effect_jump (fun u => jumpIf_cases u _ _) rfl rfl rfl rfl rfl h))

theorem jbRel_canDo (off : Int) (h : exec (.jbRel off) s = .next t) : CanDo (.jbRel off) s t :=
  .inr (.inr (effect_jump (fun u => jumpIf_cases u _ _) rfl rfl rfl rfl rfl h))

theorem jbe_canDo (addr : Nat) (h : exec (.jbe addr) s = .next t) : CanDo (.jbe addr) s t :=
  .inr (.inr (effect_jump (fun u => jumpIf_cases u _ _) rfl rfl rfl rfl rfl h))

theorem jbeRel_canDo (off : Int) (h : exec (.jbeRel off) s = .next t) : CanDo (.jbeRel off) s t :=
  .inr (.inr (effect_jump (fun u => jumpIf_cases u _ _) rfl rfl rfl rfl rfl h))

theorem ja_canDo (addr : Nat) (h : exec (.ja addr) s = .next t) : CanDo (.ja addr) s t :=
  .inr (.inr (effect_jump (fun u => jumpIf_cases u _ _) rfl rfl rfl rfl rfl h))

theorem jaRel_canDo (off : Int) (h : exec (.jaRel off) s = .next t) : CanDo (.jaRel off) s t :=
  .inr (.inr (effect_jump (fun u => jumpIf_cases u _ _) rfl rfl rfl rfl rfl h))

theorem jae_canDo (addr : Nat) (h : exec (.jae addr) s = .next t) : CanDo (.jae addr) s t :=
  .inr (.inr (effect_jump (fun u => jumpIf_cases u _ _) rfl rfl rfl rfl rfl h))

theorem jaeRel_canDo (off : Int) (h : exec (.jaeRel off) s = .next t) : CanDo (.jaeRel off) s t :=
  .inr (.inr (effect_jump (fun u => jumpIf_cases u _ _) rfl rfl rfl rfl rfl h))

theorem jl_canDo (addr : Nat) (h : exec (.jl addr) s = .next t) : CanDo (.jl addr) s t :=
  .inr (.inr (effect_jump (fun u => jumpIf_cases u _ _) rfl rfl rfl rfl rfl h))

theorem jlRel_canDo (off : Int) (h : exec (.jlRel off) s = .next t) : CanDo (.jlRel off) s t :=
  .inr (.inr (effect_jump (fun u => jumpIf_cases u _ _) rfl rfl rfl rfl rfl h))

theorem jle_canDo (addr : Nat) (h : exec (.jle addr) s = .next t) : CanDo (.jle addr) s t :=
  .inr (.inr (effect_jump (fun u => jumpIf_cases u _ _) rfl rfl rfl rfl rfl h))

theorem jleRel_canDo (off : Int) (h : exec (.jleRel off) s = .next t) : CanDo (.jleRel off) s t :=
  .inr (.inr (effect_jump (fun u => jumpIf_cases u _ _) rfl rfl rfl rfl rfl h))

theorem jg_canDo (addr : Nat) (h : exec (.jg addr) s = .next t) : CanDo (.jg addr) s t :=
  .inr (.inr (effect_jump (fun u => jumpIf_cases u _ _) rfl rfl rfl rfl rfl h))

theorem jgRel_canDo (off : Int) (h : exec (.jgRel off) s = .next t) : CanDo (.jgRel off) s t :=
  .inr (.inr (effect_jump (fun u => jumpIf_cases u _ _) rfl rfl rfl rfl rfl h))

theorem jge_canDo (addr : Nat) (h : exec (.jge addr) s = .next t) : CanDo (.jge addr) s t :=
  .inr (.inr (effect_jump (fun u => jumpIf_cases u _ _) rfl rfl rfl rfl rfl h))

theorem jgeRel_canDo (off : Int) (h : exec (.jgeRel off) s = .next t) : CanDo (.jgeRel off) s t :=
  .inr (.inr (effect_jump (fun u => jumpIf_cases u _ _) rfl rfl rfl rfl rfl h))

theorem call_canDo (addr : Nat) (h : exec (.call addr) s = .next t) : CanDo (.call addr) s t :=
  canDo_of rfl (effect_call (x := fun _ => addr) rfl rfl rfl rfl rfl h)

theorem callRel_canDo (off : Int) (h : exec (.callRel off) s = .next t) : CanDo (.callRel off) s t :=
  canDo_of rfl (effect_call (x := fun u => u.relTarget off) rfl rfl rfl rfl rfl h)

theorem loop_canDo (addr : Nat) (h : exec (.loop addr) s = .next t) : CanDo (.loop addr) s t :=
  .inr (.inr (effect_loop (x := fun _ => addr) rfl rfl rfl rfl rfl h))

theorem loopRel_canDo (off : Int) (h : exec (.loopRel off) s = .next t) : CanDo (.loopRel off) s t :=
  .inr (.inr (effect_loop (x := fun u => u.relTarget off) rfl rfl rfl rfl rfl h))

theorem ret_canDo (h : exec .ret s = .next t) : CanDo .ret s t := by
  change execRet s = .next t at h
  unfold execRet at h
  refine canDo_of rfl (run_effect h fun u hu => ?_)
  obtain ⟨⟨v, w⟩, hv, hu⟩ := bind_eq_ok.mp hu
  obtain ⟨h1, h2, rfl, rfl⟩ := popCells_ok.mp hv
  cases hu
  exact .ret _ _ rfl rfl rfl rfl rfl ⟨h1, by simpa using h2⟩

theorem push_canDo (rs : Reg) (h : exec (.push rs) s = .next t) : CanDo (.push rs) s t := by
  change execPush rs s = .next t at h
  unfold execPush at h
  refine canDo_of rfl (run_effect h fun u hu => ?_)
  obtain ⟨hf, rfl⟩ := pushCells_ok.mp hu
  exact .push _ _ none rfl rfl rfl rfl rfl (by simpa using hf)

theorem pop_canDo (rd : Reg) (h : exec (.pop rd) s = .next t) : CanDo (.pop rd) s t := by
  change execPop rd s = .next t at h
  unfold execPop at h
  refine canDo_of rfl (run_effect h fun u hu => ?_)
  obtain ⟨⟨v, w⟩, hv, hu⟩ := bind_eq_ok.mp hu
  obtain ⟨h1, h2, rfl, rfl⟩ := popCells_ok.mp hv
  obtain ⟨hsp, rfl⟩ := regWrite_ok.mp hu
  exact .pop rd _ _ rfl rfl rfl rfl rfl ⟨h1, by simpa using h2⟩
    (fun hr => le_of_le_of_eq (hsp hr) (size_congr .stack rfl rfl))

end Instructions

/-- All that a step of `exec` can do. -/
theorem exec_canDo {i : Instr} {s t : State} (h : exec i s = .next t) : CanDo i s t := by
  cases i with
  | input => exact input_canDo h
  | output => exact output_canDo h
  | seek q r => exact seek_canDo _ _ h
  | halt => exact halt_canDo h
  | movbI2r rd imm => exact movbI2r_canDo _ _ h
  | movwI2r rd imm => exact movwI2r_canDo _ _ h
  | movbR2r rd rs => exact movbR2r_canDo _ _ h
  | movwR2r rd rs => exact movwR2r_canDo _ _ h
  | movbM2r rd addr => exact movbM2r_canDo _ _ h
  | movwM2r rd addr => exact movwM2r_canDo _ _ h
  | movbR2m addr rs => exact movbR2m_canDo _ _ h
  | movwR2m addr rs => exact movwR2m_canDo _ _ h
  | ldb rd ra => exact ldb_canDo _ _ h
  | ldw rd ra => exact ldw_canDo _ _ h
  | lda rd ra => exact lda_canDo _ _ h
  | stb ra rs => exact stb_canDo _ _ h
  | stw ra rs => exact stw_canDo _ _ h
  | sta ra rs => exact sta_canDo _ _ h
  | lpb rd ra => exact lpb_canDo _ _ h
  | addBReg rd rs => exact addBReg_canDo _ _ h
  | addBImm rd imm => exact addBImm_canDo _ _ h
  | addWReg rd rs => exact addWReg_canDo _ _ h
  | addWImm rd imm => exact addWImm_canDo _ _ h
  | subBReg rd rs => exact subBReg_canDo _ _ h
  | subBImm rd imm => exact subBImm_canDo _ _ h
  | subWReg rd rs => exact subWReg_canDo _ _ h
  | subWImm rd imm => exact subWImm_canDo _ _ h
  | mulBReg rd rs => exact mulBReg_canDo _ _ h
  | mulBImm rd imm => exact mulBImm_canDo _ _ h
  | mulWReg rd rs => exact mulWReg_canDo _ _ h
  | mulWImm rd imm => exact mulWImm_canDo _ _ h
  | divBReg rd rs => exact divBReg_canDo _ _ h
  | divBImm rd imm => exact divBImm_canDo _ _ h
  | divWReg rd rs => exact divWReg_canDo _ _ h
  | divWImm rd imm => exact divWImm_canDo _ _ h
  | modBReg rd rs => exact modBReg_canDo _ _ h
  | modBImm rd imm => exact modBImm_canDo _ _ h
  | modWReg rd rs => exact modWReg_canDo _ _ h
  | modWImm rd imm => exact modWImm_canDo _ _ h
  | andBReg rd rs => exact andBReg_canDo _ _ h
  | andBImm rd imm => exact andBImm_canDo _ _ h
  | andWReg rd rs => exact andWReg_canDo _ _ h
  | andWImm rd imm => exact andWImm_canDo _ _ h
  | orBReg rd rs => exact orBReg_canDo _ _ h
  | orBImm rd imm => exact orBImm_canDo _ _ h
  | orWReg rd rs => exact orWReg_canDo _ _ h
  | orWImm rd imm => exact orWImm_canDo _ _ h
  | xorBReg rd rs => exact xorBReg_canDo _ _ h
  | xorBImm rd imm => exact xorBImm_canDo _ _ h
  | xorWReg rd rs => exact xorWReg_canDo _ _ h
  | xorWImm rd imm => exact xorWImm_canDo _ _ h
  | shlBReg rd rs => exact shlBReg_canDo _ _ h
  | shlBImm rd imm => exact shlBImm_canDo _ _ h
  | shlWReg rd rs => exact shlWReg_canDo _ _ h
  | shlWImm rd imm => exact shlWImm_canDo _ _ h
  | shrBReg rd rs => exact shrBReg_canDo _ _ h
  | shrBImm rd imm => exact shrBImm_canDo _ _ h
  | shrWReg rd rs => exact shrWReg_canDo _ _ h
  | shrWImm rd imm => exact shrWImm_canDo _ _ h
  | cmpBReg rd rs => exact cmpBReg_canDo _ _ h
  | cmpBImm rd imm => exact cmpBImm_canDo _ _ h
  | cmpWReg rd rs => exact cmpWReg_canDo _ _ h
  | cmpWImm rd imm => exact cmpWImm_canDo _ _ h
  | notB rd => exact notB_canDo _ h
  | notW rd => exact notW_canDo _ h
  | negB rd => exact negB_canDo _ h
  | negW rd => exact negW_canDo _ h
  | jmp addr => exact jmp_canDo _ h
  | jmpRel off => exact jmpRel_canDo _ h
  | je addr => exact je_canDo _ h
  | jeRel off => exact jeRel_canDo _ h
  | jne addr => exact jne_canDo _ h
  | jneRel off => exact jneRel_canDo _ h
  | jb addr => exact jb_canDo _ h
  | jbRel off => exact jbRel_canDo _ h
  | jbe addr => exact jbe_canDo _ h
  | jbeRel off => exact jbeRel_canDo _ h
  | ja addr => exact ja_canDo _ h
  | jaRel off => exact jaRel_canDo _ h
  | jae addr => exact jae_canDo _ h
  | jaeRel off => exact jaeRel_canDo _ h
  | jl addr => exact jl_canDo _ h
  | jlRel off => exact jlRel_canDo _ h
  | jle addr => exact jle_canDo _ h
  | jleRel off => exact jleRel_canDo _ h
  | jg addr => exact jg_canDo _ h
  | jgRel off => exact jgRel_canDo _ h
  | jge addr => exact jge_canDo _ h
  | jgeRel off => exact jgeRel_canDo _ h
  | call addr => exact call_canDo _ h
  | callRel off => exact callRel_canDo _ h
  | loop addr => exact loop_canDo _ h
  | loopRel off => exact loopRel_canDo _ h
  | ret => exact ret_canDo h
  | push rs => exact push_canDo _ h
  | pop rd => exact pop_canDo _ h

end Sys2Proof.Machine
end

