-- ==== Sys2Proof/Laws/PerInstr.lean ====
section
/-! SUPPORT. What holds of every instruction as syntax, one lemma per constructor. -/

namespace Sys2Proof.Laws.BuildsBack

/-- An instruction's form builds it back from its operands, and it has as many operands as its form has classes. -/
def Statement (i : Instr) : Prop :=
  i.form.build i.operands = some i ∧ i.operands.length = i.form.classes.length

theorem movbI2r (rd : Reg) (imm : Nat) : Statement (.movbI2r rd imm) := ⟨rfl, rfl⟩
theorem movwI2r (rd : Reg) (imm : Nat) : Statement (.movwI2r rd imm) := ⟨rfl, rfl⟩
theorem movbR2r (rd rs : Reg) : Statement (.movbR2r rd rs) := ⟨rfl, rfl⟩
theorem movwR2r (rd rs : Reg) : Statement (.movwR2r rd rs) := ⟨rfl, rfl⟩
theorem movbM2r (rd : Reg) (addr : Nat) : Statement (.movbM2r rd addr) := ⟨rfl, rfl⟩
theorem movwM2r (rd : Reg) (addr : Nat) : Statement (.movwM2r rd addr) := ⟨rfl, rfl⟩
theorem movbR2m (addr : Nat) (rs : Reg) : Statement (.movbR2m addr rs) := ⟨rfl, rfl⟩
theorem movwR2m (addr : Nat) (rs : Reg) : Statement (.movwR2m addr rs) := ⟨rfl, rfl⟩
theorem ldb (rd ra : Reg) : Statement (.ldb rd ra) := ⟨rfl, rfl⟩
theorem ldw (rd ra : Reg) : Statement (.ldw rd ra) := ⟨rfl, rfl⟩
theorem lda (rd ra : Reg) : Statement (.lda rd ra) := ⟨rfl, rfl⟩
theorem stb (ra rs : Reg) : Statement (.stb ra rs) := ⟨rfl, rfl⟩
theorem stw (ra rs : Reg) : Statement (.stw ra rs) := ⟨rfl, rfl⟩
theorem sta (ra rs : Reg) : Statement (.sta ra rs) := ⟨rfl, rfl⟩
theorem lpb (rd ra : Reg) : Statement (.lpb rd ra) := ⟨rfl, rfl⟩
theorem addBReg (rd rs : Reg) : Statement (.addBReg rd rs) := ⟨rfl, rfl⟩
theorem addBImm (rd : Reg) (imm : Nat) : Statement (.addBImm rd imm) := ⟨rfl, rfl⟩
theorem addWReg (rd rs : Reg) : Statement (.addWReg rd rs) := ⟨rfl, rfl⟩
theorem addWImm (rd : Reg) (imm : Nat) : Statement (.addWImm rd imm) := ⟨rfl, rfl⟩
theorem subBReg (rd rs : Reg) : Statement (.subBReg rd rs) := ⟨rfl, rfl⟩
theorem subBImm (rd : Reg) (imm : Nat) : Statement (.subBImm rd imm) := ⟨rfl, rfl⟩
theorem subWReg (rd rs : Reg) : Statement (.subWReg rd rs) := ⟨rfl, rfl⟩
theorem subWImm (rd : Reg) (imm : Nat) : Statement (.subWImm rd imm) := ⟨rfl, rfl⟩
theorem mulBReg (rd rs : Reg) : Statement (.mulBReg rd rs) := ⟨rfl, rfl⟩
theorem mulBImm (rd : Reg) (imm : Nat) : Statement (.mulBImm rd imm) := ⟨rfl, rfl⟩
theorem mulWReg (rd rs : Reg) : Statement (.mulWReg rd rs) := ⟨rfl, rfl⟩
theorem mulWImm (rd : Reg) (imm : Nat) : Statement (.mulWImm rd imm) := ⟨rfl, rfl⟩
theorem divBReg (rd rs : Reg) : Statement (.divBReg rd rs) := ⟨rfl, rfl⟩
theorem divBImm (rd : Reg) (imm : Nat) : Statement (.divBImm rd imm) := ⟨rfl, rfl⟩
theorem divWReg (rd rs : Reg) : Statement (.divWReg rd rs) := ⟨rfl, rfl⟩
theorem divWImm (rd : Reg) (imm : Nat) : Statement (.divWImm rd imm) := ⟨rfl, rfl⟩
theorem modBReg (rd rs : Reg) : Statement (.modBReg rd rs) := ⟨rfl, rfl⟩
theorem modBImm (rd : Reg) (imm : Nat) : Statement (.modBImm rd imm) := ⟨rfl, rfl⟩
theorem modWReg (rd rs : Reg) : Statement (.modWReg rd rs) := ⟨rfl, rfl⟩
theorem modWImm (rd : Reg) (imm : Nat) : Statement (.modWImm rd imm) := ⟨rfl, rfl⟩
theorem andBReg (rd rs : Reg) : Statement (.andBReg rd rs) := ⟨rfl, rfl⟩
theorem andBImm (rd : Reg) (imm : Nat) : Statement (.andBImm rd imm) := ⟨rfl, rfl⟩
theorem andWReg (rd rs : Reg) : Statement (.andWReg rd rs) := ⟨rfl, rfl⟩
theorem andWImm (rd : Reg) (imm : Nat) : Statement (.andWImm rd imm) := ⟨rfl, rfl⟩
theorem orBReg (rd rs : Reg) : Statement (.orBReg rd rs) := ⟨rfl, rfl⟩
theorem orBImm (rd : Reg) (imm : Nat) : Statement (.orBImm rd imm) := ⟨rfl, rfl⟩
theorem orWReg (rd rs : Reg) : Statement (.orWReg rd rs) := ⟨rfl, rfl⟩
theorem orWImm (rd : Reg) (imm : Nat) : Statement (.orWImm rd imm) := ⟨rfl, rfl⟩
theorem xorBReg (rd rs : Reg) : Statement (.xorBReg rd rs) := ⟨rfl, rfl⟩
theorem xorBImm (rd : Reg) (imm : Nat) : Statement (.xorBImm rd imm) := ⟨rfl, rfl⟩
theorem xorWReg (rd rs : Reg) : Statement (.xorWReg rd rs) := ⟨rfl, rfl⟩
theorem xorWImm (rd : Reg) (imm : Nat) : Statement (.xorWImm rd imm) := ⟨rfl, rfl⟩
theorem shlBReg (rd rs : Reg) : Statement (.shlBReg rd rs) := ⟨rfl, rfl⟩
theorem shlBImm (rd : Reg) (imm : Nat) : Statement (.shlBImm rd imm) := ⟨rfl, rfl⟩
theorem shlWReg (rd rs : Reg) : Statement (.shlWReg rd rs) := ⟨rfl, rfl⟩
theorem shlWImm (rd : Reg) (imm : Nat) : Statement (.shlWImm rd imm) := ⟨rfl, rfl⟩
theorem shrBReg (rd rs : Reg) : Statement (.shrBReg rd rs) := ⟨rfl, rfl⟩
theorem shrBImm (rd : Reg) (imm : Nat) : Statement (.shrBImm rd imm) := ⟨rfl, rfl⟩
theorem shrWReg (rd rs : Reg) : Statement (.shrWReg rd rs) := ⟨rfl, rfl⟩
theorem shrWImm (rd : Reg) (imm : Nat) : Statement (.shrWImm rd imm) := ⟨rfl, rfl⟩
theorem cmpBReg (rd rs : Reg) : Statement (.cmpBReg rd rs) := ⟨rfl, rfl⟩
theorem cmpBImm (rd : Reg) (imm : Nat) : Statement (.cmpBImm rd imm) := ⟨rfl, rfl⟩
theorem cmpWReg (rd rs : Reg) : Statement (.cmpWReg rd rs) := ⟨rfl, rfl⟩
theorem cmpWImm (rd : Reg) (imm : Nat) : Statement (.cmpWImm rd imm) := ⟨rfl, rfl⟩
theorem notB (rd : Reg) : Statement (.notB rd) := ⟨rfl, rfl⟩
theorem notW (rd : Reg) : Statement (.notW rd) := ⟨rfl, rfl⟩
theorem negB (rd : Reg) : Statement (.negB rd) := ⟨rfl, rfl⟩
theorem negW (rd : Reg) : Statement (.negW rd) := ⟨rfl, rfl⟩
theorem jmp (addr : Nat) : Statement (.jmp addr) := ⟨rfl, rfl⟩
theorem jmpRel (off : Int) : Statement (.jmpRel off) := ⟨rfl, rfl⟩
theorem je (addr : Nat) : Statement (.je addr) := ⟨rfl, rfl⟩
theorem jeRel (off : Int) : Statement (.jeRel off) := ⟨rfl, rfl⟩
theorem jne (addr : Nat) : Statement (.jne addr) := ⟨rfl, rfl⟩
theorem jneRel (off : Int) : Statement (.jneRel off) := ⟨rfl, rfl⟩
theorem jb (addr : Nat) : Statement (.jb addr) := ⟨rfl, rfl⟩
theorem jbRel (off : Int) : Statement (.jbRel off) := ⟨rfl, rfl⟩
theorem jbe (addr : Nat) : Statement (.jbe addr) := ⟨rfl, rfl⟩
theorem jbeRel (off : Int) : Statement (.jbeRel off) := ⟨rfl, rfl⟩
theorem ja (addr : Nat) : Statement (.ja addr) := ⟨rfl, rfl⟩
theorem jaRel (off : Int) : Statement (.jaRel off) := ⟨rfl, rfl⟩
theorem jae (addr : Nat) : Statement (.jae addr) := ⟨rfl, rfl⟩
theorem jaeRel (off : Int) : Statement (.jaeRel off) := ⟨rfl, rfl⟩
theorem jl (addr : Nat) : Statement (.jl addr) := ⟨rfl, rfl⟩
theorem jlRel (off : Int) : Statement (.jlRel off) := ⟨rfl, rfl⟩
theorem jle (addr : Nat) : Statement (.jle addr) := ⟨rfl, rfl⟩
theorem jleRel (off : Int) : Statement (.jleRel off) := ⟨rfl, rfl⟩
theorem jg (addr : Nat) : Statement (.jg addr) := ⟨rfl, rfl⟩
theorem jgRel (off : Int) : Statement (.jgRel off) := ⟨rfl, rfl⟩
theorem jge (addr : Nat) : Statement (.jge addr) := ⟨rfl, rfl⟩
theorem jgeRel (off : Int) : Statement (.jgeRel off) := ⟨rfl, rfl⟩
theorem call (addr : Nat) : Statement (.call addr) := ⟨rfl, rfl⟩
theorem callRel (off : Int) : Statement (.callRel off) := ⟨rfl, rfl⟩
theorem loop (addr : Nat) : Statement (.loop addr) := ⟨rfl, rfl⟩
theorem loopRel (off : Int) : Statement (.loopRel off) := ⟨rfl, rfl⟩
theorem ret : Statement (.ret) := ⟨rfl, rfl⟩
theorem push (rs : Reg) : Statement (.push rs) := ⟨rfl, rfl⟩
theorem pop (rd : Reg) : Statement (.pop rd) := ⟨rfl, rfl⟩
theorem input : Statement (.input) := ⟨rfl, rfl⟩
theorem output : Statement (.output) := ⟨rfl, rfl⟩
theorem seek (rc rr : Reg) : Statement (.seek rc rr) := ⟨rfl, rfl⟩
theorem halt : Statement (.halt) := ⟨rfl, rfl⟩

end Sys2Proof.Laws.BuildsBack
end

