-- ==== Sys2Proof/Tests/Slice0.lean ====
section
/-! SUPPORT. Tests. Expected values come from 95_test_vectors.md or are worked by hand from the encoding tables of
30_encoding.md. The last part shows, for every statement with hypotheses, a state and operands that meet them. -/

namespace Sys2Proof.Tests

open Sys2Proof.Machine

/-! ## Well-formedness: each check refuses an ill-formed term -/

theorem test_default_config_is_admissible : Config.default.admissible = true := by decide

/-- 00_scope.md R5 to R7: CB in 1 .. 64, WS and AS at least 1, W at least 4. -/
theorem test_bad_widths_are_refused :
    ({ Config.default with cellBits := 0 }).admissible = false ∧
    ({ Config.default with cellBits := 65 }).admissible = false ∧
    ({ Config.default with wordCells := 0 }).admissible = false ∧
    ({ Config.default with addrCells := 0 }).admissible = false ∧
    ({ Config.default with cellBits := 3, wordCells := 1 }).admissible = false := by decide

/-- 30_encoding.md R103: OPMAP is an injective map of 96 forms into 0 .. 255. -/
theorem test_bad_opcode_maps_are_refused :
    ({ Config.default with opmap := List.range' 1 95 }).admissible = false ∧
    ({ Config.default with opmap := List.range' 161 96 }).admissible = false ∧
    ({ Config.default with opmap := Config.default.opmap.set 0 2 }).admissible = false := by decide

/-- 10_state.md R36: four distinct bits below W. -/
theorem test_bad_flag_positions_are_refused :
    ({ Config.default with flagPos := { z := 0, c := 0, s := 2, o := 3 } }).admissible = false ∧
    ({ Config.default with flagPos := { z := 63, c := 1, s := 2, o := 3 } }).admissible = false ∧
    ({ Config.default with flagPos := { z := 0, c := 63, s := 2, o := 3 } }).admissible = false ∧
    ({ Config.default with flagPos := { z := 0, c := 1, s := 63, o := 3 } }).admissible = false ∧
    ({ Config.default with flagPos := { z := 0, c := 1, s := 2, o := 63 } }).admissible = false := by decide

/-- 30_encoding.md R90: an immediate one past its class, an offset one past either end; 10_state.md R31: a register whose
id does not fit in a cell of 2 bits; 30_encoding.md R103: an opcode that does not fit in a cell of 6 bits. -/
theorem test_ill_formed_instructions_are_refused :
    (Instr.movbI2r .a 0x200).wellFormed Config.default = false ∧
    (Instr.movwI2r .a 0x8000000000000000).wellFormed Config.default = false ∧
    (Instr.jmp 0x200000000000).wellFormed Config.default = false ∧
    (Instr.jmpRel 0x100000000000).wellFormed Config.default = false ∧
    (Instr.jmpRel (-0x100000000001)).wellFormed Config.default = false ∧
    (Instr.movbR2r .sp .a).wellFormed { Config.default with cellBits := 2 } = false ∧
    (Instr.halt).wellFormed { Config.default with cellBits := 6 } = false := by decide

/-- Operands of the wrong class, too few and too many are out of range. -/
theorem test_operands_of_the_wrong_class_are_refused :
    operandsInRange Config.default [.r] [.imm 0] = false ∧ operandsInRange Config.default [.ib] [.reg .a] = false ∧
    operandsInRange Config.default [.io] [.imm 0] = false ∧ operandsInRange Config.default [.r] [] = false ∧
    operandsInRange Config.default [] [.reg .a] = false := by decide

/-! ## Decoding: one word written out for every form (30_encoding.md R90 to R94, R104) -/

/-- The cells decode to the instruction, under the default opcode map, and it encodes to them. -/
def reads (p : List Nat × Instr) : Bool :=
  decide (decode Config.default p.1 = .ok p.2) && decide (encode Config.default p.2 = p.1)

theorem test_decode_moves :
    [([1, 0, 0x101], .movbI2r .a 0x101),
     ([2, 1, 0x102, 0x112, 0x122, 0x132, 0x142, 0x152, 0x162], .movwI2r .b 0x58aa5429948a2502),
     ([3, 2, 4], .movbR2r .c .sp),
     ([4, 3, 5], .movwR2r .ip .f),
     ([5, 4, 0x145, 0x135, 0x125, 0x115, 0x105], .movbM2r .sp 0x1459ac962b05),
     ([6, 5, 0x106, 0x116, 0x126, 0x136, 0x146], .movwM2r .f 0x1469b49a2d06),
     ([7, 0x147, 0x137, 0x127, 0x117, 0x107, 0], .movbR2m 0x1479bc9e2f07 .a),
     ([8, 0x101, 0x111, 0x121, 0x131, 0x141, 1], .movwR2m 0x14198c862301 .b)].all reads = true := by decide

theorem test_decode_register_addressed_loads_and_stores :
    [([9, 2, 4], .ldb .c .sp),
     ([0xa, 3, 5], .ldw .ip .f),
     ([0xb, 4, 0], .lda .sp .a),
     ([0xc, 5, 1], .stb .f .b),
     ([0xd, 0, 2], .stw .a .c),
     ([0xe, 1, 3], .sta .b .ip),
     ([0xf, 2, 4], .lpb .c .sp)].all reads = true := by decide

theorem test_decode_add_sub_mul :
    [([0x10, 3, 5], .addBReg .ip .f),
     ([0x11, 4, 0x103], .addBImm .sp 0x103),
     ([0x12, 5, 1], .addWReg .f .b),
     ([0x13, 0, 0x165, 0x155, 0x145, 0x135, 0x125, 0x115, 0x105], .addWImm .a 0x596ab459ac962b05),
     ([0x14, 1, 3], .subBReg .b .ip),
     ([0x15, 2, 0x107], .subBImm .c 0x107),
     ([0x16, 3, 5], .subWReg .ip .f),
     ([0x17, 4, 0x162, 0x152, 0x142, 0x132, 0x122, 0x112, 0x102], .subWImm .sp 0x58aa5429948a2502),
     ([0x18, 5, 1], .mulBReg .f .b),
     ([0x19, 0, 0x104], .mulBImm .a 0x104),
     ([0x1a, 1, 3], .mulWReg .b .ip),
     ([0x1b, 2, 0x166, 0x156, 0x146, 0x136, 0x126, 0x116, 0x106], .mulWImm .c 0x59aad469b49a2d06)].all reads = true := by decide

theorem test_decode_div_mod :
    [([0x1c, 3, 5], .divBReg .ip .f),
     ([0x1d, 4, 0x101], .divBImm .sp 0x101),
     ([0x1e, 5, 1], .divWReg .f .b),
     ([0x1f, 0, 0x163, 0x153, 0x143, 0x133, 0x123, 0x113, 0x103], .divWImm .a 0x58ea74399c8e2703),
     ([0x20, 1, 3], .modBReg .b .ip),
     ([0x21, 2, 0x105], .modBImm .c 0x105),
     ([0x22, 3, 5], .modWReg .ip .f),
     ([0x23, 4, 0x167, 0x157, 0x147, 0x137, 0x127, 0x117, 0x107], .modWImm .sp 0x59eaf479bc9e2f07)].all reads = true := by decide

theorem test_decode_logic :
    [([0x24, 5, 1], .andBReg .f .b),
     ([0x25, 0, 0x102], .andBImm .a 0x102),
     ([0x26, 1, 3], .andWReg .b .ip),
     ([0x27, 2, 0x164, 0x154, 0x144, 0x134, 0x124, 0x114, 0x104], .andWImm .c 0x592a9449a4922904),
     ([0x28, 3, 5], .orBReg .ip .f),
     ([0x29, 4, 0x106], .orBImm .sp 0x106),
     ([0x2a, 5, 1], .orWReg .f .b),
     ([0x2b, 0, 0x161, 0x151, 0x141, 0x131, 0x121, 0x111, 0x101], .orWImm .a 0x586a34198c862301),
     ([0x2c, 1, 3], .xorBReg .b .ip),
     ([0x2d, 2, 0x103], .xorBImm .c 0x103),
     ([0x2e, 3, 5], .xorWReg .ip .f),
     ([0x2f, 4, 0x165, 0x155, 0x145, 0x135, 0x125, 0x115, 0x105], .xorWImm .sp 0x596ab459ac962b05)].all reads = true := by decide

theorem test_decode_shifts :
    [([0x30, 5, 1], .shlBReg .f .b),
     ([0x31, 0, 0x107], .shlBImm .a 0x107),
     ([0x32, 1, 3], .shlWReg .b .ip),
     ([0x33, 2, 0x162, 0x152, 0x142, 0x132, 0x122, 0x112, 0x102], .shlWImm .c 0x58aa5429948a2502),
     ([0x34, 3, 5], .shrBReg .ip .f),
     ([0x35, 4, 0x104], .shrBImm .sp 0x104),
     ([0x36, 5, 1], .shrWReg .f .b),
     ([0x37, 0, 0x166, 0x156, 0x146, 0x136, 0x126, 0x116, 0x106], .shrWImm .a 0x59aad469b49a2d06)].all reads = true := by decide

theorem test_decode_compares :
    [([0x38, 1, 3], .cmpBReg .b .ip),
     ([0x39, 2, 0x101], .cmpBImm .c 0x101),
     ([0x3a, 3, 5], .cmpWReg .ip .f),
     ([0x3b, 4, 0x163, 0x153, 0x143, 0x133, 0x123, 0x113, 0x103], .cmpWImm .sp 0x58ea74399c8e2703)].all reads = true := by decide

theorem test_decode_not_neg :
    [([0x3c, 5], .notB .f),
     ([0x3d, 0], .notW .a),
     ([0x3e, 1], .negB .b),
     ([0x3f, 2], .negW .c)].all reads = true := by decide

theorem test_decode_jumps_absolute_and_relative :
    [([0x40, 0x101, 0x111, 0x121, 0x131, 0x141], .jmp 0x14198c862301),
     ([0x41, 0xff, 0, 3, 0, 0x40], .jmpRel 0xff0000c0040),
     ([0x42, 0x103, 0x113, 0x123, 0x133, 0x143], .je 0x14399c8e2703),
     ([0x43, 0x1ff, 0x1ff, 0x1ff, 0x1ff, 0x1ae], .jeRel (-82)),
     ([0x44, 0x105, 0x115, 0x125, 0x135, 0x145], .jne 0x1459ac962b05),
     ([0x45, 0xff, 0, 3, 0, 0x44], .jneRel 0xff0000c0044),
     ([0x46, 0x107, 0x117, 0x127, 0x137, 0x147], .jb 0x1479bc9e2f07),
     ([0x47, 0x1ff, 0x1ff, 0x1ff, 0x1ff, 0x1aa], .jbRel (-86)),
     ([0x48, 0x102, 0x112, 0x122, 0x132, 0x142], .jbe 0x1429948a2502),
     ([0x49, 0xff, 0, 3, 0, 0x48], .jbeRel 0xff0000c0048),
     ([0x4a, 0x104, 0x114, 0x124, 0x134, 0x144], .ja 0x1449a4922904)].all reads = true := by decide

theorem test_decode_jumps_signed :
    [([0x4b, 0x1ff, 0x1ff, 0x1ff, 0x1ff, 0x1a6], .jaRel (-90)),
     ([0x4c, 0x106, 0x116, 0x126, 0x136, 0x146], .jae 0x1469b49a2d06),
     ([0x4d, 0xff, 0, 3, 0, 0x4c], .jaeRel 0xff0000c004c),
     ([0x4e, 0x101, 0x111, 0x121, 0x131, 0x141], .jl 0x14198c862301),
     ([0x4f, 0x1ff, 0x1ff, 0x1ff, 0x1ff, 0x1a2], .jlRel (-94)),
     ([0x50, 0x103, 0x113, 0x123, 0x133, 0x143], .jle 0x14399c8e2703),
     ([0x51, 0xff, 0, 3, 0, 0x50], .jleRel 0xff0000c0050),
     ([0x52, 0x105, 0x115, 0x125, 0x135, 0x145], .jg 0x1459ac962b05),
     ([0x53, 0x1ff, 0x1ff, 0x1ff, 0x1ff, 0x19e], .jgRel (-98)),
     ([0x54, 0x107, 0x117, 0x127, 0x137, 0x147], .jge 0x1479bc9e2f07),
     ([0x55, 0xff, 0, 3, 0, 0x54], .jgeRel 0xff0000c0054)].all reads = true := by decide

theorem test_decode_calls_and_loops :
    [([0x56, 0x102, 0x112, 0x122, 0x132, 0x142], .call 0x1429948a2502),
     ([0x57, 0x1ff, 0x1ff, 0x1ff, 0x1ff, 0x19a], .callRel (-102)),
     ([0x58, 0x104, 0x114, 0x124, 0x134, 0x144], .loop 0x1449a4922904),
     ([0x59, 0xff, 0, 3, 0, 0x58], .loopRel 0xff0000c0058),
     ([0x5a], .ret)].all reads = true := by decide

theorem test_decode_stack_and_io :
    [([0x5b, 0], .push .a),
     ([0x5c, 1], .pop .b),
     ([0x5d], .input),
     ([0x5e], .output),
     ([0x5f, 4, 0], .seek .sp .a),
     ([0x60], .halt)].all reads = true := by decide

/-- The numbering of the opcode table: cell k is bits 9k+8 .. 9k (log entry 11); what lies above is 0. -/
theorem test_decode_table_word :
    decodeTableWord 16 0x13 = some (.addWImm .a 0) ∧
    decodeTableWord 32 (0x13 + 1 * 2 ^ 9) = some (.addWImm .b 0) ∧
    decodeTableWord 24 (0x11 + 2 * 2 ^ 9 + 0x3F * 2 ^ 18) = some (.addBImm .c 0x3F) ∧
    decodeTableWord 16 0x61 = none ∧ decodeTableWord 16 (0x04 + 6 * 2 ^ 9) = none := by decide

/-- S2 at CB = 8 and WS = 2: `02 01` after an even opcode, `01 02` after an odd one (95_test_vectors.md). -/
theorem test_parity_at_eight_bits :
    encode { Config.default with cellBits := 8, wordCells := 2 } (.movwI2r .a 0x102) = [2, 0, 2, 1] ∧
    encode { Config.default with cellBits := 8, wordCells := 2, opmap := Config.default.opmap.set 1 97 }
      (.movwI2r .a 0x102) = [97, 0, 1, 2] := by decide

/-- The codec vectors of section 2.1. -/
theorem test_codec_vectors :
    pack 9 0x12345 3 true = [0x145, 0x91, 0] ∧ pack 9 0x12345 3 false = [0, 0x91, 0x145] ∧
    pack 9 0x200 1 true = [0] ∧ pack 1 0xB 4 true = [1, 1, 0, 1] ∧ pack 1 0xB 4 false = [1, 0, 1, 1] ∧
    pack 16 0xABCD1234 2 false = [0xABCD, 0x1234] ∧ unpack 9 [0x144, 0x91] true = 0x12344 ∧
    signed 45 (unpack 9 [0x1FF, 0x1FF, 0x1FF, 0x1FF, 0x1FA] false) = -6 := by decide

/-! ## One step: the vectors of 95_test_vectors.md, at most two for each instruction -/

/-- The state with the cells as its image. -/
def atZero (cells : List Nat) (s : State) : State :=
  { s with imageLen := cells.length, programArray := Memory.setCells [] 0 cells }

/-- One step from the state with the image leads to the state that `after` describes, and changes nothing else. -/
def leads (cells : List Nat) (s : State) (after : State → State) : Bool :=
  match step (atZero cells s) with
  | .next t => decide (t = after (atZero cells s))
  | _ => false

theorem test_movbI2r :
    leads [1, 0, 5] { State.reset with a := 0x3ff }
      (fun s => { s with a := 0x205, ip := 0x3 })  = true := by decide

theorem test_movwI2r :
    leads [2, 5, 0xf, 0, 0, 0, 0, 0, 0] State.reset
      (fun s => { s with ip := 0x9, f := 0xf })  = true := by decide

theorem test_movwI2r_faults :
    leads [2, 4, 0x101, 0, 0, 0, 0, 0, 0] State.reset
      (fun s => { s with status := .faulted .outOfBounds 0x0 })  = true := by decide

theorem test_movbR2r :
    leads [3, 0, 1] { State.reset with a := 0x3ff, b := 0x1234 }
      (fun s => { s with a := 0x234, ip := 0x3 })  = true := by decide

theorem test_movwR2r :
    leads [4, 0, 3] State.reset
      (fun s => { s with a := 0x3, ip := 0x3 })  = true := by decide

theorem test_movwR2r_faults :
    leads [4, 4, 1] { State.reset with b := 0x7fffffffffffffff }
      (fun s => { s with status := .faulted .outOfBounds 0x0 })  = true := by decide

theorem test_movbM2r :
    leads [5, 0, 0, 0, 0, 0, 0x10] { State.reset with ramArray := [(0x10, 0x7)] }
      (fun s => { s with a := 0x7, ip := 0x7 })  = true := by decide

theorem test_movbM2r_faults :
    leads [5, 0, 0, 0, 0, 2, 0] State.reset
      (fun s => { s with status := .faulted .outOfBounds 0x0 })  = true := by decide

theorem test_movwM2r :
    leads [6, 0, 0x10, 0, 0, 0, 0] { State.reset with ramArray := [(0x10, 0x1), (0x11, 0x2)] }
      (fun s => { s with a := 0x401, ip := 0x7 })  = true := by decide

theorem test_movbR2m :
    leads [7, 0, 0, 0, 0, 0x20, 0] { State.reset with a := 0x3ab }
      (fun s => { s with ip := 0x7, ramArray := [(0x20, 0x1ab)] })  = true := by decide

theorem test_movwR2m :
    leads [8, 0x1f9, 1, 0, 0, 0, 0] { State.reset with a := 0x401 }
      (fun s => { s with ip := 0x7, ramArray := [(0x3f9, 0x1), (0x3fa, 0x2)] })  = true := by decide

theorem test_movwR2m_faults :
    leads [8, 0x1fa, 1, 0, 0, 0, 0] { State.reset with a := 0x401 }
      (fun s => { s with status := .faulted .outOfBounds 0x0 })  = true := by decide

theorem test_ldb :
    leads [9, 0, 1] { State.reset with a := 0x3ff, b := 0x10, ramArray := [(0x10, 0x7)] }
      (fun s => { s with a := 0x207, ip := 0x3 })  = true := by decide

theorem test_ldw :
    leads [0xa, 0, 0] { State.reset with a := 0x10, ramArray := [(0x10, 0x1), (0x11, 0x2)] }
      (fun s => { s with a := 0x401, ip := 0x3 })  = true := by decide

theorem test_ldw_faults :
    leads [0xa, 0, 1] { State.reset with b := 0x3fa }
      (fun s => { s with status := .faulted .outOfBounds 0x0 })  = true := by decide

theorem test_lda :
    leads [0xb, 2, 1] { State.reset with b := 0x10, ramArray := [(0x10, 0xff), (0x11, 0x1)] }
      (fun s => { s with c := 0x2ff, ip := 0x3 })  = true := by decide

theorem test_lda_faults :
    leads [0xb, 4, 1] { State.reset with b := 0x10, ramArray := [(0x10, 0xff), (0x11, 0x1)] }
      (fun s => { s with status := .faulted .outOfBounds 0x0 })  = true := by decide

theorem test_stb :
    leads [0xc, 1, 0] { State.reset with a := 0x2a, b := 0x200000000010 }
      (fun s => { s with ip := 0x3, ramArray := [(0x10, 0x2a)] })  = true := by decide

theorem test_stb_again :
    leads [0xc, 1, 0] { State.reset with a := 0x2a, b := 0x20 }
      (fun s => { s with ip := 0x3, ramArray := [(0x20, 0x2a)] })  = true := by decide

theorem test_stw :
    leads [0xd, 1, 0] { State.reset with a := 0x401, b := 0x10 }
      (fun s => { s with ip := 0x3, ramArray := [(0x10, 0x1), (0x11, 0x2)] })  = true := by decide

theorem test_sta :
    leads [0xe, 1, 0] { State.reset with a := 0x7fffffffffffffff, b := 0x10 }
      (fun s => { s with ip := 0x3, ramArray := [(0x10, 0x1ff), (0x11, 0x1ff), (0x12, 0x1ff), (0x13, 0x1ff), (0x14, 0x1ff)] })  = true := by decide

theorem test_lpb :
    leads [0xf, 0, 1] { State.reset with a := 0x200, b := 0x0 }
      (fun s => { s with a := 0x20f, ip := 0x3 })  = true := by decide

theorem test_lpb_faults :
    leads [0xf, 0, 1] { State.reset with b := 0x3 }
      (fun s => { s with status := .faulted .outOfBounds 0x0 })  = true := by decide

theorem test_addBReg :
    leads [0x10, 0, 1] { State.reset with a := 0x67f, b := 0x1 }
      (fun s => { s with a := 0x680, ip := 0x3 })  = true := by decide

theorem test_addBImm :
    leads [0x11, 0, 1] { State.reset with a := 0x1ff }
      (fun s => { s with a := 0x0, ip := 0x3, f := 0x3 })  = true := by decide

theorem test_addBImm_again :
    leads [0x11, 0, 1] { State.reset with a := 0xff }
      (fun s => { s with a := 0x100, ip := 0x3, f := 0xc })  = true := by decide

theorem test_addWReg :
    leads [0x12, 0, 0] { State.reset with a := 0x7fffffffffffffff }
      (fun s => { s with a := 0x7ffffffffffffffe, ip := 0x3, f := 0x6 })  = true := by decide

theorem test_addWImm :
    leads [0x13, 0, 0, 0, 0, 0, 0, 0, 1] { State.reset with a := 0x3fffffffffffffff }
      (fun s => { s with a := 0x4000000000000000, ip := 0x9, f := 0xc })  = true := by decide

theorem test_addWImm_again :
    leads [0x13, 5, 0, 0, 0, 0, 0, 0, 1] { State.reset with f := 0xfff0 }
      (fun s => { s with ip := 0x9, f := 0xfff0 })  = true := by decide

theorem test_subBImm :
    leads [0x15, 0, 1] { State.reset with a := 0x0 }
      (fun s => { s with a := 0x1ff, ip := 0x3, f := 0x6 })  = true := by decide

theorem test_subBImm_again :
    leads [0x15, 0, 1] { State.reset with a := 0x100 }
      (fun s => { s with a := 0xff, ip := 0x3, f := 0x8 })  = true := by decide

theorem test_subWReg :
    leads [0x16, 0, 1] { State.reset with a := 0x5, b := 0x5 }
      (fun s => { s with a := 0x0, ip := 0x3, f := 0x1 })  = true := by decide

theorem test_subWImm :
    leads [0x17, 3, 0, 0, 0, 0, 0, 0, 9] State.reset
      (fun s => { s with f := 0x1, ip := 0x0 })  = true := by decide

theorem test_mulBImm :
    leads [0x19, 0, 2] { State.reset with a := 0x100 }
      (fun s => { s with a := 0x0, ip := 0x3, f := 0xb })  = true := by decide

theorem test_mulWReg :
    leads [0x1a, 0, 1] { State.reset with a := 0x7fffffffffffffff, b := 0x7fffffffffffffff }
      (fun s => { s with a := 0x1, ip := 0x3, f := 0x2 })  = true := by decide

theorem test_divBImm :
    leads [0x1d, 0, 2] { State.reset with a := 0x1f9 }
      (fun s => { s with a := 0x1fd, ip := 0x3, f := 0x4 })  = true := by decide

theorem test_divBImm_again :
    leads [0x1d, 0, 0x1ff] { State.reset with a := 0x100 }
      (fun s => { s with ip := 0x3, f := 0xc, a := 0x100 })  = true := by decide

theorem test_divWReg_faults :
    leads [0x1e, 0, 1] { State.reset with a := 0x7, b := 0x0 }
      (fun s => { s with status := .faulted .divByZero 0x0 })  = true := by decide

theorem test_modBImm :
    leads [0x21, 0, 2] { State.reset with a := 0x1f9 }
      (fun s => { s with a := 0x1ff, ip := 0x3, f := 0x4 })  = true := by decide

theorem test_modBImm_again :
    leads [0x21, 0, 0x1fe] { State.reset with a := 0x7 }
      (fun s => { s with a := 0x1, ip := 0x3 })  = true := by decide

theorem test_modWImm_faults :
    leads [0x23, 0, 0, 0, 0, 0, 0, 0, 0] { State.reset with a := 0x7 }
      (fun s => { s with status := .faulted .divByZero 0x0 })  = true := by decide

theorem test_andBImm :
    leads [0x25, 0, 0xf] { State.reset with a := 0x3f0 }
      (fun s => { s with a := 0x200, ip := 0x3, f := 0x1 })  = true := by decide

theorem test_orWReg :
    leads [0x2a, 0, 1] { State.reset with a := 0x5, b := 0xa }
      (fun s => { s with a := 0xf, ip := 0x3 })  = true := by decide

theorem test_xorWReg :
    leads [0x2e, 0, 0] { State.reset with a := 0x1234, f := 0xf }
      (fun s => { s with a := 0x0, ip := 0x3, f := 0x1 })  = true := by decide

theorem test_shlBImm :
    leads [0x31, 0, 1] { State.reset with a := 0xc0 }
      (fun s => { s with a := 0x180, ip := 0x3, f := 0xc })  = true := by decide

theorem test_shlBImm_again :
    leads [0x31, 0, 9] { State.reset with a := 0x1 }
      (fun s => { s with a := 0x0, ip := 0x3, f := 0xb })  = true := by decide

theorem test_shlWReg :
    leads [0x32, 0, 1] { State.reset with a := 0x1, b := 0x3e }
      (fun s => { s with a := 0x4000000000000000, ip := 0x3, f := 0xc })  = true := by decide

theorem test_shrBImm :
    leads [0x35, 0, 4] { State.reset with a := 0x1f0 }
      (fun s => { s with a := 0x1f, ip := 0x3 })  = true := by decide

theorem test_shrWReg :
    leads [0x36, 0, 1] { State.reset with a := 0x1, b := 0x3f }
      (fun s => { s with a := 0x0, ip := 0x3, f := 0x1 })  = true := by decide

theorem test_cmpBReg :
    leads [0x38, 0, 1] { State.reset with a := 0x3, b := 0x5 }
      (fun s => { s with ip := 0x3, f := 0x6 })  = true := by decide

theorem test_cmpWImm :
    leads [0x3b, 0, 0, 0, 0, 0, 0, 0, 0x10] { State.reset with a := 0x10 }
      (fun s => { s with ip := 0x9, f := 0x1 })  = true := by decide

theorem test_notB :
    leads [0x3c, 0] { State.reset with a := 0x200 }
      (fun s => { s with a := 0x3ff, ip := 0x2, f := 0x4 })  = true := by decide

theorem test_notW :
    leads [0x3d, 0] { State.reset with a := 0x0 }
      (fun s => { s with a := 0x7fffffffffffffff, ip := 0x2, f := 0x4 })  = true := by decide

theorem test_negB :
    leads [0x3e, 0] { State.reset with a := 0x100 }
      (fun s => { s with ip := 0x2, f := 0xe, a := 0x100 })  = true := by decide

theorem test_negW :
    leads [0x3f, 0] { State.reset with a := 0x0 }
      (fun s => { s with ip := 0x2, f := 0x1, a := 0x0 })  = true := by decide

theorem test_negW_again :
    leads [0x3f, 0] { State.reset with a := 0x1 }
      (fun s => { s with a := 0x7fffffffffffffff, ip := 0x2, f := 0x6 })  = true := by decide

theorem test_jmp :
    leads [0x40, 0x40, 0, 0, 0, 0] State.reset
      (fun s => { s with ip := 0x40 })  = true := by decide

theorem test_jmpRel :
    leads [0x41, 0, 0, 0, 0, 0x14] State.reset
      (fun s => { s with ip := 0x1a })  = true := by decide

theorem test_jmpRel_again :
    leads [0x41, 0x1ff, 0x1ff, 0x1ff, 0x1ff, 0x1fa] State.reset
      (fun s => { s with ip := 0x0 })  = true := by decide

theorem test_jeRel :
    leads [0x43, 0x1ff, 0x1ff, 0x1ff, 0x1ff, 0x1fa] { State.reset with f := 0x1 }
      (fun s => { s with ip := 0x0 })  = true := by decide

theorem test_call :
    leads [0x56, 0x100, 0, 0, 0, 0] { State.reset with sp := 0x0 }
      (fun s => { s with ip := 0x100, sp := 0x5, stackArray := [(0x0, 0x6)] })  = true := by decide

theorem test_call_faults :
    leads [0x56, 0x100, 0, 0, 0, 0] { State.reset with sp := 0xfc }
      (fun s => { s with status := .faulted .stackOverflow 0x0 })  = true := by decide

theorem test_callRel :
    leads [0x57, 0, 0, 0, 0, 0x100] { State.reset with sp := 0x5 }
      (fun s => { s with ip := 0x106, sp := 0xa, stackArray := [(0x5, 0x6)] })  = true := by decide

theorem test_loop :
    leads [0x58, 0x40, 0, 0, 0, 0] { State.reset with c := 0x1 }
      (fun s => { s with c := 0x0, ip := 0x6 })  = true := by decide

theorem test_loop_again :
    leads [0x58, 0x40, 0, 0, 0, 0] { State.reset with c := 0x0, f := 0x2 }
      (fun s => { s with c := 0x7fffffffffffffff, ip := 0x40 })  = true := by decide

theorem test_loopRel :
    leads [0x59, 0x1ff, 0x1ff, 0x1ff, 0x1ff, 0x1fa] { State.reset with c := 0x2 }
      (fun s => { s with c := 0x1, ip := 0x0 })  = true := by decide

theorem test_ret :
    leads [0x5a] { State.reset with sp := 0x5, stackArray := [(0x0, 0x26)] }
      (fun s => { s with ip := 0x26, sp := 0x0 })  = true := by decide

theorem test_ret_faults :
    leads [0x5a] { State.reset with sp := 0x4 }
      (fun s => { s with status := .faulted .stackUnderflow 0x0 })  = true := by decide

theorem test_push :
    leads [0x5b, 0] { State.reset with a := 0x401 }
      (fun s => { s with ip := 0x2, sp := 0x7, stackArray := [(0x0, 0x1), (0x1, 0x2)] })  = true := by decide

theorem test_push_faults :
    leads [0x5b, 0] { State.reset with sp := 0xfa }
      (fun s => { s with status := .faulted .stackOverflow 0x0 })  = true := by decide

theorem test_pop :
    leads [0x5c, 3] { State.reset with sp := 0x7, stackArray := [(0x0, 0x30)] }
      (fun s => { s with ip := 0x30, sp := 0x0 })  = true := by decide

theorem test_pop_faults :
    leads [0x5c, 4] { State.reset with sp := 0x7, stackArray := [(0x0, 0x101)] }
      (fun s => { s with status := .faulted .outOfBounds 0x0 })  = true := by decide

theorem test_input :
    leads [0x5d] { State.reset with a := 0x3ff, f := 0x2, channel := { Channel.silent with answers := [.byte 0x0] } }
      (fun s => { s with a := 0x200, ip := 0x1, f := 0x0, channel := Channel.silent })  = true := by decide

theorem test_input_again :
    leads [0x5d] { State.reset with a := 0x1000, channel := { Channel.silent with answers := [.endOfStream] } }
      (fun s => { s with a := 0x11ff, ip := 0x1, f := 0x2, channel := Channel.silent })  = true := by decide

theorem test_output :
    leads [0x5e] { State.reset with a := 0x10a }
      (fun s => { s with ip := 0x1, channel := { Channel.silent with sent := [.output 0x0A] } })  = true := by decide

theorem test_seek :
    leads [0x5f, 0, 1] { State.reset with a := 0x5, b := 0x2 }
      (fun s => { s with ip := 0x3, channel := { Channel.silent with sent := [.seek 5 2] } })  = true := by decide

theorem test_seek_again :
    leads [0x5f, 1, 0] { State.reset with a := 0x7fffffffffffffff }
      (fun s => { s with ip := 0x3, channel := { Channel.silent with sent := [.seek 0x0 0x7FFFFFFFFFFFFFFF] } })  = true := by decide

theorem test_halt :
    leads [0x60] State.reset
      (fun s => { s with ip := 0x1, status := .halted })  = true := by decide

theorem test_decoder_fault_zero_opcode :
    leads [0] State.reset
      (fun s => { s with status := .faulted .unknownOpcode 0x0 })  = true := by decide

theorem test_decoder_fault_opcode_97 :
    leads [0x61] State.reset
      (fun s => { s with status := .faulted .unknownOpcode 0x0 })  = true := by decide

theorem test_decoder_fault_opcode_above_255 :
    leads [0x100] State.reset
      (fun s => { s with status := .faulted .unknownOpcode 0x0 })  = true := by decide

theorem test_decoder_fault_empty_program :
    leads [] State.reset
      (fun s => { s with status := .faulted .outOfBounds 0x0 })  = true := by decide

theorem test_decoder_fault_past_the_end :
    leads [0x60] { State.reset with ip := 0x1 }
      (fun s => { s with status := .faulted .outOfBounds 0x1 })  = true := by decide

theorem test_decoder_fault_short_word :
    leads [2, 0, 0x102, 0] State.reset
      (fun s => { s with status := .faulted .outOfBounds 0x0 })  = true := by decide

theorem test_decoder_fault_first_register :
    leads [4, 6, 0] State.reset
      (fun s => { s with status := .faulted .badRegister 0x0 })  = true := by decide

theorem test_decoder_fault_second_register :
    leads [4, 0, 7] State.reset
      (fun s => { s with status := .faulted .badRegister 0x0 })  = true := by decide

theorem test_decoder_fault_register_before_bounds :
    leads [2, 9, 0, 0] State.reset
      (fun s => { s with status := .faulted .badRegister 0x0 })  = true := by decide

/-- The table of section 2.5: F after each compare, and which conditions hold (e ne b be a ae l le g ge). -/
theorem test_conditions :
    [(0x1, [true, false, false, true, false, true, false, true, false, true]),
     (0x6, [false, true, true, true, false, false, true, true, false, false]),
     (0x0, [false, true, false, false, true, true, false, false, true, true]),
     (0x4, [false, true, false, false, true, true, true, true, false, false]),
     (0x2, [false, true, true, true, false, false, false, false, true, true]),
     (0x8, [false, true, false, false, true, true, true, true, false, false])].all (fun p =>
      [Condition.e, .ne, .b, .be, .a, .ae, .l, .le, .g, .ge].map { State.reset with f := p.1 }.holds == p.2) = true := by
  decide

/-- While the host has not answered, `in` waits (44_io_halt.md R280, log entry 6). -/
theorem test_in_waits : leads [0x5D] State.reset (fun s => s) = true := by decide

/-- Section 2.8: with ram=stack a push shows in ram. -/
theorem test_push_through_alias :
    leads [0x5B, 0] { State.reset with config := { Config.default with map := .ramStack }, a := 0x401 }
      (fun s => { s with ip := 2, sp := 7, ramArray := [(0, 1), (1, 2)] }) = true := by decide

/-- Section 2.8: a store that would run past the end of ram writes nothing. -/
theorem test_precise_fault :
    leads [0xD, 1, 0] { State.reset with a := 0x401, b := 0x3FA, f := 5 }
      (fun s => { s with status := .faulted .outOfBounds 0 }) = true := by decide

/-- Two cells that are a `stb b, a` in an array that ram and program share; A holds the opcode of `halt`. -/
def selfStore : State :=
  { State.reset with
    config := { Config.default with map := .ramProgram }
    imageLen := 4
    a := 0x60
    b := 3
    ramArray := [(0, 0xC), (1, 1)] }

/-- With ram=program a store through ram is what the next fetch sees (20_memory.md R69, R77, R79). -/
theorem test_store_into_program :
    (match step selfStore with
      | .next t => step t
      | o => o) =
    .next { selfStore with ip := 4, status := .halted, ramArray := [(0, 0xC), (1, 1), (3, 0x60)] } := rfl

/-- The sizes of section 2.8. -/
theorem test_sizes :
    [MemMap.separate, .ramProgram, .ramStack, .programStack, .shared].map (fun m =>
      [Space.ram, .program, .stack].map
        { State.reset with config := { Config.default with map := m }, imageLen := 0x30 }.size) =
    [[0x400, 0x30, 0x100], [0x400, 0x400, 0x100], [0x400, 0x30, 0x400], [0x400, 0x100, 0x100],
     [0x400, 0x400, 0x400]] := by decide

/-- An instruction placed by `withFetchWord` is the first to run after reset (log entry 10). -/
theorem test_with_fetch_word :
    step (State.reset.withFetchWord 16 0x60) =
      .next { State.reset.withFetchWord 16 0x60 with ip := 1, status := .halted } := rfl

/-- From reset with nothing loaded the fetch is out of bounds (30_encoding.md R97, log entry 10). -/
theorem test_reset_has_no_program :
    step State.reset = .next { State.reset with status := .faulted .outOfBounds 0 } := rfl

/-- While the host holds the block, `out` and `seek` wait at their opcode cells; once it returns one request, the first is
sent and the next waits (60_exceptions.md R312, 70_reset_and_hazards.md R340). -/
theorem test_output_and_seek_wait :
    let held (n : Nat) : State := { State.reset with a := 0x41, channel := { Channel.silent with returns := some n } }
    exec .output (held 0) = .next (held 0) ∧ exec (.seek .a .b) (held 0) = .next (held 0) ∧
    exec .output (held 1) =
      .next { held 1 with ip := 1, channel := { Channel.silent with sent := [.output 0x41], returns := some 0 } } :=
  ⟨rfl, rfl, rfl⟩

/-- RESET_FILL through two names of one array: the last entry for a cell stands, one outside its space is passed over, and
the image is stored over both (10_state.md R44, D23, log entry 18). -/
theorem test_reset_fill :
    let cfg := { Config.default with map := .ramProgram }
    let fill := { ResetFill.zero with cells := [(.ram, 5, 1), (.program, 5, 0x202), (.stack, 0x100, 7), (.ram, 0, 9)] }
    let s := State.start cfg fill [0x60] [] none
    s.readCell .ram 5 = 2 ∧ s.readCell .stack 0x100 = 0 ∧ s.readCell .ram 0 = 0x60 ∧ s.readCell .ram 6 = 0 := by decide

/-- A configuration with W below 4 is refused (00_scope.md R7). -/
theorem test_small_word_is_refused :
    construct { Config.default with cellBits := 3, wordCells := 1 } ResetFill.zero [] [] none =
      .refused .inadmissibleConfig := rfl

/-! ## Witnesses: states and operands that meet the hypotheses of the statements, at boundary values -/

/-- The invariant as a computation. -/
def invCheck (s : State) : Bool :=
  s.config.admissible &&
    [Reg.a, .b, .c, .ip, .sp, .f].all (fun r => decide (s.reg r < 2 ^ s.config.regBits r)) &&
    decide (s.sp ≤ s.size .stack) && [Space.ram, .program, .stack].all (fun n => (s.array n).wf) &&
    [Space.ram, .program, .stack].all (fun n => (s.array n).fits (s.ownSize n) s.config.cellBits) &&
    (match s.status with | .faulted _ p => decide (p = s.ip) | _ => true)

theorem inv_of_check {s : State} (h : invCheck s = true) : s.Inv := by
  simp only [invCheck, Bool.and_eq_true, List.all_cons, List.all_nil, Bool.and_true, decide_eq_true_eq] at h
  obtain ⟨⟨⟨⟨⟨hc, ha, hb, hcc, hip, hsp, hf⟩, hs⟩, w1, w2, w3⟩, c1, c2, c3⟩, hr⟩ := h
  refine ⟨hc, ?_, hs, ?_, ?_, ?_⟩
  · intro r; cases r <;> assumption
  · intro n; cases n <;> assumption
  · intro n; cases n <;> assumption
  · intro k p hk
    rw [hk] at hr
    exact of_decide_eq_true hr

/-- A machine at reset with an image. -/
def booted (cells : List Nat) : State :=
  atZero cells State.reset

theorem witness_EncodeThenDecode :
    Config.default.admissible = true ∧ (Instr.jmpRel (-0x100000000000)).wellFormed Config.default = true ∧
    (Instr.movwI2r .f 0x7FFFFFFFFFFFFFFF).wellFormed Config.default = true := by decide

theorem witness_DecodeThenEncode :
    Config.default.admissible = true ∧ (∀ x ∈ [0x41, 0x100, 0, 0, 0, 0, 0x1FF], x < 2 ^ Config.default.cellBits) ∧
    decode Config.default [0x41, 0x100, 0, 0, 0, 0, 0x1FF] = .ok (.jmpRel (-0x100000000000)) := by decide

theorem witness_UnpackInvertsPack : ∀ x ∈ [0x1FF, 0], x < 2 ^ 9 := by decide

theorem witness_PackLaysOutCells : 2 < 3 ∧ 0 < 1 := by decide

theorem witness_EncodedLengthIsFormLength : Config.default.admissible = true := by decide

theorem witness_FetchPastProgramEndFaults :
    ({ booted [0x60] with ip := 1 }).live ∧ ({ booted [0x60] with ip := 1 }).size .program ≤ 1 ∧
    (booted [0x60]).live ∧ 0 < (booted [0x60]).size .program :=
  ⟨⟨rfl, rfl⟩, by decide, ⟨rfl, rfl⟩, by decide⟩

theorem witness_UnassignedOpcodeFaults :
    (booted [97]).live ∧ (booted [97]).config.admissible = true ∧ (booted [97]).ip < (booted [97]).size .program ∧
    (∀ f : Form, (booted [97]).config.opcode f ≠ (booted [97]).readCell .program (booted [97]).ip) ∧
    (booted [96]).config.opcode .halt = (booted [96]).readCell .program (booted [96]).ip :=
  ⟨⟨rfl, rfl⟩, by decide, by decide, by intro f; cases f <;> decide, by decide⟩

/-- The image's first cell is the form's opcode, the form has the format, and the image has as many cells as said. -/
def shortImage (f : Form) (k : Format) (n : Nat) (cells : List Nat) : Bool :=
  let s := booted cells
  decide (s.ip < s.size .program) && decide (s.readCell .program s.ip = s.config.opcode f) && decide (f.format = k) &&
    decide (s.size .program = n)

theorem witness_DecoderFaultsInStreamOrder :
    (booted [4]).live ∧ Config.default.admissible = true ∧
    shortImage .push .R 1 [0x5B] = true ∧ shortImage .push .R 2 [0x5B, 6] = true ∧
    shortImage .movbI2r .RIB 1 [1] = true ∧ shortImage .movwM2r .RIA 2 [6, 0x1FF] = true ∧
    shortImage .movwR2r .RR 2 [4, 5] = true ∧ shortImage .movwR2r .RR 3 [4, 5, 6] = true ∧
    shortImage .movbI2r .RIB 2 [1, 5] = true ∧
    shortImage .movwI2r .RIW 2 [2, 5] = true ∧ shortImage .movwI2r .RIW 8 [2, 5, 0, 0, 0, 0, 0, 0] = true ∧
    shortImage .movwM2r .RIA 2 [6, 5] = true ∧ shortImage .movwM2r .RIA 6 [6, 5, 0, 0, 0, 0] = true ∧
    shortImage .jmp .IA 1 [0x40] = true ∧ shortImage .jmpRel .IO 5 [0x41, 0, 0, 0, 0] = true ∧
    shortImage .movbR2m .IAR 5 [7, 0, 0, 0, 0] = true ∧
    shortImage .movbR2m .IAR 6 [7, 0, 0, 0, 0, 0] = true ∧ shortImage .movbR2m .IAR 7 [7, 0, 0, 0, 0, 0, 6] = true :=
  ⟨⟨rfl, rfl⟩, by decide⟩

theorem witness_StepRunsDecodedInstruction :
    (booted [0x60]).live ∧ decode (booted [0x60]).config (booted [0x60]).fetchCells = .ok .halt :=
  ⟨⟨rfl, rfl⟩, by decide⟩

theorem witness_StepRunsEncodedInstruction :
    let s := booted [0x5B, 4]
    s.live ∧ s.config.admissible = true ∧ (Instr.push .sp).wellFormed s.config = true ∧
    s.ip + (Instr.push .sp).form.length s.config ≤ s.size .program ∧
    ∀ k, k < (Instr.push .sp).form.length s.config →
      s.readCell .program (s.ip + k) = (encode s.config (.push .sp)).getD k 0 :=
  ⟨⟨rfl, rfl⟩, by decide, by decide, by decide, by decide⟩

theorem witness_FinishedRunHasNoStep :
    ({ State.reset with channel := { Channel.silent with dropped := true } }).channel.dropped = true ∧
    ({ State.reset with status := .halted }).status = .halted ∧ State.reset.channel.dropped = false ∧
    ({ State.reset with status := .faulted .divByZero 3 }).status = .faulted .divByZero 3 := by decide

theorem witness_StepKeepsInvariant :
    (booted [0x5B, 0]).Inv ∧ (∃ t, step (booted [0x5B, 0]) = .next t) ∧
    (booted [0x61]).Inv ∧ ∃ t, step (booted [0x61]) = .next t :=
  ⟨inv_of_check (by decide), ⟨_, rfl⟩, inv_of_check (by decide), ⟨_, rfl⟩⟩

/-- A fill that lists a cell twice, the last cell of the stack, and one past it. -/
def someFill : ResetFill :=
  { ResetFill.zero with cells := [(.ram, 5, 1), (.ram, 5, 0x202), (.stack, 0xFF, 3), (.stack, 0x100, 7)] }

theorem witness_ConstructedMachineMeetsInvariant :
    let s := State.start Config.default someFill [1, 2, 0x7FF] [] none
    ({ Config.default with addrCells := 0 }).admissible = false ∧ Config.default.admissible = true ∧
    s.covers .program 0 3 .program 2 ∧ ¬ s.covers .program 0 3 .program 3 ∧ ¬ s.covers .program 0 3 .ram 5 ∧
    someFill.cellAt Config.default .ram 5 = 2 ∧ 5 < s.size .ram ∧ 0xFF < s.size .stack ∧ ¬ 0x100 < s.size .stack := by
  refine ⟨by decide, by decide, ?_, ?_, ?_, by decide, by decide, by decide, by decide⟩ <;> unfold State.covers <;> decide

theorem witness_StepKeepsConstruction : ∃ t, step (booted [0x60]) = .next t := ⟨_, rfl⟩

theorem witness_FaultsArePrecise :
    (booted [4, 6]).live ∧ ∃ t, step (booted [4, 6]) = .next t ∧ t.status = .faulted .badRegister 0 :=
  ⟨⟨rfl, rfl⟩, _, rfl, rfl⟩

theorem witness_OnlyHaltHalts :
    (booted [0x60]).live ∧ ∃ t, step (booted [0x60]) = .next t ∧ t.status = .halted :=
  ⟨⟨rfl, rfl⟩, _, rfl, rfl⟩

theorem witness_ReadOnlyFaultIsNeverRaised :
    (booted [0xC, 1, 0]).live ∧ ∃ t, step (booted [0xC, 1, 0]) = .next t := ⟨⟨rfl, rfl⟩, _, rfl⟩

/-- A state with something in A, B and F. -/
def busy : State :=
  { State.reset with a := 0x401, b := 0x3F9, c := 2, f := 0x30, sp := 0xF9 }

theorem witness_SpacesAreWrittenOnlyByTheirInstructions :
    busy.config.map = .separate ∧
    (∃ t, exec (.stw .b .a) busy = .next t ∧ t.readCell .ram 0x3F9 ≠ busy.readCell .ram 0x3F9) ∧
    ∃ t, exec (.push .a) busy = .next t ∧ t.readCell .stack 0xF9 ≠ busy.readCell .stack 0xF9 :=
  ⟨rfl, ⟨_, rfl, by decide⟩, _, rfl, by decide⟩

theorem witness_RegisterFrame :
    (∃ t, exec (.addWReg .a .b) busy = .next t) ∧ Reg.c ≠ .ip ∧ (Instr.addWReg .a .b).dest ≠ some .c ∧
    Reg.c ∉ (Instr.addWReg .a .b).implicit :=
  ⟨⟨_, rfl⟩, by decide⟩

theorem witness_FlagFrame :
    (Instr.addWReg .a .b).isAlu = true ∧ (Instr.addWReg .a .b).dest ≠ some .f ∧
    (∃ t, exec (.addWReg .a .b) busy = .next t) ∧
    (∃ t, exec .input { busy with channel := { Channel.silent with answers := [.endOfStream] } } = .next t) ∧
    4 ≠ busy.config.flagPos.z ∧ 4 ≠ busy.config.flagPos.c ∧ 4 ≠ busy.config.flagPos.s ∧ 4 ≠ busy.config.flagPos.o :=
  ⟨rfl, by decide, ⟨_, rfl⟩, ⟨_, rfl⟩, by decide⟩

theorem witness_MemoryFrame :
    (∃ t, exec (.stw .b .a) busy = .next t) ∧ stores (.stw .b .a) busy = some (.ram, 0x3F9, 7) ∧
    ¬ busy.covers .ram 0x3F9 7 .ram 0x3F8 ∧ ¬ busy.covers .ram 0x3F9 7 .ram 0x400 ∧
    (∃ t, exec (.cmpWReg .a .b) busy = .next t) ∧ stores (.cmpWReg .a .b) busy = none := by
  refine ⟨⟨_, rfl⟩, rfl, ?_, ?_, ⟨_, rfl⟩, rfl⟩ <;> unfold State.covers <;> decide

theorem witness_ChannelFrame :
    (∃ t, exec .input { busy with channel := { Channel.silent with answers := [.byte 0x48] } } = .next t) ∧
    (∃ t, exec .output busy = .next t) ∧ (∃ t, exec (.seek .a .b) busy = .next t) ∧
    (∃ t, exec .output { busy with channel := { Channel.silent with returns := some 0 } } = .next t) ∧
    ∃ t, exec (.movwR2r .a .b) busy = .next t :=
  ⟨⟨_, rfl⟩, ⟨_, rfl⟩, ⟨_, rfl⟩, ⟨_, rfl⟩, _, rfl⟩

theorem witness_RegisterWriteRule :
    busy.size .stack < busy.merged .sp .word 0x101 ∧ busy.merged .sp .word 0x100 ≤ busy.size .stack := by decide

theorem witness_StoreThenLoad :
    busy.Inv ∧ Space.ram ≠ .program ∧ 0x3F9 + 7 ≤ busy.size .ram ∧ 6 < 7 ∧
    (MemMap.ramProgram).resolve .program = (MemMap.ramProgram).resolve .ram :=
  ⟨inv_of_check (by decide), by decide⟩

theorem witness_AccessesAreBoundsChecked :
    busy.size .ram < 0x3FA + 7 ∧ busy.size .program < 0 + 1 ∧ Space.ram ≠ .program ∧ 0x3F9 + 7 ≤ busy.size .ram := by
  decide

theorem witness_SizeIsLargestRequest :
    (MemMap.shared).resolve .stack = (MemMap.shared).resolve .program := by decide

theorem witness_FlagUpdateWritesFourBits : busy.config.admissible = true ∧ 63 ≠ busy.config.flagPos.o := by decide

theorem witness_ArithmeticIsExact : 1 ≤ 9 ∧ 0x100 < 2 ^ 9 ∧ 0x1FF < 2 ^ 9 ∧ 0x1FF ≠ 0 := by decide

theorem witness_DivisionTruncatesTowardZero :
    1 ≤ 9 ∧ 0x1F9 < 2 ^ 9 ∧ 2 < 2 ^ 9 ∧ 2 ≠ 0 ∧ signed 9 0x1F9 = signed 9 2 * (-3) + (-1) ∧
    |(-1 : Int)| < |signed 9 2| ∧ 0 ≤ (-1 : Int) * signed 9 0x1F9 := by decide

theorem witness_BitwiseResults : 0x1FF < 2 ^ 9 ∧ 0x100 < 2 ^ 9 := by decide

theorem witness_CompareDecidesConditions :
    busy.config.admissible = true ∧ (∃ t, busy.aluCompare .word .a (.register .b) = .ok t) ∧
    busy.operand .word (.register .b) < 2 ^ busy.config.bits .word :=
  ⟨by decide, ⟨_, rfl⟩, by decide⟩

/-- A write to SP is accepted up to size(stack), and a write to any other register always. -/
theorem witness_MovesComplete :
    (busy.advance .movbI2r).accepts .sp .byte 0x100 ∧ (busy.advance .movwI2r).accepts .sp .word 0x100 ∧
    (busy.advance .movbR2r).accepts .a .byte 0x1FF ∧ (busy.advance .movwR2r).accepts .ip .word 0x401 := by
  unfold State.accepts; decide

theorem witness_LoadsComplete :
    0x3FF + 1 ≤ (busy.advance .movbM2r).size .ram ∧ 0x3F9 + 7 ≤ (busy.advance .movwM2r).size .ram ∧
    (busy.advance .ldb).reg .b + 1 ≤ (busy.advance .ldb).size .ram ∧
    (busy.advance .ldw).reg .b + 7 ≤ (busy.advance .ldw).size .ram ∧
    (busy.advance .lda).reg .b + 5 ≤ (busy.advance .lda).size .ram ∧
    ((booted [0xF, 0, 1]).advance .lpb).reg .b + 1 ≤ ((booted [0xF, 0, 1]).advance .lpb).size .program ∧
    (busy.advance .ldw).accepts .sp .word 0 := by
  unfold State.accepts; decide

theorem witness_StoresComplete :
    0x3FF + 1 ≤ (busy.advance .movbR2m).size .ram ∧ 0x3F9 + 7 ≤ (busy.advance .movwR2m).size .ram ∧
    (busy.advance .stb).reg .b + 1 ≤ (busy.advance .stb).size .ram ∧
    (busy.advance .stw).reg .b + 7 ≤ (busy.advance .stw).size .ram ∧
    (busy.advance .sta).reg .b + 5 ≤ (busy.advance .sta).size .ram := by decide

theorem witness_AddSubMulComplete :
    (busy.advance .addWImm).accepts .sp .word ((0xF9 + 7) % 2 ^ 63) ∧ (busy.advance .subBReg).accepts .a .byte 8 ∧
    (busy.advance .mulWReg).accepts .f .word 5 := by
  unfold State.accepts; decide

theorem witness_DivModComplete :
    (busy.advance .divWReg).operand .word (.register .b) ≠ 0 ∧ (1 : Nat) ≠ 0 ∧
    (busy.advance .divWReg).accepts .sp .word 0 ∧ (busy.advance .modBImm).accepts .a .byte 0 := by
  unfold State.accepts; decide

theorem witness_LogicCompletes :
    (busy.advance .andWReg).accepts .sp .word (0xF9 &&& 0x401) ∧ (busy.advance .orBImm).accepts .a .byte 1 ∧
    (busy.advance .xorWImm).accepts .ip .word 0 := by
  unfold State.accepts; decide

theorem witness_ShiftsComplete :
    (busy.advance .shlWImm).accepts .sp .word (0xF9 * 2 ^ 63 % 2 ^ 63) ∧ (busy.advance .shrBReg).accepts .a .byte 1 := by
  unfold State.accepts; decide

theorem witness_CompareNotNegComplete :
    (busy.advance .notB).accepts .a .byte 0x1FE ∧ (busy.advance .negW).accepts .a .word 1 ∧
    ({ busy with sp := 2 ^ 45 - 0x100 }.advance .negW).accepts .sp .word 0x100 := by
  unfold State.accepts; decide

theorem witness_CallsAndRetComplete :
    0xFB + Config.default.addrCells ≤ State.reset.size .stack ∧ busy.config.addrCells ≤ 5 ∧
    0x100 ≤ State.reset.size .stack := by decide

theorem witness_PushPopComplete :
    busy.sp + busy.config.wordCells ≤ busy.size .stack ∧ busy.config.wordCells ≤ busy.sp ∧ busy.sp ≤ busy.size .stack ∧
    ({ busy.advance .pop with sp := busy.sp - 7 }).accepts .sp .word (busy.cellsValue .stack (busy.sp - 7) 7) := by
  unfold State.accepts; decide

theorem witness_InputCompletes :
    [HostAnswer.byte 0xFF, .endOfStream] = .byte 0xFF :: [.endOfStream] ∧
    ({ busy with channel := { Channel.silent with answers := [.endOfStream] } }).channel.answers =
      .endOfStream :: [] := by decide

theorem witness_HostWaitsAreUnbounded :
    let s := { booted [0x5E] with channel := { Channel.silent with returns := some 0 } }
    s.channel.answers = [] ∧ s.channel.returns = some 0 ∧ s.live ∧ decode s.config s.fetchCells = .ok .output ∧
    s.waitsIn .output ∧ (booted [0x5D]).live ∧
    decode (booted [0x5D]).config (booted [0x5D]).fetchCells = .ok .input ∧ (booted [0x5D]).waitsIn .input :=
  ⟨rfl, rfl, ⟨rfl, rfl⟩, rfl, rfl, ⟨rfl, rfl⟩, rfl, rfl⟩

theorem witness_OutputSeekHaltComplete :
    busy.channel.returns ≠ some 0 ∧
    ({ busy with channel := { Channel.silent with returns := some 1 } }).channel.returns ≠ some 0 := by decide

theorem witness_DivisionByZeroFaults :
    (State.reset.advance .divBReg).regRead .b .byte = 0 ∧ (State.reset.advance .divWReg).regRead .b .word = 0 ∧
    ({ State.reset with b := 0x200 }.advance .modBReg).regRead .b .byte = 0 ∧
    (State.reset.advance .modWReg).regRead .b .word = 0 := by decide

theorem witness_StackFaults :
    State.reset.size .stack < 0xFA + Config.default.wordCells ∧ State.reset.size .stack < 0xFC + Config.default.addrCells ∧
    6 < Config.default.wordCells ∧ 4 < Config.default.addrCells ∧
    (let s := { State.reset with sp := 7, stackArray := [(0, 0x101)] }
     s.config.wordCells ≤ s.sp ∧ s.sp ≤ s.size .stack ∧
       s.size .stack < s.cellsValue .stack (s.sp - 7) 7 % 2 ^ s.config.wordBits % 2 ^ s.config.addrBits) := by decide

theorem witness_MemoryOperandFaults :
    let s := { State.reset with b := 0x400, c := 0x3FC }
    s.size .ram < 0x400 + 1 ∧ s.size .ram < 0x3FA + 7 ∧ s.size .ram < (s.advance .ldb).reg .b + 1 ∧
    s.size .ram < (s.advance .lda).reg .c + 5 ∧ s.size .ram < (s.advance .stw).reg .c + 7 ∧
    s.size .ram < (s.advance .ldw).reg .c + 7 ∧ s.size .ram < (s.advance .stb).reg .b + 1 ∧
    s.size .ram < (s.advance .sta).reg .c + 5 ∧ s.size .program < (s.advance .lpb).reg .a + 1 := by decide

/-- The value would leave SP above size(stack). -/
def beyond (s : State) (i : Instr) (tag : Tag) (value : State → Nat) : Bool :=
  let u := s.advance i.form
  decide (u.size .stack < u.merged .sp tag (value u))

/-- The four forms of an ALU operation from SP and the operand in B, and not a zero operand at either width. -/
def fourBeyond (s : State) (breg : Reg → Reg → Instr) (bimm : Reg → Nat → Instr) (wreg : Reg → Reg → Instr)
    (wimm : Reg → Nat → Instr) (res : Nat → Nat → Nat → Nat) : Bool :=
  let low := s.b % 2 ^ s.config.cellBits
  let value := fun tag src (u : State) => res (u.config.bits tag) (u.regRead .sp tag) (u.operand tag src)
  decide (low ≠ 0) && beyond s (breg .sp .b) .byte (value .byte (.register .b)) &&
    beyond s (bimm .sp low) .byte (value .byte (.immediate low)) &&
    beyond s (wreg .sp .b) .word (value .word (.register .b)) &&
    beyond s (wimm .sp s.b) .word (value .word (.immediate s.b))

/-- SP and B as given. -/
def spAndB (sp b : Nat) : State :=
  { State.reset with sp := sp, b := b }

/-- The last cell, address and word of ram, and the first cell of program, hold what SP cannot. -/
def fullCells : State :=
  { State.reset with a := 0x3FB, b := 0x3FF, c := 0x3F9, imageLen := 1,
                     ramArray := [(0x3F9, 0x101), (0x3FB, 0x101), (0x3FF, 0x101)], programArray := [(0, 0x101)] }

theorem witness_StackPointerWriteFaults_moves :
    beyond busy (.movbI2r .sp 0x101) .byte (fun _ => 0x101) ∧ beyond busy (.movwI2r .sp 0x101) .word (fun _ => 0x101) ∧
    beyond busy (.movbR2r .sp .b) .byte (fun u => u.regRead .b .byte) ∧
    beyond busy (.movwR2r .sp .a) .word (fun u => u.regRead .a .word) := by decide

theorem witness_StackPointerWriteFaults_loads :
    let s := fullCells
    s.b + 1 ≤ s.size .ram ∧ s.c + s.config.wordCells ≤ s.size .ram ∧ s.a + s.config.addrCells ≤ s.size .ram ∧
    0 + 1 ≤ s.size .program ∧
    beyond s (.movbM2r .sp 0x3FF) .byte (fun u => u.cellsValue .ram 0x3FF 1) ∧
    beyond s (.movwM2r .sp 0x3F9) .word (fun u => u.cellsValue .ram 0x3F9 7) ∧
    beyond s (.ldb .sp .b) .byte (fun u => u.cellsValue .ram (u.reg .b % 2 ^ 45) 1) ∧
    beyond s (.ldw .sp .c) .word (fun u => u.cellsValue .ram (u.reg .c % 2 ^ 45) 7) ∧
    beyond s (.lda .sp .a) .addr (fun u => u.cellsValue .ram (u.reg .a % 2 ^ 45) 5) ∧
    beyond s (.lpb .sp .f) .byte (fun u => u.cellsValue .program (u.reg .f % 2 ^ 45) 1) := by decide

/-- In the default configuration mod and div read SP as positive at word width; mod needs a word as narrow as a cell. -/
theorem witness_StackPointerWriteFaults_arithmetic :
    fourBeyond (spAndB 0x100 1) .addBReg .addBImm .addWReg .addWImm (fun w a b => (a + b) % 2 ^ w) ∧
    fourBeyond (spAndB 0 1) .subBReg .subBImm .subWReg .subWImm (fun w a b => ofInt w ((a : Int) - b)) ∧
    fourBeyond (spAndB 1 0x101) .mulBReg .mulBImm .mulWReg .mulWImm (fun w a b => a * b % 2 ^ w) ∧
    fourBeyond (spAndB 0xC8 0x7FFFFFFFFFFFFFFF) .divBReg .divBImm .divWReg .divWImm
      (fun w a b => ofInt w ((signed w a).tdiv (signed w b))) ∧
    fourBeyond { spAndB 0x100 3 with config := { Config.default with wordCells := 1 } } .modBReg .modBImm .modWReg .modWImm
      (fun w a b => ofInt w ((signed w a).tmod (signed w b))) ∧
    (let neg := fun tag (u : State) => (2 ^ u.config.bits tag - u.regRead .sp tag) % 2 ^ u.config.bits tag
     beyond (spAndB 1 0) (.negB .sp) .byte (neg .byte) ∧ beyond (spAndB 1 0) (.negW .sp) .word (neg .word)) := by decide

/-- and and shr start from an SP that no run reaches; the others do not. -/
theorem witness_StackPointerWriteFaults_logic :
    fourBeyond (spAndB 0x101 0x1FF) .andBReg .andBImm .andWReg .andWImm (fun _ a b => a &&& b) ∧
    fourBeyond (spAndB 0x100 1) .orBReg .orBImm .orWReg .orWImm (fun _ a b => a ||| b) ∧
    fourBeyond (spAndB 0x100 1) .xorBReg .xorBImm .xorWReg .xorWImm (fun _ a b => a ^^^ b) ∧
    fourBeyond (spAndB 0x81 1) .shlBReg .shlBImm .shlWReg .shlWImm (fun w a b => a * 2 ^ b % 2 ^ w) ∧
    fourBeyond (spAndB 0x202 1) .shrBReg .shrBImm .shrWReg .shrWImm (fun _ a b => a / 2 ^ b) ∧
    (let comp := fun tag (u : State) => 2 ^ u.config.bits tag - 1 - u.regRead .sp tag
     beyond (spAndB 0 0) (.notB .sp) .byte (comp .byte) ∧ beyond (spAndB 0 0) (.notW .sp) .word (comp .word)) := by decide

theorem witness_InstructionsRaiseOnlyTheirFaults :
    busy.Inv ∧ busy.status = .running ∧ ∃ t, exec (.divWImm .a 0) busy = .next t ∧ t.status = .faulted .divByZero 0 :=
  ⟨inv_of_check (by decide), rfl, _, rfl, rfl⟩

theorem witness_OpcodeMapOnlyAffectsDecoding : ∃ t, exec (.stw .b .a) busy = .next t := ⟨_, rfl⟩

theorem witness_PushThenPop :
    busy.Inv ∧ busy.sp + busy.config.wordCells ≤ busy.size .stack ∧
    busy.sp + busy.config.wordCells < 2 ^ busy.config.addrBits ∧
    (busy.advance .push).regRead .sp .word % 2 ^ busy.config.addrBits ≤ busy.size .stack :=
  ⟨inv_of_check (by decide), by decide⟩

theorem witness_CallThenRet :
    let s := { busy with sp := 0xFB }
    s.Inv ∧ s.sp + s.config.addrCells ≤ s.size .stack ∧ s.sp + s.config.addrCells < 2 ^ s.config.addrBits :=
  ⟨inv_of_check (by decide), by decide⟩

end Sys2Proof.Tests
end

section
/-! Replacing a backing array: what each name shows afterwards, and what else stays (20_memory.md R64 to R67). -/

namespace Sys2Proof.Machine

theorem resolve_resolve (m : MemMap) (n : Space) : m.resolve (m.resolve n) = m.resolve n := by
  cases m <;> cases n <;> rfl

/-- Names that share an array have one size. -/
theorem size_eq_of_resolve_eq (s : State) {n m : Space} (h : s.config.map.resolve n = s.config.map.resolve m) :
    s.size n = s.size m := by
  simp only [State.size, State.share, h]

/-- A name's array is at least as large as it asks for. -/
theorem requested_le_size (s : State) (n : Space) : s.requested n ≤ s.size n := by
  have h : s.share n n = s.requested n := if_pos rfl
  cases n <;> simp only [State.size, h] <;> omega

theorem ownSize_resolve (s : State) (n : Space) : s.ownSize (s.config.map.resolve n) = s.size n := by
  have h := resolve_resolve s.config.map n
  rw [State.ownSize, if_pos h, size_eq_of_resolve_eq s h]

theorem ownSize_congr {s t : State} (n : Space) (hc : t.config = s.config) (hl : t.imageLen = s.imageLen) :
    t.ownSize n = s.ownSize n := by
  rw [State.ownSize, State.ownSize, hc, size_congr n hc hl]

/-- A replaced array shows through every name of it, and through no other name. -/
theorem readCell_setBacking (s : State) (n q : Space) (m : Memory) (b : Nat) :
    (s.setBacking n m).readCell q b =
      if s.config.map.resolve q = s.config.map.resolve n then m.get b else s.readCell q b := by
  unfold State.readCell State.backing
  rw [setBacking_config, State.setBacking]
  split
  · rename_i h
    rw [h, setArray_array]
  · rename_i h
    rw [setArray_array_of_ne s m h]

/-- The two states differ in their arrays alone. -/
def State.SameButArrays (s t : State) : Prop :=
  t = { s with ramArray := t.ramArray, programArray := t.programArray, stackArray := t.stackArray }

theorem State.SameButArrays.refl (s : State) : s.SameButArrays s := rfl

theorem State.SameButArrays.trans {s t u : State} (h : s.SameButArrays t) (h' : t.SameButArrays u) :
    s.SameButArrays u := by
  unfold State.SameButArrays at *
  rw [h', h]

theorem State.SameButArrays.config_eq {s t : State} (h : s.SameButArrays t) : t.config = s.config := by rw [h]

theorem State.SameButArrays.imageLen_eq {s t : State} (h : s.SameButArrays t) : t.imageLen = s.imageLen := by rw [h]

theorem State.SameButArrays.size_eq {s t : State} (h : s.SameButArrays t) (n : Space) : t.size n = s.size n :=
  size_congr n h.config_eq h.imageLen_eq

theorem State.SameButArrays.covers_iff {s t : State} (h : s.SameButArrays t) {m n : Space} {a k b : Nat} :
    t.covers m a k n b ↔ s.covers m a k n b := by
  rw [State.covers, State.covers, h.config_eq]

theorem setBacking_sameButArrays (s : State) (n : Space) (m : Memory) : s.SameButArrays (s.setBacking n m) := by
  unfold State.setBacking
  cases s.config.map.resolve n <;> rfl

/-- What the invariant says of the arrays: each canonical, with every cell in bounds and below 2^CB. -/
structure State.ArraysInv (s : State) : Prop where
  canonical : ∀ n, (s.array n).wf = true
  cells : ∀ n, (s.array n).fits (s.ownSize n) s.config.cellBits = true

theorem State.ArraysInv.backing_wf {s : State} (h : s.ArraysInv) (n : Space) : (s.backing n).wf = true :=
  h.canonical _

theorem State.ArraysInv.backing_fits {s : State} (h : s.ArraysInv) (n : Space) :
    (s.backing n).fits (s.size n) s.config.cellBits = true :=
  ownSize_resolve s n ▸ h.cells _

/-- Replacing an array by one that is canonical and fits its class keeps the arrays' invariant. -/
theorem State.ArraysInv.setBacking {s : State} (h : s.ArraysInv) {n : Space} {m : Memory} (hw : m.wf = true)
    (hf : m.fits (s.size n) s.config.cellBits = true) : (s.setBacking n m).ArraysInv := by
  have hsize : ∀ q, (s.setBacking n m).ownSize q = s.ownSize q := fun q => ownSize_congr q (by simp) (by simp)
  constructor <;> intro q <;> by_cases hq : q = s.config.map.resolve n
  · rw [hq, State.setBacking, setArray_array]
    exact hw
  · rw [State.setBacking, setArray_array_of_ne s m hq]
    exact h.canonical q
  · rw [hsize, setBacking_config, hq, ownSize_resolve, State.setBacking, setArray_array]
    exact hf
  · rw [hsize, setBacking_config, State.setBacking, setArray_array_of_ne s m hq]
    exact h.cells q

theorem Memory.get_set {m : Memory} (a v b : Nat) (h : m.wf = true) :
    (m.set a v).get b = if b = a then v else m.get b := by
  split
  · subst b
    exact Memory.get_set_same a v h
  · exact Memory.get_set_of_ne m v ‹_›

/-- A cell of a store of several cells reads back. -/
theorem Memory.get_setCells_inside {m : Memory} (a : Nat) {xs : List Nat} {k : Nat} (h : m.wf = true)
    (hk : k < xs.length) : (m.setCells a xs).get (a + k) = xs.getD k 0 := by
  have hget := Memory.getCells_getElem? (m.setCells a xs) a xs.length k hk
  rw [Memory.getCells_setCells_same a xs h] at hget
  rw [List.getD_eq_getElem?_getD, hget, Option.getD_some]

end Sys2Proof.Machine
end

section
/-! Constructing a machine: the fill cell by cell, then the image (10_state.md R44, 70_reset_and_hazards.md R330, R331;
D23, log entry 18). -/

namespace Sys2Proof.Machine

theorem poke_of_lt {s : State} {e : Space × Nat × Nat} (h : e.2.1 < s.size e.1) :
    s.poke e = s.setBacking e.1 ((s.backing e.1).set e.2.1 (e.2.2 % 2 ^ s.config.cellBits)) :=
  if_pos h

theorem poke_of_not_lt {s : State} {e : Space × Nat × Nat} (h : ¬ e.2.1 < s.size e.1) : s.poke e = s :=
  if_neg h

theorem poke_sameButArrays (s : State) (e : Space × Nat × Nat) : s.SameButArrays (s.poke e) := by
  by_cases h : e.2.1 < s.size e.1
  · rw [poke_of_lt h]
    exact setBacking_sameButArrays _ _ _
  · rw [poke_of_not_lt h]
    exact .refl s

theorem State.ArraysInv.poke {s : State} (h : s.ArraysInv) (e : Space × Nat × Nat) : (s.poke e).ArraysInv := by
  by_cases he : e.2.1 < s.size e.1
  · rw [poke_of_lt he]
    exact h.setBacking (Memory.wf_set _ _ (h.backing_wf _))
      (Memory.fits_set (h.backing_fits _) he (Nat.mod_lt _ (Nat.two_pow_pos _)))
  · rwa [poke_of_not_lt he]

/-- The fill's entry `e` names the cell `b` of the name `n`, by a name of the same array: the test of
`ResetFill.cellAt`. -/
def namesCell (c : Config) (n : Space) (b : Nat) (e : Space × Nat × Nat) : Bool :=
  c.map.resolve e.1 == c.map.resolve n && e.2.1 == b

theorem namesCell_iff {c : Config} {n : Space} {b : Nat} {e : Space × Nat × Nat} :
    namesCell c n b e ↔ c.map.resolve n = c.map.resolve e.1 ∧ b = e.2.1 := by
  rw [namesCell, Bool.and_eq_true, beq_iff_eq, beq_iff_eq, @eq_comm _ (c.map.resolve e.1), @eq_comm _ e.2.1]

/-- With no entry a fill gives every cell 0. -/
theorem cellAt_nil {fill : ResetFill} (c : Config) (n : Space) (b : Nat) (h : fill.cells = []) :
    fill.cellAt c n b = 0 := by
  simp [ResetFill.cellAt, h]

/-- The last entry of a fill wins. -/
theorem cellAt_append (fill : ResetFill) (es : List (Space × Nat × Nat)) (e : Space × Nat × Nat) (c : Config)
    (n : Space) (b : Nat) :
    { fill with cells := es ++ [e] }.cellAt c n b =
      if namesCell c n b e then e.2.2 % 2 ^ c.cellBits else { fill with cells := es }.cellAt c n b := by
  simp only [ResetFill.cellAt, List.reverse_append, List.reverse_singleton, List.singleton_append, List.find?_cons]
  cases h : namesCell c n b e <;> simp only [namesCell] at h <;> simp [h]

/-- One poke, read through any name at any address: an entry outside its space is passed over. -/
theorem readCell_poke {s : State} (hs : s.ArraysInv) (e : Space × Nat × Nat) (n : Space) (b : Nat) :
    (s.poke e).readCell n b =
      if b < s.size n ∧ namesCell s.config n b e then e.2.2 % 2 ^ s.config.cellBits else s.readCell n b := by
  by_cases he : e.2.1 < s.size e.1
  · rw [poke_of_lt he, readCell_setBacking, Memory.get_set _ _ _ (hs.backing_wf _)]
    simp only [namesCell_iff]
    by_cases hn : s.config.map.resolve n = s.config.map.resolve e.1
    · have hsize := size_eq_of_resolve_eq s hn
      by_cases hb : b = e.2.1
      · simp [hn, hb, hsize, he]
      · simp [hn, hb, State.readCell, State.backing]
    · simp [hn]
  · rw [poke_of_not_lt he, if_neg]
    rintro ⟨hlt, hnames⟩
    obtain ⟨hn, rfl⟩ := namesCell_iff.mp hnames
    exact he (size_eq_of_resolve_eq s hn ▸ hlt)

/-- The fill, applied to arrays that hold 0 everywhere: it keeps everything but the arrays, keeps their invariant, and
leaves in each cell what `ResetFill.cellAt` says. -/
theorem foldl_poke (fill : ResetFill) {s : State} (hs : s.ArraysInv) (hz : ∀ n b, s.readCell n b = 0)
    (es : List (Space × Nat × Nat)) :
    s.SameButArrays (es.foldl State.poke s) ∧ (es.foldl State.poke s).ArraysInv ∧
      ∀ n b, (es.foldl State.poke s).readCell n b =
        if b < s.size n then { fill with cells := es }.cellAt s.config n b else 0 := by
  induction es using List.reverseRecOn with
  | nil => exact ⟨.refl s, hs, fun n b => by simp [cellAt_nil, hz]⟩
  | append_singleton es e ih =>
    obtain ⟨hsame, hinv, hread⟩ := ih
    rw [List.foldl_append, List.foldl_cons, List.foldl_nil]
    refine ⟨hsame.trans (poke_sameButArrays _ e), hinv.poke e, fun n b => ?_⟩
    rw [readCell_poke hinv, hread, cellAt_append, hsame.config_eq, hsame.size_eq]
    by_cases hb : b < s.size n <;> simp [hb]

theorem loadImage_sameButArrays (s : State) (img : List Nat) : s.SameButArrays (s.loadImage img) :=
  setBacking_sameButArrays _ _ _

/-- The loader keeps the arrays' invariant when the program space has room for the image. -/
theorem State.ArraysInv.loadImage {s : State} (h : s.ArraysInv) {img : List Nat} (hl : img.length ≤ s.size .program) :
    (s.loadImage img).ArraysInv := by
  refine h.setBacking (Memory.wf_setCells _ _ (h.backing_wf _)) (Memory.fits_setCells (h.backing_fits _) ?_ ?_)
  · simpa using hl
  · intro x hx
    obtain ⟨y, -, rfl⟩ := List.mem_map.mp hx
    exact Nat.mod_lt _ (Nat.two_pow_pos _)

/-- The image shows through every name of program's array. -/
theorem readCell_loadImage_of_covers {s : State} (h : s.ArraysInv) {img : List Nat} {n : Space} {b : Nat}
    (hc : s.covers .program 0 img.length n b) :
    (s.loadImage img).readCell n b = img.getD b 0 % 2 ^ s.config.cellBits := by
  obtain ⟨hn, -, hb⟩ := hc
  have hget := Memory.get_setCells_inside 0 (xs := img.map (· % 2 ^ s.config.cellBits)) (k := b)
    (h.backing_wf .program) (by simpa using hb)
  rw [Nat.zero_add] at hb hget
  rw [State.loadImage, readCell_setBacking, if_pos hn, hget]
  simp [List.getD_eq_getElem?_getD, hb]

/-- The loader stores nothing else. -/
theorem readCell_loadImage_of_not_covers {s : State} {img : List Nat} {n : Space} {b : Nat}
    (hc : ¬ s.covers .program 0 img.length n b) : (s.loadImage img).readCell n b = s.readCell n b := by
  rw [State.loadImage, readCell_setBacking]
  split
  · rename_i hn
    have hb : ¬ b < 0 + img.length := fun hb => hc ⟨hn, Nat.zero_le b, hb⟩
    rw [Memory.get_setCells_outside _ _ (.inr (by simpa using hb)), State.readCell, State.backing, State.backing, hn]
  · rfl

/-- The machine before fill and image: the registers as given, every array empty. -/
def State.blank (cfg : Config) (fill : ResetFill) (len : Nat) (answers : List HostAnswer) (returns : Option Nat) :
    State :=
  { State.reset with
    config := cfg
    imageLen := len
    a := fill.a % 2 ^ cfg.wordBits
    b := fill.b % 2 ^ cfg.wordBits
    c := fill.c % 2 ^ cfg.wordBits
    f := fill.f % 2 ^ cfg.wordBits
    channel := { Channel.silent with answers := answers, returns := returns } }

section Start

variable (cfg : Config) (fill : ResetFill) (img : List Nat) (answers : List HostAnswer) (returns : Option Nat)

theorem start_eq : State.start cfg fill img answers returns =
    (fill.cells.foldl State.poke (State.blank cfg fill img.length answers returns)).loadImage img := rfl

theorem blank_array (len : Nat) (n : Space) : (State.blank cfg fill len answers returns).array n = [] := by
  cases n <;> rfl

theorem blank_arraysInv (len : Nat) : (State.blank cfg fill len answers returns).ArraysInv :=
  ⟨fun n => by rw [blank_array]; rfl, fun n => by rw [blank_array]; rfl⟩

theorem blank_readCell (len : Nat) (n : Space) (b : Nat) :
    (State.blank cfg fill len answers returns).readCell n b = 0 := by
  rw [State.readCell, State.backing, blank_array]
  rfl

/-- The fill on the blank machine, as `foldl_poke` describes it. -/
theorem blank_filled :
    let s := State.blank cfg fill img.length answers returns
    let u := fill.cells.foldl State.poke s
    s.SameButArrays u ∧ u.ArraysInv ∧ ∀ n b, u.readCell n b = if b < s.size n then fill.cellAt cfg n b else 0 :=
  foldl_poke fill (blank_arraysInv _ _ _ _ _) (blank_readCell _ _ _ _ _) fill.cells

/-- Fill and image change nothing but the arrays. -/
theorem start_sameButArrays :
    (State.blank cfg fill img.length answers returns).SameButArrays (State.start cfg fill img answers returns) := by
  obtain ⟨hsame, -⟩ := blank_filled cfg fill img answers returns
  exact hsame.trans (loadImage_sameButArrays _ img)

theorem start_arraysInv : (State.start cfg fill img answers returns).ArraysInv := by
  obtain ⟨hsame, hinv, -⟩ := blank_filled cfg fill img answers returns
  have hroom := requested_le_size (State.blank cfg fill img.length answers returns) .program
  exact hinv.loadImage (hsame.size_eq .program ▸ hroom)

/-- Every register of the machine at start fits in its width. -/
theorem blank_reg_lt (len : Nat) (r : Reg) :
    (State.blank cfg fill len answers returns).reg r < 2 ^ cfg.regBits r := by
  have hfill : ∀ v, v % 2 ^ cfg.wordBits < 2 ^ cfg.wordBits := fun v => Nat.mod_lt v (Nat.two_pow_pos _)
  cases r with
  | ip | sp => exact Nat.two_pow_pos _
  | a | b | c | f => exact hfill _

/-- The machine at start meets the invariant. -/
theorem start_inv (h : cfg.admissible = true) : (State.start cfg fill img answers returns).Inv := by
  have hinv := start_arraysInv cfg fill img answers returns
  have hsame := start_sameButArrays cfg fill img answers returns
  refine ⟨hsame.config_eq ▸ h, fun r => ?_, ?_, hinv.canonical, hinv.cells, ?_⟩
  · have hreg : (State.start cfg fill img answers returns).reg r =
        (State.blank cfg fill img.length answers returns).reg r := by
      rw [hsame]; cases r <;> rfl
    rw [hreg, hsame.config_eq]
    exact blank_reg_lt _ _ _ _ _ r
  · have hsp : (State.start cfg fill img answers returns).sp = 0 := by rw [hsame]; rfl
    exact hsp ▸ Nat.zero_le _
  · intro k p hk
    rw [hsame] at hk
    cases hk

variable {n : Space} {b : Nat}

/-- The machine at start shows the image. -/
theorem start_readCell_of_covers (hc : (State.start cfg fill img answers returns).covers .program 0 img.length n b) :
    (State.start cfg fill img answers returns).readCell n b = img.getD b 0 % 2 ^ cfg.cellBits := by
  obtain ⟨hfilled, hinv, -⟩ := blank_filled cfg fill img answers returns
  rw [(start_sameButArrays cfg fill img answers returns).covers_iff, ← hfilled.covers_iff] at hc
  rw [start_eq, readCell_loadImage_of_covers hinv hc, hfilled.config_eq]
  rfl

/-- Where the image does not reach, the machine at start shows the fill. -/
theorem start_readCell_of_not_covers
    (hc : ¬ (State.start cfg fill img answers returns).covers .program 0 img.length n b) :
    (State.start cfg fill img answers returns).readCell n b =
      if b < (State.start cfg fill img answers returns).size n then fill.cellAt cfg n b else 0 := by
  obtain ⟨hfilled, -, hread⟩ := blank_filled cfg fill img answers returns
  have hsame := start_sameButArrays cfg fill img answers returns
  rw [hsame.covers_iff, ← hfilled.covers_iff] at hc
  rw [hsame.size_eq, start_eq, readCell_loadImage_of_not_covers hc, hread]

end Start

/-- Settles O16: the machine at start is the blank one with the fill and then the image stored in its arrays. -/
theorem constructedMachineMeetsInvariant : Obligations.ConstructedMachineMeetsInvariant := by
  intro cfg fill img answers returns
  have hsame := start_sameButArrays cfg fill img answers returns
  refine ⟨fun h => if_neg (by simp [h]), fun h => ⟨State.start cfg fill img answers returns, if_pos h,
    start_inv cfg fill img answers returns h, hsame.config_eq, ?_, ?_, ?_, hsame.imageLen_eq, ?_, ?_, ?_, ?_, ?_,
    fun _ _ => start_readCell_of_covers cfg fill img answers returns,
    fun _ _ => start_readCell_of_not_covers cfg fill img answers returns⟩⟩ <;> rw [hsame] <;> rfl

end Sys2Proof.Machine
end

section
/-! What every step keeps of the construction, and what an instruction does to the channel (00_scope.md R8, R11). -/

namespace Sys2Proof.Machine

section Step

variable {i : Instr} {s t : State}

/-- A step of a live machine takes the decoder's fault or executes the decoded instruction. -/
theorem step_next : step s = .next t ↔ s.live ∧
    ((∃ k, decode s.config s.fetchCells = .error k ∧ t = s.takeFault k) ∨
      ∃ i, decode s.config s.fetchCells = .ok i ∧ exec i s = .next t) := by
  unfold step State.live
  cases s.channel.dropped with
  | true => simp
  | false =>
    cases s.status with
    | halted => simp
    | faulted k ip => simp
    | running => cases decode s.config s.fetchCells <;> simp [eq_comm]

/-- No effect of an instruction changes the configuration or the image length. -/
theorem Effect.keeps_construction (h : Effect i s t) : t.config = s.config ∧ t.imageLen = s.imageLen := by
  cases h with
  | jump a | loop a | push _ _ a => cases a <;> simp
  | _ => simp

theorem exec_keeps_construction (h : exec i s = .next t) : t.config = s.config ∧ t.imageLen = s.imageLen := by
  rcases exec_canDo h with ⟨k, -, rfl⟩ | ⟨-, rfl⟩ | he
  · exact ⟨rfl, rfl⟩
  · exact ⟨rfl, rfl⟩
  · exact he.keeps_construction

theorem step_keeps_construction (h : step s = .next t) : t.config = s.config ∧ t.imageLen = s.imageLen := by
  obtain ⟨-, ⟨k, -, rfl⟩ | ⟨i, -, hi⟩⟩ := step_next.mp h
  · exact ⟨rfl, rfl⟩
  · exact exec_keeps_construction hi

end Step

/-- Settles O17: the sizes follow from the configuration and the image length. -/
theorem stepKeepsConstruction : Obligations.StepKeepsConstruction := by
  intro s t h
  obtain ⟨hc, hl⟩ := step_keeps_construction h
  exact ⟨hc, hl, fun n => size_congr n hc hl⟩

section Channel

variable {i : Instr} {s t : State}

/-- The instructions that send the host an event (44_io_halt.md R281, R282). -/
def sends (i : Instr) : Prop :=
  i = .output ∨ ∃ q r, i = .seek q r

theorem ne_input_of_silent (h : speaks i.form = false) : i ≠ .input := by
  rintro rfl; cases h

theorem not_sends_of_silent (h : speaks i.form = false) : ¬ sends i := by
  rintro (rfl | ⟨q, r, rfl⟩) <;> cases h

/-- An effect of an instruction that neither speaks with the host nor ends the run leaves the channel. -/
theorem Effect.channel_of_silent (h : Effect i s t) (hs : speaks i.form = false) : t.channel = s.channel := by
  cases h with
  | jump a | loop a | push _ _ a => cases a <;> simp
  | input _ _ is => exact absurd is (ne_input_of_silent hs)
  | send _ is => exact absurd is (not_sends_of_silent hs)
  | _ => simp

/-- All that an instruction can do to the channel: nothing, if it waits or does not speak with the host; else take one
answer, or send one event. -/
theorem exec_channel (h : exec i s = .next t) :
    ((s.waitsIn i ∨ i ≠ .input ∧ ¬ sends i) ∧ t.channel = s.channel) ∨
    (i = .input ∧ t.channel = { s.channel with answers := s.channel.answers.tail }) ∨
    (sends i ∧ s.hostHolds = false ∧ ∃ e, t.channel =
      { s.channel with sent := s.channel.sent ++ [e], returns := s.channel.returns.map (· - 1) }) := by
  rcases exec_canDo h with ⟨k, hs, rfl⟩ | ⟨hw, rfl⟩ | he
  · exact .inl ⟨.inr ⟨ne_input_of_silent hs, not_sends_of_silent hs⟩, rfl⟩
  · exact .inl ⟨.inl hw, rfl⟩
  · cases hs : speaks i.form with
    | false => exact .inl ⟨.inr ⟨ne_input_of_silent hs, not_sends_of_silent hs⟩, he.channel_of_silent hs⟩
    | true =>
      cases he with
      | input v b is => exact .inr (.inl ⟨is, by simp⟩)
      | send e is free => exact .inr (.inr ⟨is, free, e, by simp⟩)
      | halt is =>
        subst is
        exact .inl ⟨.inr ⟨by simp, by simp [sends]⟩, rfl⟩
      | _ => simp_all

theorem waitsIn_iff_of_sends (h : sends i) : s.waitsIn i ↔ s.channel.returns = some 0 := by
  rcases h with rfl | ⟨q, r, rfl⟩ <;> exact hostHolds_iff

theorem not_sends_input : ¬ sends .input := by
  simp [sends]

/-- `in` takes the oldest answer, if there is one. -/
theorem exec_input_channel (h : exec .input s = .next t) :
    t.channel = { s.channel with answers := s.channel.answers.tail } := by
  rcases exec_channel h with ⟨hw | ⟨hi, -⟩, ht⟩ | ⟨-, ht⟩ | ⟨hs, -⟩
  · have hnil : s.channel.answers = [] := hw
    rw [ht, hnil, List.tail_nil, ← hnil]
  · exact absurd rfl hi
  · exact ht
  · exact absurd hs not_sends_input

/-- A sender leaves the channel while the host holds it, and else sends one event. -/
theorem exec_sends_channel (hi : sends i) (h : exec i s = .next t) :
    (s.channel.returns = some 0 ∧ t.channel = s.channel) ∨
    (s.channel.returns ≠ some 0 ∧ ∃ e, t.channel =
      { s.channel with sent := s.channel.sent ++ [e], returns := s.channel.returns.map (· - 1) }) := by
  rcases exec_channel h with ⟨hw | ⟨-, hn⟩, ht⟩ | ⟨rfl, -⟩ | ⟨-, hfree, he⟩
  · exact .inl ⟨(waitsIn_iff_of_sends hi).mp hw, ht⟩
  · exact absurd hi hn
  · exact absurd hi not_sends_input
  · exact .inr ⟨fun hr => by simp [hostHolds_iff.mpr hr] at hfree, he⟩

end Channel

/-- Settles O25, by the three things an instruction can do to the channel. -/
theorem channelFrame : Obligations.ChannelFrame := by
  intro i s t h
  refine ⟨?_, fun hin => ?_, ?_, fun ho hk => ?_, fun hi => ?_⟩
  · rcases exec_channel h with ⟨-, ht⟩ | ⟨-, ht⟩ | ⟨-, -, e, ht⟩ <;> rw [ht]
  · rcases exec_channel h with ⟨-, ht⟩ | ⟨rfl, -⟩ | ⟨-, -, e, ht⟩
    · rw [ht]
    · exact absurd rfl hin
    · rw [ht]
  · rintro rfl
    rw [exec_input_channel h]
  · rcases exec_channel h with ⟨-, ht⟩ | ⟨-, ht⟩ | ⟨rfl | ⟨q, r, rfl⟩, -⟩
    · simp [ht]
    · simp [ht]
    · exact absurd rfl ho
    · exact absurd rfl (hk q r)
  · rcases exec_sends_channel hi h with ⟨hr, ht⟩ | ⟨hr, e, ht⟩
    · rwa [if_pos hr]
    · rw [if_neg hr, ht]
      exact ⟨rfl, e, rfl⟩

end Sys2Proof.Machine
end

section
/-! The ALU's signed division (41_alu.md R163 to R165, R167; 00_scope.md R14). -/

namespace Sys2Proof.Machine

/-- A quotient and a remainder below the divisor that does not have the sign opposite to the dividend's are those of
truncated division. -/
theorem tdiv_tmod_of_truncated {a b q r : Int} (hb : b ≠ 0) (ha : a = b * q + r) (hr : |r| < |b|)
    (hs : 0 ≤ r * a) : a.tdiv b = q ∧ a.tmod b = r := by
  have hn : |b| = b.natAbs := Int.abs_eq_natAbs b
  obtain ⟨hlo, hhi⟩ := abs_lt.mp hr
  rcases lt_trichotomy a 0 with hneg | hzero | hpos
  · have : r ≤ 0 := nonpos_of_mul_nonneg_left hs hneg
    exact (Int.tdiv_tmod_unique' hneg.le hb).mpr ⟨by omega, by omega, this⟩
  · have hdvd : |b| ∣ r := (abs_dvd b r).mpr ⟨-q, by rw [mul_neg]; omega⟩
    have : r = 0 := Int.eq_zero_of_abs_lt_dvd hdvd hr
    exact (Int.tdiv_tmod_unique hzero.ge hb).mpr ⟨by omega, by omega, by omega⟩
  · have : 0 ≤ r := nonneg_of_mul_nonneg_left hs hpos
    exact (Int.tdiv_tmod_unique hpos.le hb).mpr ⟨by omega, this, by omega⟩

theorem compute_div {w a b : Nat} (hb : b ≠ 0) : AluOp.div.compute w a b = .ok
    { value := ofInt w ((signed w a).tdiv (signed w b))
      carry := false
      overflow := decide (signed w a = minSigned w ∧ signed w b = -1) } :=
  if_neg hb

theorem compute_mod {w a b : Nat} (hb : b ≠ 0) : AluOp.mod.compute w a b = .ok
    { value := ofInt w ((signed w a).tmod (signed w b)), carry := false, overflow := false } :=
  if_neg hb

/-- Settles O34: truncated division is the only one with the remainder the rule describes. -/
theorem divisionTruncatesTowardZero : Obligations.DivisionTruncatesTowardZero := by
  intro w a b q r _ _ _ hb ha hr hs
  have hb' : signed w b ≠ 0 := abs_pos.mp ((abs_nonneg r).trans_lt hr)
  obtain ⟨hq, hm⟩ := tdiv_tmod_of_truncated hb' ha hr hs
  exact ⟨⟨_, compute_div hb, congrArg (ofInt w) hq, rfl⟩, ⟨_, compute_mod hb, congrArg (ofInt w) hm, rfl, rfl⟩⟩

end Sys2Proof.Machine
end

section
/-! The invariant, operation by operation: a register write, a store and what passes between block and host keep it, so every
effect of an instruction does (10_state.md R30, R33, R41; 60_exceptions.md R302). -/

namespace Sys2Proof.Machine

/-- Two states with the same construction and the same arrays have the arrays' invariant together. -/
theorem State.ArraysInv.congr {s t : State} (h : s.ArraysInv) (hc : t.config = s.config)
    (hl : t.imageLen = s.imageLen) (ha : ∀ n, t.array n = s.array n) : t.ArraysInv :=
  ⟨fun n => ha n ▸ h.canonical n, fun n => by rw [ha, ownSize_congr n hc hl, hc]; exact h.cells n⟩

/-- A store in bounds keeps the arrays' invariant: `pack` gives cells below 2^CB. -/
theorem State.ArraysInv.store {s : State} (h : s.ArraysInv) {n : Space} {a k : Nat} (v : Nat)
    (hf : a + k ≤ s.size n) : (s.store n a k v).ArraysInv :=
  h.setBacking (Memory.wf_setCells _ _ (h.backing_wf n))
    (Memory.fits_setCells (h.backing_fits n) (by simpa using hf) fun _ => mem_pack_lt)

/-- No register of an admissible configuration is narrower than a cell. -/
theorem cellBits_le_regBits {c : Config} (h : c.admissible = true) (r : Reg) : c.cellBits ≤ c.regBits r := by
  obtain ⟨-, -, hword, haddr, -⟩ := of_decide_eq_true h
  cases r with
  | ip | sp => exact Nat.le_mul_of_pos_left _ haddr
  | a | b | c | f => exact Nat.le_mul_of_pos_left _ hword

/-- The four flag positions of an admissible configuration are distinct bits of F (10_state.md R36). -/
theorem flagPos_of_admissible {c : Config} (h : c.admissible = true) :
    [c.flagPos.z, c.flagPos.c, c.flagPos.s, c.flagPos.o].Nodup ∧ c.flagPos.z < c.wordBits ∧
      c.flagPos.c < c.wordBits ∧ c.flagPos.s < c.wordBits ∧ c.flagPos.o < c.wordBits := by
  obtain ⟨-, -, -, -, -, -, -, -, hpos⟩ := of_decide_eq_true h
  exact hpos

/-- What the invariant says of a state but for its fault record. -/
structure State.Valid (s : State) : Prop where
  admissible : s.config.admissible = true
  registers : ∀ r, s.reg r < 2 ^ s.config.regBits r
  stackPointer : s.sp ≤ s.size .stack
  arrays : s.ArraysInv

theorem inv_iff {s : State} : s.Inv ↔ s.Valid ∧ ∀ k p, s.status = .faulted k p → p = s.ip :=
  ⟨fun ⟨ha, hr, hsp, hw, hf, hrec⟩ => ⟨⟨ha, hr, hsp, hw, hf⟩, hrec⟩,
    fun ⟨⟨ha, hr, hsp, hw, hf⟩, hrec⟩ => ⟨ha, hr, hsp, hw, hf, hrec⟩⟩

namespace State.Valid

variable {s : State}

theorem putReg (h : s.Valid) {r : Reg} {v : Nat} (hv : v < 2 ^ s.config.regBits r)
    (hsp : r = .sp → v ≤ s.size .stack) : (s.putReg r v).Valid where
  admissible := by simpa using h.admissible
  registers q := by
    rw [putReg_config]
    by_cases hq : q = r
    · rwa [hq, putReg_reg]
    · rw [putReg_reg_of_ne s v hq]
      exact h.registers q
  stackPointer := by
    rw [putReg_size]
    by_cases hr : r = .sp
    · subst hr
      exact hsp rfl
    · have hkept : (s.putReg r v).reg .sp = s.reg .sp := putReg_reg_of_ne s v (Ne.symm hr)
      exact hkept.trans_le h.stackPointer
  arrays := h.arrays.congr (by simp) (by simp) (by simp)

/-- A write by RegWrite that is accepted. -/
theorem putMerged (h : s.Valid) {r : Reg} {tag : Tag} {v : Nat}
    (hsp : r = .sp → s.merged r tag v ≤ s.size .stack) : (s.putReg r (s.merged r tag v)).Valid :=
  h.putReg (merged_lt tag v (h.registers r) (cellBits_le_regBits h.admissible r)) hsp

theorem jump (h : s.Valid) (t : Nat) : (s.jump t).Valid :=
  h.putReg (r := .ip) (Nat.mod_lt _ (Nat.two_pow_pos _)) (by simp)

theorem advance (h : s.Valid) (f : Form) : (s.advance f).Valid :=
  h.jump _

theorem putStackPointer (h : s.Valid) {v : Nat} (hv : v < 2 ^ s.config.addrBits) (hsp : v ≤ s.size .stack) :
    { s with sp := v }.Valid :=
  h.putReg (r := .sp) hv fun _ => hsp

/-- SP may be lowered. -/
theorem lowerStackPointer (h : s.Valid) (k : Nat) : { s with sp := s.sp - k }.Valid :=
  h.putStackPointer ((Nat.sub_le _ _).trans_lt (h.registers .sp)) ((Nat.sub_le _ _).trans h.stackPointer)

theorem setFlags (h : s.Valid) (w : Nat) (r : AluResult) : (s.setFlags w r).Valid := by
  obtain ⟨-, hz, hc, hs, ho⟩ := flagPos_of_admissible h.admissible
  exact h.putReg (r := .f)
    (setBit_lt _ (setBit_lt _ (setBit_lt _ (setBit_lt _ (h.registers .f) hz) hs) hc) ho) (by simp)

theorem setCarry (h : s.Valid) (b : Bool) : (s.setCarry b).Valid := by
  obtain ⟨-, -, hc, -⟩ := flagPos_of_admissible h.admissible
  exact h.putReg (r := .f) (setBit_lt b (h.registers .f) hc) (by simp)

theorem store (h : s.Valid) {n : Space} {a k : Nat} (v : Nat) (hf : a + k ≤ s.size n) : (s.store n a k v).Valid where
  admissible := by simpa using h.admissible
  registers := by simpa using h.registers
  stackPointer := by simpa using h.stackPointer
  arrays := h.arrays.store v hf

/-- It says nothing of the status or the host. -/
theorem withHost (h : s.Valid) (st : Status) (ch : Channel) : { s with status := st, channel := ch }.Valid :=
  ⟨h.admissible, h.registers, h.stackPointer, h.arrays.congr rfl rfl fun n => by cases n <;> rfl⟩

theorem takeFault (h : s.Valid) (k : FaultKind) : (s.takeFault k).Valid :=
  h.withHost _ _

end State.Valid

section Step

variable {i : Instr} {s t : State}

/-- Every effect of an instruction is made of operations that keep what the invariant says but for the fault record. -/
theorem Effect.valid (h : Effect i s t) (hs : s.Valid) : t.Valid := by
  have hu := hs.advance i.form
  cases h with
  | write rd tag v _ _ _ _ _ ok => exact hu.putMerged (by simpa using ok)
  | alu rd tag r _ _ _ _ _ ok => exact (hu.putMerged (by simpa using ok)).setFlags _ _
  | compare tag r => exact hu.setFlags _ _
  | store a k v _ _ _ _ _ fits => exact hu.store v (by simpa using fits)
  | jump a =>
    cases a with
    | none => exact hu
    | some a => exact hu.jump a
  | loop a =>
    have hc := hu.putReg (r := .c) (ofInt_lt s.config.wordBits ((s.c : Int) - 1)) (by simp)
    cases a with
    | none => exact hc
    | some a => exact hc.jump a
  | push k v a _ _ _ _ _ fits =>
    have hst := hu.store (n := .stack) v (by simpa using fits)
    have hp := hst.putStackPointer (v := (s.sp + k) % 2 ^ s.config.addrBits)
      (by simpa using Nat.mod_lt _ (Nat.two_pow_pos _)) (by simpa using (Nat.mod_le _ _).trans fits)
    cases a with
    | none => exact hp
    | some a => exact hp.jump a
  | ret k a => exact (hu.lowerStackPointer k).jump a
  | pop rd k v _ _ _ _ _ _ ok =>
    exact (hu.lowerStackPointer k).putMerged fun hr => (ok hr).trans_eq (size_congr .stack rfl rfl)
  | input v b is =>
    subst is
    exact ((hu.putMerged (by simp)).setCarry b).withHost _ _
  | send e => exact hu.withHost _ _
  | halt is =>
    subst is
    exact hu.withHost _ _

theorem ne_halt_of_silent (h : speaks i.form = false) : i ≠ .halt := by
  rintro rfl
  cases h

/-- An effect leaves the status as it is, but for that of `halt`. -/
theorem Effect.status_eq (h : Effect i s t) : t.status = if i = .halt then .halted else s.status := by
  cases h with
  | halt is => rw [if_pos is]
  | input v b is => rw [if_neg (by simp [is])]; simp
  | send e is => rw [if_neg (by rcases is with rfl | ⟨q, r, rfl⟩ <;> simp)]; simp
  | jump a _ _ _ _ host | loop a _ _ _ _ host | push _ _ a _ _ _ _ host =>
    rw [if_neg (ne_halt_of_silent host)]
    cases a <;> simp
  | _ => rw [if_neg (ne_halt_of_silent ‹_›)]; simp

theorem takeFault_inv (hs : s.Inv) (k : FaultKind) : (s.takeFault k).Inv := by
  obtain ⟨hv, -⟩ := inv_iff.mp hs
  refine inv_iff.mpr ⟨hv.takeFault k, fun k' p h => ?_⟩
  rw [takeFault_status] at h
  cases h
  rfl

theorem exec_keeps_inv (hs : s.Inv) (hr : s.status = .running) (h : exec i s = .next t) : t.Inv := by
  rcases exec_canDo h with ⟨k, -, rfl⟩ | ⟨-, rfl⟩ | he
  · exact takeFault_inv hs k
  · exact hs
  · obtain ⟨hv, -⟩ := inv_iff.mp hs
    refine inv_iff.mpr ⟨he.valid hv, fun k p hk => ?_⟩
    rw [he.status_eq, hr] at hk
    split at hk <;> cases hk

end Step

/-- Settles O13: the step takes a fault, waits, or has an effect; a step exists only while RUNNING, so the effect leaves no
fault record. -/
theorem stepKeepsInvariant : Obligations.StepKeepsInvariant := by
  intro s t hs h
  obtain ⟨⟨-, hr⟩, ⟨k, -, rfl⟩ | ⟨i, -, hi⟩⟩ := step_next.mp h
  · exact takeFault_inv hs k
  · exact exec_keeps_inv hs hr hi

section Halt

variable {i : Instr} {s t : State}

/-- From RUNNING, `halt` and no other instruction ends in HALTED. -/
theorem exec_halted_iff (hr : s.status = .running) (h : exec i s = .next t) : t.status = .halted ↔ i = .halt := by
  rcases exec_canDo h with ⟨k, hs, rfl⟩ | ⟨hw, rfl⟩ | he
  · simp [ne_halt_of_silent hs]
  · have hi : i ≠ .halt := by
      rintro rfl
      exact hw
    simp [hi, hr]
  · rw [he.status_eq]
    split <;> simp_all

theorem exec_halt : exec .halt s = .next { s with ip := s.ipNext .halt, status := .halted } :=
  rfl

end Halt

/-- Settles O19: a fault of the decoder leaves FAULTED, and of the instructions only `halt` leaves HALTED. -/
theorem onlyHaltHalts : Obligations.OnlyHaltHalts := by
  rintro s t ⟨-, hr⟩ h
  obtain ⟨-, ⟨k, hd, rfl⟩ | ⟨i, hd, hi⟩⟩ := step_next.mp h
  · simp [hd]
  · rw [exec_halted_iff hr hi, hd, Except.ok.injEq]
    refine ⟨Iff.rfl, ?_⟩
    rintro rfl
    rw [exec_halt] at hi
    cases hi
    rfl

/-- Settles O12: the step looks at the drop first, then at the status, and decodes only after both. -/
theorem finishedRunHasNoStep : Obligations.FinishedRunHasNoStep := by
  intro s
  refine ⟨fun hd => if_pos hd, fun hd hs => ?_, fun k p hd hs => ?_⟩
  · simp [step, hd, hs]
  · simp [step, hd, hs]

/-- The reset state is the machine constructed with the default configuration, no fill and no image. -/
theorem reset_eq_start : State.reset = State.start Config.default ResetFill.zero [] [] none :=
  rfl

/-- Settles O14: reset is a start. -/
theorem resetMeetsInvariant : Obligations.ResetMeetsInvariant := by
  have h : Config.default.admissible = true := by decide
  rw [Obligations.ResetMeetsInvariant, reset_eq_start]
  exact start_inv _ _ _ _ _ h

/-- Settles O15: before any fill every cell is 0. -/
theorem resetValues : Obligations.ResetValues :=
  ⟨rfl, rfl, rfl, rfl, rfl, rfl, rfl, blank_readCell Config.default ResetFill.zero [] none 0, rfl, rfl⟩

end Sys2Proof.Machine
end

section
/-! The register file and the flags: what RegRead, RegWrite and SetFlags do, and what every instruction leaves unchanged
(10_state.md R32 to R38; 41_alu.md R162, R166; 44_io_halt.md R280). -/

namespace Sys2Proof.Machine

/-- Settles O27: this is how RegRead is defined. -/
theorem registerReadTruncates : Obligations.RegisterReadTruncates :=
  fun _ _ => ⟨rfl, rfl, rfl⟩

theorem merged_byte (s : State) (r : Reg) (v : Nat) : s.merged r .byte v =
    2 ^ s.config.cellBits * (s.reg r / 2 ^ s.config.cellBits) + v % 2 ^ s.config.cellBits := by
  have hsplit := Nat.div_add_mod (s.reg r) (2 ^ s.config.cellBits)
  simp only [State.merged]
  omega

/-- A byte write puts the value's low cell into the register's. -/
theorem merged_byte_mod (s : State) (r : Reg) (v : Nat) :
    s.merged r .byte v % 2 ^ s.config.cellBits = v % 2 ^ s.config.cellBits := by
  rw [merged_byte, Nat.mul_add_mod, Nat.mod_mod]

/-- A byte write keeps the bits above the low cell. -/
theorem merged_byte_div (s : State) (r : Reg) (v : Nat) :
    s.merged r .byte v / 2 ^ s.config.cellBits = s.reg r / 2 ^ s.config.cellBits := by
  have hpos := Nat.two_pow_pos s.config.cellBits
  rw [merged_byte, Nat.mul_add_div hpos, Nat.div_eq_of_lt (Nat.mod_lt v hpos), Nat.add_zero]

/-- Settles O26: the value is `State.merged`, and the write is `State.putReg` or the fault. -/
theorem registerWriteRule : Obligations.RegisterWriteRule := by
  intro s r tag v low new
  have hnew : new = s.merged r tag v := by cases tag <;> rfl
  rw [hnew]
  refine ⟨fun hr hlt => regWrite_error.mpr ⟨rfl, hr, hlt⟩, fun hle => ⟨_, regWrite_ok.mpr ⟨hle, rfl⟩, ?_⟩⟩
  refine ⟨putReg_reg s r _, ?_, fun q hq => putReg_reg_of_ne s _ hq, ?_, by simp, by simp, by simp, by simp⟩
  · rintro rfl
    rw [putReg_reg]
    exact ⟨merged_byte_mod s r v, merged_byte_div s r v⟩
  · intro n b
    rw [State.readCell, putReg_backing, State.readCell]

section Flags

variable {i : Instr} {s t : State}

/-- SetFlags bit by bit, the last of its four writes first. -/
theorem testBit_setFlags (s : State) (w : Nat) (r : AluResult) (p : Nat) : (s.setFlags w r).f.testBit p =
    if p = s.config.flagPos.o then r.overflow
    else if p = s.config.flagPos.c then r.carry
    else if p = s.config.flagPos.s then r.value.testBit (w - 1)
    else if p = s.config.flagPos.z then r.value == 0
    else s.f.testBit p := by
  simp only [State.setFlags, testBit_setBit]

theorem testBit_setFlags_of_ne (w : Nat) (r : AluResult) {p : Nat} (hz : p ≠ s.config.flagPos.z)
    (hc : p ≠ s.config.flagPos.c) (hs : p ≠ s.config.flagPos.s) (ho : p ≠ s.config.flagPos.o) :
    (s.setFlags w r).f.testBit p = s.f.testBit p := by
  rw [testBit_setFlags, if_neg ho, if_neg hc, if_neg hs, if_neg hz]

/-- Settles O32: the four positions are distinct, so no write of a flag undoes another. -/
theorem flagUpdateWritesFourBits : Obligations.FlagUpdateWritesFourBits := by
  intro s w r ha t
  obtain ⟨hdistinct, -⟩ := flagPos_of_admissible ha
  simp only [List.nodup_cons, List.mem_cons, List.not_mem_nil, or_false, not_or] at hdistinct
  obtain ⟨⟨hzc, hzs, hzo⟩, ⟨hcs, hco⟩, hso, -⟩ := hdistinct
  refine ⟨?_, ?_, ?_, ?_, fun p hz hc hs ho => testBit_setFlags_of_ne w r hz hc hs ho, rfl⟩
  · exact (testBit_setFlags s w r s.config.flagPos.z).trans (by simp [hzc, hzs, hzo])
  · exact (testBit_setFlags s w r s.config.flagPos.s).trans (by simp [Ne.symm hcs, hso])
  · exact (testBit_setFlags s w r s.config.flagPos.c).trans (by simp [hco])
  · exact (testBit_setFlags s w r _).trans (if_pos rfl)

/-- A write of another register leaves F. -/
theorem putReg_f_of_ne (s : State) {r : Reg} (v : Nat) (h : r ≠ .f) : (s.putReg r v).f = s.f :=
  putReg_reg_of_ne s v (Ne.symm h)

/-- An ALU form leaves F or ends in SetFlags on the F it found, unless it is written to F itself. -/
theorem exec_alu_flags (hi : i.isAlu = true) (hd : i.dest ≠ some .f) (h : exec i s = .next t) :
    t.f = s.f ∨ ∃ w r, t.f = (s.setFlags w r).f := by
  rcases exec_canDo h with ⟨k, -, rfl⟩ | ⟨-, rfl⟩ | he
  · exact .inl rfl
  · exact .inl rfl
  · cases he with
    | alu rd tag r dest =>
      have hf : rd ≠ .f := fun hf => hd (hf ▸ dest)
      exact .inr ⟨s.config.bits tag, r, by simp [State.setFlags, putReg_f_of_ne _ _ hf]⟩
    | compare tag r => exact .inr ⟨s.config.bits tag, r, rfl⟩
    | input v b is | halt is => subst is; cases hi
    | send e is => rcases is with rfl | ⟨q, r, rfl⟩ <;> cases hi
    | _ => simp_all

/-- `in` waits, or writes A, F.C and IP and takes the answer. -/
theorem exec_input_next (h : exec .input s = .next t) : t = s ∨ ∃ v b,
    t = (((s.advance .input).putReg .a ((s.advance .input).merged .a .byte v)).setCarry b).takeAnswer := by
  rcases exec_canDo h with ⟨k, hs, -⟩ | ⟨-, rfl⟩ | he
  · cases hs
  · exact .inl rfl
  · cases he with
    | input v b => exact .inr ⟨v, b, rfl⟩
    | send e is => exact absurd is not_sends_input
    | halt is => cases is
    | write _ _ _ _ _ _ _ host | alu _ _ _ _ _ _ _ host | compare _ _ _ _ _ _ host | store _ _ _ _ _ _ _ host
    | jump _ _ _ _ _ host | loop _ _ _ _ _ host | push _ _ _ _ _ _ _ host | ret _ _ _ _ _ _ host
    | pop _ _ _ _ _ _ _ host => cases host

/-- Settles O23: an ALU form that does not name F ends in SetFlags on the old F, and `in` in a write of F.C. -/
theorem flagFrame : Obligations.FlagFrame := by
  intro s t p
  constructor
  · intro i hi hd h hz hc hs ho
    rcases exec_alu_flags hi hd h with hf | ⟨w, r, hf⟩ <;> rw [hf]
    exact testBit_setFlags_of_ne w r hz hc hs ho
  · intro h hc
    rcases exec_input_next h with rfl | ⟨v, b, rfl⟩
    · rfl
    · rw [takeAnswer_f, setCarry_f, testBit_setBit, putReg_config, advance_config, if_neg hc,
        putReg_f_of_ne _ _ (by decide), advance_f]

end Flags

section Frame

variable {i : Instr} {s t : State} {r : Reg}

/-- An effect writes IP, the named destination and the implicit registers, and no other. -/
theorem Effect.reg_of_unwritten (h : Effect i s t) (hip : r ≠ .ip) (hd : i.dest ≠ some r) (hi : r ∉ i.implicit) :
    t.reg r = s.reg r := by
  have hu := advance_reg_of_ne s i.form hip
  have hdest : ∀ {rd}, i.dest = some rd → r ≠ rd := fun he hr => hd (hr ▸ he)
  have himp : ∀ {q}, i.implicit = [q] → r ≠ q := fun he hr => hi (by simp [he, hr])
  cases h with
  | write rd tag v dest => rw [putReg_reg_of_ne _ _ (hdest dest), hu]
  | alu rd tag x dest implicit =>
    rw [setFlags_reg_of_ne _ _ _ (himp implicit), putReg_reg_of_ne _ _ (hdest dest), hu]
  | compare tag x dest implicit => rw [setFlags_reg_of_ne _ _ _ (himp implicit), hu]
  | store a k v => rw [store_reg, hu]
  | jump a =>
    cases a with
    | none => exact hu
    | some a => exact (jump_reg_of_ne _ a hip).trans hu
  | loop a dest implicit =>
    have hc := (putReg_reg_of_ne (s.advance i.form) (ofInt s.config.wordBits ((s.c : Int) - 1)) (himp implicit)).trans hu
    cases a with
    | none => exact hc
    | some a => exact (jump_reg_of_ne _ a hip).trans hc
  | push k v a dest implicit =>
    have hst := (store_reg (s.advance i.form) .stack s.sp k v r).trans hu
    have hp := (putReg_reg_of_ne ((s.advance i.form).store .stack s.sp k v)
      ((s.sp + k) % 2 ^ s.config.addrBits) (himp implicit)).trans hst
    cases a with
    | none => exact hp
    | some a => exact (jump_reg_of_ne _ a hip).trans hp
  | ret k a dest implicit =>
    have hp := (putReg_reg_of_ne (s.advance i.form) (s.sp - k) (himp implicit)).trans hu
    exact (jump_reg_of_ne _ a hip).trans hp
  | pop rd k v dest implicit =>
    have hp := (putReg_reg_of_ne (s.advance i.form) (s.sp - k) (himp implicit)).trans hu
    exact (putReg_reg_of_ne _ _ (hdest dest)).trans hp
  | input v b is =>
    subst is
    have ha : r ≠ .a := fun hr => hi (by simp [hr, Instr.implicit])
    have hf : r ≠ .f := fun hr => hi (by simp [hr, Instr.implicit])
    rw [takeAnswer_reg, setCarry_reg_of_ne _ _ hf, putReg_reg_of_ne _ _ ha]
    exact hu
  | send e => rw [send_reg, hu]
  | halt is =>
    subst is
    exact hu

/-- Settles O22: a fault and a wait leave every register, and an effect those it does not write. -/
theorem registerFrame : Obligations.RegisterFrame := by
  intro i s t r h hip hd hi
  rcases exec_canDo h with ⟨k, -, rfl⟩ | ⟨-, rfl⟩ | he
  · exact takeFault_reg s k r
  · rfl
  · exact he.reg_of_unwritten hip hd hi

end Frame

end Sys2Proof.Machine
end

section
/-! Writes of SP that are out of bounds: the state is the one before the instruction, with the fault record (10_state.md R33,
D16). -/

namespace Sys2Proof.Machine

/-- A body that raises is a fault of the instruction. -/
theorem faults_of_error {i : Instr} {s : State} {body : State → Except FaultKind State} {k : FaultKind}
    (hi : exec i s = s.run i.form body) (hk : body (s.advance i.form) = .error k) : faults i s k :=
  hi.trans (run_of_error hk)

/-- A move or a load to SP: the value once it is there, then the register write. -/
theorem trapsAtSp_of_write {i : Instr} {tag : Tag} {ready : State → Prop} {v : State → Nat}
    (x : State → Except FaultKind Nat) (hi : ∀ s, exec i s = s.run i.form fun u => x u >>= u.regWrite .sp tag)
    (hx : ∀ u, ready u → x u = .ok (v u)) : trapsAtSp i tag ready v :=
  fun s hready hlt => faults_of_error (hi s)
    (bind_eq_error.mpr (.inr ⟨_, hx _ hready, regWrite_error.mpr ⟨rfl, rfl, hlt⟩⟩))

theorem trapsAtSp_of_move {i : Instr} {tag : Tag} {v : State → Nat}
    (hi : ∀ s, exec i s = s.run i.form fun u => u.regWrite .sp tag (v u)) : trapsAtSp i tag (fun _ => True) v :=
  trapsAtSp_of_write (fun u => .ok (v u)) hi fun _ _ => rfl

/-- `getCells` shows what `readCell` shows, cell by cell. -/
theorem getCells_backing (s : State) (n : Space) (a k : Nat) :
    (s.backing n).getCells a k = (List.range k).map fun j => s.readCell n (a + j) := by
  refine List.ext_getElem? fun j => ?_
  by_cases hj : j < k
  · rw [Memory.getCells_getElem? _ _ _ _ hj]
    simp [hj, State.readCell]
  · rw [List.getElem?_eq_none (by simpa using hj), List.getElem?_eq_none (by simpa using hj)]

theorem memRead_of_fits {s : State} {n : Space} {a k : Nat} (h : a + k ≤ s.size n) :
    s.memRead n a k = .ok (s.cellsValue n a k) :=
  memRead_ok.mpr ⟨h, by rw [State.cellsValue, getCells_backing]⟩

theorem romRead_of_fits {s : State} {a k : Nat} (h : a + k ≤ s.size .program) :
    s.romRead a k true = .ok (s.cellsValue .program a k) :=
  romRead_ok.mpr ⟨h, by rw [State.cellsValue, getCells_backing]⟩

theorem trapsAtSp_of_load {i : Instr} {tag : Tag} {addr : State → Nat} {k : Config → Nat}
    (hi : ∀ s, exec i s =
      s.run i.form fun u => u.memRead .ram (addr u) (k u.config) >>= u.regWrite .sp tag) :
    trapsAtSp i tag (fun u => addr u + k u.config ≤ u.size .ram) (fun u => u.cellsValue .ram (addr u) (k u.config)) :=
  trapsAtSp_of_write _ hi fun _ => memRead_of_fits

/-- The operation yields the result `res` of two w-bit operands, the second of which `ok` admits. -/
def AluOp.Yields (op : AluOp) (ok : Nat → Prop) (res : Nat → Nat → Nat → Nat) : Prop :=
  ∀ w a b, a < 2 ^ w → ok b → ∃ r, op.compute w a b = .ok r ∧ r.value = res w a b

theorem yields_add : AluOp.add.Yields (fun _ => True) fun w a b => (a + b) % 2 ^ w :=
  fun _ _ _ _ _ => ⟨_, rfl, rfl⟩

theorem yields_sub : AluOp.sub.Yields (fun _ => True) fun w a b => ofInt w ((a : Int) - b) :=
  fun _ _ _ _ _ => ⟨_, rfl, rfl⟩

theorem yields_mul : AluOp.mul.Yields (fun _ => True) fun w a b => a * b % 2 ^ w :=
  fun _ _ _ _ _ => ⟨_, rfl, rfl⟩

theorem yields_div : AluOp.div.Yields (fun b => b ≠ 0) fun w a b => ofInt w ((signed w a).tdiv (signed w b)) :=
  fun _ _ _ _ hb => ⟨_, compute_div hb, rfl⟩

theorem yields_mod : AluOp.mod.Yields (fun b => b ≠ 0) fun w a b => ofInt w ((signed w a).tmod (signed w b)) :=
  fun _ _ _ _ hb => ⟨_, compute_mod hb, rfl⟩

theorem yields_and : AluOp.and.Yields (fun _ => True) fun _ a b => a &&& b :=
  fun _ _ _ _ _ => ⟨_, rfl, rfl⟩

theorem yields_or : AluOp.or.Yields (fun _ => True) fun _ a b => a ||| b :=
  fun _ _ _ _ _ => ⟨_, rfl, rfl⟩

theorem yields_xor : AluOp.xor.Yields (fun _ => True) fun _ a b => a ^^^ b :=
  fun _ _ _ _ _ => ⟨_, rfl, rfl⟩

/-- The capped count shifts left like the whole one: from w on, nothing is left below 2^w (log entry 12). -/
theorem shl_capped (w a b : Nat) : a * 2 ^ shiftCount w b % 2 ^ w = a * 2 ^ b % 2 ^ w := by
  rcases le_total b w with hb | hb
  · rw [shiftCount, Nat.min_eq_left hb]
  · have hdvd : ∀ {k}, w ≤ k → a * 2 ^ k % 2 ^ w = 0 := fun hk =>
      Nat.mod_eq_zero_of_dvd (dvd_mul_of_dvd_right (pow_dvd_pow 2 hk) a)
    rw [shiftCount, Nat.min_eq_right hb, hdvd le_rfl, hdvd hb]

/-- The capped count shifts a w-bit value right like the whole one: from w on, nothing is left (log entry 12). -/
theorem shr_capped {w a : Nat} (b : Nat) (ha : a < 2 ^ w) : a / 2 ^ shiftCount w b = a / 2 ^ b := by
  rcases le_total b w with hb | hb
  · rw [shiftCount, Nat.min_eq_left hb]
  · rw [shiftCount, Nat.min_eq_right hb, Nat.div_eq_of_lt ha,
      Nat.div_eq_of_lt (ha.trans_le (Nat.pow_le_pow_right (by decide) hb))]

theorem yields_shl : AluOp.shl.Yields (fun _ => True) fun w a b => a * 2 ^ b % 2 ^ w :=
  fun w a b _ _ => ⟨_, rfl, shl_capped w a b⟩

theorem yields_shr : AluOp.shr.Yields (fun _ => True) fun _ a b => a / 2 ^ b :=
  fun _ _ b ha _ => ⟨_, rfl, shr_capped b ha⟩

/-- The negation modulo 2^w, without a negative number in between. -/
theorem ofInt_neg {w a : Nat} (ha : a < 2 ^ w) : ofInt w (-(a : Int)) = (2 ^ w - a) % 2 ^ w := by
  rw [← ofInt_natCast, ofInt, ofInt, Nat.cast_sub ha.le, sub_eq_neg_add, Int.add_emod_right]

theorem regRead_lt (s : State) (r : Reg) (tag : Tag) : s.regRead r tag < 2 ^ s.config.bits tag :=
  Nat.mod_lt _ (Nat.two_pow_pos _)

theorem aluWrite_sp_error {s : State} {tag : Tag} {r : AluResult} (h : s.size .stack < s.merged .sp tag r.value) :
    s.aluWrite tag .sp r = .error .outOfBounds :=
  aluWrite_error.mpr ⟨rfl, rfl, h⟩

/-- The ALU form `i` faults where its result `res` would leave SP above size(stack), for the second operands `ok` admits. -/
def aluTrapsAtSp (i : Instr) (tag : Tag) (src : Source) (ok : Nat → Prop) (res : Nat → Nat → Nat → Nat) : Prop :=
  trapsAtSp i tag (fun u => ok (u.operand tag src))
    (fun u => res (u.config.bits tag) (u.regRead .sp tag) (u.operand tag src))

theorem aluTrapsAtSp_of_binary {i : Instr} {op : AluOp} {tag : Tag} {src : Source} {ok : Nat → Prop}
    {res : Nat → Nat → Nat → Nat} (hop : op.Yields ok res)
    (hi : ∀ s, exec i s = s.run i.form fun u => u.aluBinary op tag .sp src) : aluTrapsAtSp i tag src ok res := by
  intro s u hok hlt
  obtain ⟨r, hr, hval⟩ := hop _ _ _ (regRead_lt u .sp tag) hok
  exact faults_of_error (hi s) (aluBinary_error.mpr (.inr ⟨r, hr, aluWrite_sp_error (hval ▸ hlt)⟩))

/-- The four forms of an operation: at cell and at word width, with a register and with an immediate. -/
theorem aluTrapsAtSp_forms {r : Reg} {v : Nat} {breg wreg : Reg → Reg → Instr} {bimm wimm : Reg → Nat → Instr}
    {op : AluOp} {ok : Nat → Prop} {res : Nat → Nat → Nat → Nat} (hop : op.Yields ok res)
    (hbr : ∀ s, exec (breg .sp r) s = s.run (breg .sp r).form fun u => u.aluBinary op .byte .sp (.register r))
    (hbi : ∀ s, exec (bimm .sp v) s = s.run (bimm .sp v).form fun u => u.aluBinary op .byte .sp (.immediate v))
    (hwr : ∀ s, exec (wreg .sp r) s = s.run (wreg .sp r).form fun u => u.aluBinary op .word .sp (.register r))
    (hwi : ∀ s, exec (wimm .sp v) s = s.run (wimm .sp v).form fun u => u.aluBinary op .word .sp (.immediate v)) :
    aluTrapsAtSp (breg .sp r) .byte (.register r) ok res ∧ aluTrapsAtSp (bimm .sp v) .byte (.immediate v) ok res ∧
      aluTrapsAtSp (wreg .sp r) .word (.register r) ok res ∧ aluTrapsAtSp (wimm .sp v) .word (.immediate v) ok res :=
  ⟨aluTrapsAtSp_of_binary hop hbr, aluTrapsAtSp_of_binary hop hbi, aluTrapsAtSp_of_binary hop hwr,
    aluTrapsAtSp_of_binary hop hwi⟩

theorem aluTrapsAtSp_of_unary {i : Instr} {op : Nat → Nat → AluResult} {tag : Tag} {src : Source} {ok : Nat → Prop}
    {res : Nat → Nat → Nat → Nat} (hop : ∀ w a b, a < 2 ^ w → (op w a).value = res w a b)
    (hi : ∀ s, exec i s = s.run i.form fun u => u.aluUnary op tag .sp) : aluTrapsAtSp i tag src ok res := by
  intro s u _ hlt
  exact faults_of_error (hi s) (aluWrite_sp_error (hop _ _ _ (regRead_lt u .sp tag) ▸ hlt))

/-- Settles O55: each form is a register write of SP behind what computes its value, and that write is refused. -/
theorem stackPointerWriteFaults : Obligations.StackPointerWriteFaults := by
  intro r v _ _ there _ _ _ _
  refine ⟨⟨?_, ?_, ?_, ?_⟩, ⟨?_, ?_, ?_, ?_, ?_, ?_⟩, ?_, ?_, ?_, ?_, ?_, ?_, ?_, ?_, ?_, ?_, ?_, ?_, ?_, ?_⟩
  · exact trapsAtSp_of_move fun _ => rfl
  · exact trapsAtSp_of_move fun _ => rfl
  · exact trapsAtSp_of_move fun _ => rfl
  · exact trapsAtSp_of_move fun _ => rfl
  · exact trapsAtSp_of_load (addr := fun _ => v) (k := fun _ => 1) fun _ => rfl
  · exact trapsAtSp_of_load (addr := fun _ => v) (k := Config.wordCells) fun _ => rfl
  · exact trapsAtSp_of_load (addr := there) (k := fun _ => 1) fun _ => rfl
  · exact trapsAtSp_of_load (addr := there) (k := Config.wordCells) fun _ => rfl
  · exact trapsAtSp_of_load (addr := there) (k := Config.addrCells) fun _ => rfl
  · exact trapsAtSp_of_write (fun u => u.romRead (there u) 1 true) (fun _ => rfl) fun _ => romRead_of_fits
  · exact aluTrapsAtSp_forms yields_add (fun _ => rfl) (fun _ => rfl) (fun _ => rfl) fun _ => rfl
  · exact aluTrapsAtSp_forms yields_sub (fun _ => rfl) (fun _ => rfl) (fun _ => rfl) fun _ => rfl
  · exact aluTrapsAtSp_forms yields_mul (fun _ => rfl) (fun _ => rfl) (fun _ => rfl) fun _ => rfl
  · exact aluTrapsAtSp_forms yields_div (fun _ => rfl) (fun _ => rfl) (fun _ => rfl) fun _ => rfl
  · exact aluTrapsAtSp_forms yields_mod (fun _ => rfl) (fun _ => rfl) (fun _ => rfl) fun _ => rfl
  · exact aluTrapsAtSp_forms yields_and (fun _ => rfl) (fun _ => rfl) (fun _ => rfl) fun _ => rfl
  · exact aluTrapsAtSp_forms yields_or (fun _ => rfl) (fun _ => rfl) (fun _ => rfl) fun _ => rfl
  · exact aluTrapsAtSp_forms yields_xor (fun _ => rfl) (fun _ => rfl) (fun _ => rfl) fun _ => rfl
  · exact aluTrapsAtSp_forms yields_shl (fun _ => rfl) (fun _ => rfl) (fun _ => rfl) fun _ => rfl
  · exact aluTrapsAtSp_forms yields_shr (fun _ => rfl) (fun _ => rfl) (fun _ => rfl) fun _ => rfl
  · exact aluTrapsAtSp_of_unary (op := aluNot) (fun _ _ _ _ => rfl) fun _ => rfl
  · exact aluTrapsAtSp_of_unary (op := aluNot) (fun _ _ _ _ => rfl) fun _ => rfl
  · exact aluTrapsAtSp_of_unary (op := aluNeg) (fun _ _ _ => ofInt_neg) fun _ => rfl
  · exact aluTrapsAtSp_of_unary (op := aluNeg) (fun _ _ _ => ofInt_neg) fun _ => rfl

end Sys2Proof.Machine
end

section
/-! The endian codec: the cells of `pack` and the sum of `unpack`, in both byte orders (20_memory.md R60, R61). -/

namespace Sys2Proof

theorem pack_true (cb v n : Nat) : pack cb v n true = packLE cb v n := rfl

theorem pack_false (cb v n : Nat) : pack cb v n false = (packLE cb v n).reverse := rfl

theorem unpack_false (cb : Nat) (cells : List Nat) : unpack cb cells false = unpackLE cb cells.reverse := rfl

/-- Each cell carries its digit's weight. -/
theorem unpackLE_eq_sum (cb : Nat) (cells : List Nat) :
    unpackLE cb cells = ∑ i ∈ Finset.range cells.length, cells.getD i 0 * 2 ^ (i * cb) := by
  induction cells with
  | nil => rfl
  | cons x xs ih =>
    have hshift : ∀ i, (x :: xs).getD (i + 1) 0 * 2 ^ ((i + 1) * cb) = 2 ^ cb * (xs.getD i 0 * 2 ^ (i * cb)) :=
      fun i => by rw [List.getD_cons_succ]; ring
    simp only [unpackLE, ih, List.length_cons, Finset.sum_range_succ', hshift, Finset.mul_sum]
    simp [Nat.add_comm]

/-- The big-endian sum: the last cell has weight 1. -/
theorem unpack_false_eq_sum (cb : Nat) (cells : List Nat) : unpack cb cells false =
    ∑ i ∈ Finset.range cells.length, cells.getD i 0 * 2 ^ ((cells.length - 1 - i) * cb) := by
  rw [unpack_false, unpackLE_eq_sum, List.length_reverse, ← Finset.sum_range_reflect]
  refine Finset.sum_congr rfl fun i hi => ?_
  have hi : i < cells.length := Finset.mem_range.mp hi
  rw [List.getD_reverse _ (by omega)]
  congr 2
  omega

theorem pack_unpack {cb : Nat} {cells : List Nat} (le : Bool) (h : ∀ x ∈ cells, x < 2 ^ cb) :
    pack cb (unpack cb cells le) cells.length le = cells := by
  cases le with
  | true => exact packLE_unpackLE h
  | false =>
    have hrev := packLE_unpackLE (cb := cb) (xs := cells.reverse) fun x hx => h x (List.mem_reverse.mp hx)
    rw [List.length_reverse] at hrev
    rw [pack_false, unpack_false, hrev, List.reverse_reverse]

theorem unpack_pack (cb v n : Nat) (le : Bool) : unpack cb (pack cb v n le) le = v % 2 ^ (n * cb) := by
  cases le with
  | true => exact unpackLE_packLE cb v n
  | false => rw [pack_false, unpack_false, List.reverse_reverse, unpackLE_packLE]

/-- Settles O3: the little-endian sum by induction on the cells, the big-endian one by reflecting it. -/
theorem unpackInvertsPack : Obligations.UnpackInvertsPack := fun cb =>
  ⟨unpackLE_eq_sum cb, unpack_false_eq_sum cb, fun _ le h => ⟨unpack_lt le h, pack_unpack le h⟩, unpack_pack cb⟩

/-- Cell i of the little-endian layout is the i-th digit in base 2^CB. -/
theorem packLE_getElem? (cb v : Nat) {n i : Nat} (h : i < n) :
    (packLE cb v n)[i]? = some (v / 2 ^ (i * cb) % 2 ^ cb) := by
  induction n generalizing v i with
  | zero => omega
  | succ n ih =>
    cases i with
    | zero => simp [packLE]
    | succ i =>
      rw [packLE, List.getElem?_cons_succ, ih _ (by omega), Nat.div_div_eq_div_mul, ← pow_add]
      congr 5
      ring

/-- Big-endian, the same digits from the other end. -/
theorem pack_false_getElem? (cb v : Nat) {n i : Nat} (h : i < n) :
    (pack cb v n false)[i]? = some (v / 2 ^ ((n - i - 1) * cb) % 2 ^ cb) := by
  rw [pack_false, List.getElem?_reverse (by simpa using h), packLE_length, packLE_getElem? cb v (by omega),
    Nat.sub_right_comm]

/-- `pack` lays out no more than n·CB bits (20_memory.md R62). -/
theorem packLE_mod (cb v n : Nat) : packLE cb (v % 2 ^ (n * cb)) n = packLE cb v n := by
  have h := packLE_unpackLE (xs := packLE cb v n) fun _ => mem_packLE_lt
  rwa [unpackLE_packLE, packLE_length] at h

theorem pack_mod (cb v n : Nat) (le : Bool) : pack cb (v % 2 ^ (n * cb)) n le = pack cb v n le := by
  simp only [pack, packLE_mod]

/-- Settles O4: `pack` of v is `pack` of u, whose cells are its digits. -/
theorem packLaysOutCells : Obligations.PackLaysOutCells := by
  intro cb v n i h u
  rw [← pack_mod cb v n true, ← pack_mod cb v n false]
  exact ⟨packLE_getElem? cb u h, pack_false_getElem? cb u h, pack_length .., pack_length ..⟩

end Sys2Proof
end

section
/-! The address-space multiplexer: which names share an array, how large it is, and the checked accesses through a name
(20_memory.md R64 to R73). -/

namespace Sys2Proof

section Links

variable (ramProgram ramStack programStack : Bool)

theorem resolve_ram (m : MemMap) : m.resolve .ram = .ram := by
  cases m <;> rfl

/-- program shows ram's array when a link or two links through stack join them. -/
theorem resolve_ofLinks_program : (MemMap.ofLinks ramProgram ramStack programStack).resolve .program =
    if ramProgram || (ramStack && programStack) then .ram else .program := by
  cases ramProgram <;> cases ramStack <;> cases programStack <;> rfl

/-- stack shows ram's array when they are joined, else program's when those two are. -/
theorem resolve_ofLinks_stack : (MemMap.ofLinks ramProgram ramStack programStack).resolve .stack =
    if ramStack || (ramProgram && programStack) then .ram else if programStack then .program else .stack := by
  cases ramProgram <;> cases ramStack <;> cases programStack <;> rfl

variable {ramProgram ramStack programStack}

/-- Every equivalence that holds the links relates a name to the one whose array it shows. -/
theorem related_resolve_ofLinks {r : Space → Space → Prop} (hr : Equivalence r)
    (hrp : ramProgram = true → r .ram .program) (hrs : ramStack = true → r .ram .stack)
    (hps : programStack = true → r .program .stack) (n : Space) :
    r n ((MemMap.ofLinks ramProgram ramStack programStack).resolve n) := by
  cases n with
  | ram =>
    rw [resolve_ram]
    exact hr.refl _
  | program =>
    rw [resolve_ofLinks_program]
    split
    · rename_i h
      simp only [Bool.or_eq_true, Bool.and_eq_true] at h
      rcases h with h | ⟨h, h'⟩
      · exact hr.symm (hrp h)
      · exact hr.trans (hps h') (hr.symm (hrs h))
    · exact hr.refl _
  | stack =>
    rw [resolve_ofLinks_stack]
    split
    · rename_i h
      simp only [Bool.or_eq_true, Bool.and_eq_true] at h
      rcases h with h | ⟨h, h'⟩
      · exact hr.symm (hrs h)
      · exact hr.symm (hr.trans (hrp h) (hps h'))
    · split
      · exact hr.symm (hps ‹_›)
      · exact hr.refl _

end Links

section Directives

variable {ds : List (Space × Space)} {x y : Space}

theorem linked_iff : linked ds x y = true ↔ (x, y) ∈ ds ∨ (y, x) ∈ ds := by
  simp only [linked, List.any_eq_true, Bool.or_eq_true, beq_iff_eq]
  constructor
  · rintro ⟨d, hd, rfl | rfl⟩
    · exact .inl hd
    · exact .inr hd
  · rintro (h | h)
    · exact ⟨_, h, .inl rfl⟩
    · exact ⟨_, h, .inr rfl⟩

theorem linked_comm (h : linked ds x y = true) : linked ds y x = true :=
  linked_iff.mpr (linked_iff.mp h).symm

theorem eqvGen_of_linked (h : linked ds x y = true) : Relation.EqvGen (fun p q => (p, q) ∈ ds) x y := by
  rcases linked_iff.mp h with h | h
  · exact .rel x y h
  · exact .symm y x (.rel y x h)

/-- Names that a directive links share an array. -/
theorem resolve_eq_of_linked (h : linked ds x y = true) :
    (MemMap.ofDirectives ds).resolve x = (MemMap.ofDirectives ds).resolve y := by
  have hrp (h : linked ds .ram .program = true) :
      (MemMap.ofDirectives ds).resolve .ram = (MemMap.ofDirectives ds).resolve .program := by
    simp [MemMap.ofDirectives, resolve_ram, resolve_ofLinks_program, h]
  have hrs (h : linked ds .ram .stack = true) :
      (MemMap.ofDirectives ds).resolve .ram = (MemMap.ofDirectives ds).resolve .stack := by
    simp [MemMap.ofDirectives, resolve_ram, resolve_ofLinks_stack, h]
  have hps (h : linked ds .program .stack = true) :
      (MemMap.ofDirectives ds).resolve .program = (MemMap.ofDirectives ds).resolve .stack := by
    simp [MemMap.ofDirectives, resolve_ofLinks_program, resolve_ofLinks_stack, h, or_comm]
  match x, y with
  | .ram, .ram | .program, .program | .stack, .stack => rfl
  | .ram, .program => exact hrp h
  | .ram, .stack => exact hrs h
  | .program, .stack => exact hps h
  | .program, .ram => exact (hrp (linked_comm h)).symm
  | .stack, .ram => exact (hrs (linked_comm h)).symm
  | .stack, .program => exact (hps (linked_comm h)).symm

/-- The classes of the map are those of the closure of the directives (20_memory.md R65). -/
theorem resolve_ofDirectives_eq_iff : (MemMap.ofDirectives ds).resolve x = (MemMap.ofDirectives ds).resolve y ↔
    Relation.EqvGen (fun p q => (p, q) ∈ ds) x y := by
  constructor
  · intro h
    have hr := Relation.EqvGen.is_equivalence (fun p q => (p, q) ∈ ds)
    have hshows (n : Space) : Relation.EqvGen (fun p q => (p, q) ∈ ds) n ((MemMap.ofDirectives ds).resolve n) :=
      related_resolve_ofLinks hr eqvGen_of_linked eqvGen_of_linked eqvGen_of_linked n
    have hx := hshows x
    rw [h] at hx
    exact hr.trans hx (hr.symm (hshows y))
  · intro h
    induction h with
    | rel x y h => exact resolve_eq_of_linked (linked_iff.mpr (.inl h))
    | refl x => rfl
    | symm x y _ ih => exact ih.symm
    | trans x y z _ _ ih ih' => exact ih.trans ih'

end Directives

/-- Settles O30: every name is related to the one whose array it shows, and sharing an array is an equivalence that
holds the directives. -/
theorem aliasDirectivesClose : Obligations.AliasDirectivesClose :=
  ⟨fun _ _ _ => resolve_ofDirectives_eq_iff, rfl, rfl, rfl, rfl, rfl⟩

namespace Machine

/-- Some name asks for all that the array has. -/
theorem exists_size_eq_share (s : State) (n : Space) : ∃ m, s.size n = s.share n m := by
  have h : s.size n = s.share n .ram ∨ s.size n = s.share n .program ∨ s.size n = s.share n .stack := by
    unfold State.size
    omega
  rcases h with h | h | h <;> exact ⟨_, h⟩

/-- The size of a name is what some name of its array asks for: were it a share of 0 by a name of another array, its own
request would be 0 too. -/
theorem exists_size_eq_requested (s : State) (n : Space) :
    ∃ m, s.config.map.resolve m = s.config.map.resolve n ∧ s.size n = s.requested m := by
  obtain ⟨m, hm⟩ := exists_size_eq_share s n
  by_cases h : s.config.map.resolve m = s.config.map.resolve n
  · exact ⟨m, h, hm.trans (if_pos h)⟩
  · have hzero : s.size n = 0 := hm.trans (if_neg h)
    have hown := requested_le_size s n
    exact ⟨n, rfl, by omega⟩

/-- Settles O31: the names of an array have one size, and each asks for no more than its own. -/
theorem sizeIsLargestRequest : Obligations.SizeIsLargestRequest := fun s n =>
  ⟨fun m h => (requested_le_size s m).trans_eq (size_eq_of_resolve_eq s h), exists_size_eq_requested s n, rfl, rfl, rfl⟩

/-- Settles O29: each access checks its bounds, and a write first the name. -/
theorem accessesAreBoundsChecked : Obligations.AccessesAreBoundsChecked := fun _ _ _ _ _ _ =>
  ⟨fun h => memRead_error.mpr ⟨rfl, h⟩, fun h => romRead_error.mpr ⟨rfl, h⟩, memWrite_error.mpr (.inl ⟨rfl, rfl⟩),
    fun hn h => memWrite_error.mpr (.inr ⟨hn, h, rfl⟩), memRead_of_fits⟩

end Machine

end Sys2Proof
end

section
/-! Stores: what they show through every name, and which cells an instruction can change (20_memory.md R68 to R71,
R77). -/

namespace Sys2Proof.Machine

section Store

variable {s : State} {n m : Space} {a k v b : Nat}

/-- A store shows, through every name of its array, the array with the cells of the value, and nothing elsewhere. -/
theorem readCell_store : (s.store n a k v).readCell m b =
    if s.config.map.resolve m = s.config.map.resolve n then
      ((s.backing n).setCells a (pack s.config.cellBits v k true)).get b
    else s.readCell m b :=
  readCell_setBacking s n m _ b

theorem readCell_store_of_not_covers (h : ¬ s.covers n a k m b) : (s.store n a k v).readCell m b = s.readCell m b := by
  rw [readCell_store]
  split
  · rename_i hm
    have hb : b < a ∨ a + k ≤ b := by
      by_contra hb
      exact h ⟨hm, by omega, by omega⟩
    rw [Memory.get_setCells_outside _ _ (by simpa using hb), State.readCell, State.backing, State.backing, hm]
  · rfl

theorem readCell_store_of_resolve_ne (h : s.config.map.resolve m ≠ s.config.map.resolve n) :
    (s.store n a k v).readCell m b = s.readCell m b :=
  readCell_store_of_not_covers fun ⟨hm, _⟩ => h hm

theorem backing_store (h : s.config.map.resolve m = s.config.map.resolve n) :
    (s.store n a k v).backing m = (s.backing n).setCells a (pack s.config.cellBits v k true) := by
  rw [State.backing, store_config, h, State.store, State.setBacking, setArray_array]

/-- The j-th cell of a store is the j-th digit of the value. -/
theorem readCell_store_inside (hw : (s.backing n).wf = true) (h : s.config.map.resolve m = s.config.map.resolve n)
    {j : Nat} (hj : j < k) :
    (s.store n a k v).readCell m (a + j) = v / 2 ^ (j * s.config.cellBits) % 2 ^ s.config.cellBits := by
  rw [readCell_store, if_pos h, Memory.get_setCells_inside a hw (by simpa using hj), List.getD_eq_getElem?_getD,
    pack_true, packLE_getElem? _ _ hj, Option.getD_some]

/-- A store reads back through every name of its array (20_memory.md R77). -/
theorem memRead_store (hw : (s.backing n).wf = true) (hf : a + k ≤ s.size n)
    (h : s.config.map.resolve m = s.config.map.resolve n) :
    (s.store n a k v).memRead m a k = .ok (v % 2 ^ (k * s.config.cellBits)) := by
  have hcells := Memory.getCells_setCells_same a (pack s.config.cellBits v k true) hw
  rw [pack_length] at hcells
  refine memRead_ok.mpr ⟨?_, ?_⟩
  · rwa [store_size, size_eq_of_resolve_eq s h]
  · rw [backing_store h, hcells, store_config, unpack_pack]

end Store

/-- Settles O28: the invariant makes the array canonical, so a store reads back. -/
theorem storeThenLoad : Obligations.StoreThenLoad := by
  intro s n a k v hs hn hf
  have hw : (s.backing n).wf = true := hs.canonical _
  exact ⟨_, memWrite_ok.mpr ⟨hn, hf, rfl⟩,
    fun m hm => ⟨memRead_store hw hf hm, fun j hj => readCell_store_inside hw hm hj⟩,
    fun m b hc => readCell_store_of_not_covers hc⟩

section Frame

variable {i : Instr} {s t : State} {a k : Nat}

/-- Two states with the same configuration and the same arrays show the same cells. -/
theorem readCell_congr {s t : State} (hc : t.config = s.config) (ha : ∀ n, t.array n = s.array n) :
    t.readCell = s.readCell := by
  funext n b
  simp only [State.readCell, State.backing, hc, ha]

theorem readCell_advance (s : State) (f : Form) : (s.advance f).readCell = s.readCell :=
  readCell_congr rfl (advance_array s f)

/-- What an instruction does to the memory: nothing, or the store that `stores` names. -/
def WritesAsStored (i : Instr) (s t : State) : Prop :=
  t.readCell = s.readCell ∨ ∃ n a k v, stores i s = some (n, a, k) ∧ t.readCell = (s.store n a k v).readCell

/-- The store of an advanced state shows the same cells. -/
theorem readCell_advance_store (s : State) (f : Form) (n : Space) (a k v : Nat) :
    ((s.advance f).store n a k v).readCell = (s.store n a k v).readCell := by
  funext m b
  rw [readCell_store, readCell_store, readCell_advance, advance_config, advance_backing]

theorem Effect.writesAsStored (h : Effect i s t) : WritesAsStored i s t := by
  cases h with
  | write | alu | compare | send => exact .inl (readCell_congr (by simp) fun n => by simp)
  | store a k v _ _ _ stored => exact .inr ⟨_, a, k, v, stored, readCell_advance_store ..⟩
  | jump a | loop a => cases a <;> exact .inl (readCell_congr (by simp) fun n => by cases n <;> rfl)
  | push k v a _ _ _ stored =>
    refine .inr ⟨_, s.sp, k, v, stored, ?_⟩
    rw [← readCell_advance_store s i.form]
    cases a <;> exact readCell_congr rfl fun n => by cases n <;> rfl
  | ret | halt => exact .inl (readCell_congr rfl fun n => by cases n <;> rfl)
  | pop => exact .inl (readCell_congr (by simp) fun n => (putReg_array ..).trans (by cases n <;> rfl))
  | input v b => exact .inl (readCell_congr (by simp) fun n => by simp)

theorem exec_writesAsStored (h : exec i s = .next t) : WritesAsStored i s t := by
  rcases exec_canDo h with ⟨k, -, rfl⟩ | ⟨-, rfl⟩ | he
  · exact .inl (readCell_congr rfl fun n => takeFault_array s k n)
  · exact .inl rfl
  · exact he.writesAsStored

/-- Settles O24: the one store of an instruction leaves every cell that it does not cover. -/
theorem memoryFrame : Obligations.MemoryFrame := by
  intro i s t n b h hc
  rcases exec_writesAsStored h with hr | ⟨m, a, k, v, hm, hr⟩ <;> rw [hr]
  exact readCell_store_of_not_covers (hc m a k hm)

/-- Only the five stores store to ram (20_memory.md R70). -/
theorem stores_ram (h : stores i s = some (.ram, a, k)) :
    (∃ a r, i = .movbR2m a r) ∨ (∃ a r, i = .movwR2m a r) ∨ (∃ q r, i = .stb q r) ∨ (∃ q r, i = .stw q r) ∨
      ∃ q r, i = .sta q r := by
  cases i with
  | movbR2m | movwR2m | stb | stw | sta => simp
  | _ => cases h

/-- Only `push` and the calls store to the stack. -/
theorem stores_stack (h : stores i s = some (.stack, a, k)) :
    (∃ r, i = .push r) ∨ (∃ a, i = .call a) ∨ ∃ d, i = .callRel d := by
  cases i with
  | push | call | callRel => simp
  | _ => cases h

/-- No instruction stores through the name program (20_memory.md R70). -/
theorem stores_ne_program : stores i s ≠ some (.program, a, k) := by
  intro h
  cases i <;> cases h

end Frame

/-- Unaliased, a store to one name shows through no other. -/
theorem readCell_store_separate {s : State} (hmap : s.config.map = .separate) {n m : Space} (h : m ≠ n)
    (a k v b : Nat) : (s.store n a k v).readCell m b = s.readCell m b :=
  readCell_store_of_resolve_ne (by simpa [hmap, MemMap.resolve] using h)

/-- Settles O21: a changed cell is one of the space that the instruction stores to. -/
theorem spacesAreWrittenOnlyByTheirInstructions : Obligations.SpacesAreWrittenOnlyByTheirInstructions := by
  intro i s t b hmap h
  rcases exec_writesAsStored h with hr | ⟨n, a, k, v, hn, hr⟩ <;> rw [hr]
  · exact ⟨rfl, fun hne => absurd rfl hne, fun hne => absurd rfl hne⟩
  · refine ⟨readCell_store_separate hmap ?_ .., fun hne => ?_, fun hne => ?_⟩
    · rintro rfl
      exact stores_ne_program hn
    · by_cases hram : Space.ram = n
      · exact stores_ram (hram ▸ hn)
      · exact absurd (readCell_store_separate hmap hram ..) hne
    · by_cases hstack : Space.stack = n
      · exact stores_stack (hstack ▸ hn)
      · exact absurd (readCell_store_separate hmap hstack ..) hne

end Sys2Proof.Machine
end

section
/-! The faults of a memory access: a load or a store past the end of its space is out of bounds, and no step raises
READ_ONLY_WRITE (20_memory.md R68 to R72; 60_exceptions.md R301). -/

namespace Sys2Proof.Machine

section OutOfBounds

variable {i : Instr} {s : State} {addr k : State → Nat}

/-- A load whose cells do not all lie in ram. -/
theorem faults_of_load {rd : Reg} {tag : Tag}
    (hi : exec i s = s.run i.form fun u => u.memRead .ram (addr u) (k u) >>= u.regWrite rd tag)
    (h : s.size .ram < addr (s.advance i.form) + k (s.advance i.form)) : faults i s .outOfBounds :=
  faults_of_error hi (bind_eq_error.mpr (.inl (memRead_error.mpr ⟨rfl, by simpa using h⟩)))

/-- A store whose cells do not all lie in ram. -/
theorem faults_of_store {rs : Reg} {tag : Tag}
    (hi : exec i s = s.run i.form fun u => u.memWrite .ram (addr u) (k u) (u.regRead rs tag))
    (h : s.size .ram < addr (s.advance i.form) + k (s.advance i.form)) : faults i s .outOfBounds :=
  faults_of_error hi (memWrite_error.mpr (.inr ⟨by simp, by simpa using h, rfl⟩))

/-- A read past the end of the program space through the ROM port (20_memory.md R72). -/
theorem faults_of_romLoad {rd : Reg} {tag : Tag} {le : Bool}
    (hi : exec i s = s.run i.form fun u => u.romRead (addr u) (k u) le >>= u.regWrite rd tag)
    (h : s.size .program < addr (s.advance i.form) + k (s.advance i.form)) : faults i s .outOfBounds :=
  faults_of_error hi (bind_eq_error.mpr (.inl (romRead_error.mpr ⟨rfl, by simpa using h⟩)))

end OutOfBounds

/-- Settles O54: the access is the first thing each of these instructions does. -/
theorem memoryOperandFaults : Obligations.MemoryOperandFaults := by
  intro s r q addr there ram word address
  refine ⟨fun h => ⟨?_, ?_⟩, fun h => ⟨?_, ?_⟩, fun h => ?_, fun h => ?_, fun h => ?_, fun h => ?_, fun h => ?_,
    fun h => ?_, fun h => ?_⟩
  · exact faults_of_load (addr := fun _ => addr) (k := fun _ => 1) rfl h
  · exact faults_of_store (addr := fun _ => addr) (k := fun _ => 1) rfl h
  · exact faults_of_load (addr := fun _ => addr) (k := fun u => u.config.wordCells) rfl h
  · exact faults_of_store (addr := fun _ => addr) (k := fun u => u.config.wordCells) rfl h
  · exact faults_of_load (addr := fun u => u.addressIn q) (k := fun _ => 1) rfl h
  · exact faults_of_load (addr := fun u => u.addressIn q) (k := fun u => u.config.wordCells) rfl h
  · exact faults_of_load (addr := fun u => u.addressIn q) (k := fun u => u.config.addrCells) rfl h
  · exact faults_of_store (addr := fun u => u.addressIn q) (k := fun _ => 1) rfl h
  · exact faults_of_store (addr := fun u => u.addressIn q) (k := fun u => u.config.wordCells) rfl h
  · exact faults_of_store (addr := fun u => u.addressIn q) (k := fun u => u.config.addrCells) rfl h
  · exact faults_of_romLoad (addr := fun u => u.addressIn q) (k := fun _ => 1) rfl h

section ReadOnly

variable {s t : State}

/-- What the body of an instruction keeps to at the state `s`: it leaves the status to the step, and raises no
READ_ONLY_WRITE. -/
structure Orderly (s : State) (x : Except FaultKind State) : Prop where
  status : ∀ t, x = .ok t → t.status = s.status
  writable : x ≠ .error .readOnlyWrite

theorem orderly_ok (h : t.status = s.status) : Orderly s (.ok t) where
  status u hu := by cases hu; exact h
  writable := by simp

theorem orderly_bind {α : Type} {x : Except FaultKind α} {g : α → Except FaultKind State}
    (hx : x ≠ .error .readOnlyWrite) (hg : ∀ a, x = .ok a → Orderly s (g a)) : Orderly s (x >>= g) where
  status t ht := by
    obtain ⟨a, ha, ht⟩ := bind_eq_ok.mp ht
    exact (hg a ha).status t ht
  writable he := by
    rcases bind_eq_error.mp he with he | ⟨a, ha, he⟩
    · exact hx he
    · exact (hg a ha).writable he

theorem regWrite_orderly (s : State) (r : Reg) (tag : Tag) (v : Nat) : Orderly s (s.regWrite r tag v) where
  status t ht := by
    obtain ⟨-, rfl⟩ := regWrite_ok.mp ht
    simp
  writable := by simp [regWrite_error]

theorem load_orderly (s : State) (rd : Reg) (tag : Tag) (n : Space) (a k : Nat) :
    Orderly s (s.memRead n a k >>= s.regWrite rd tag) :=
  orderly_bind (by simp [memRead_error]) fun _ _ => regWrite_orderly ..

theorem romLoad_orderly (s : State) (rd : Reg) (tag : Tag) (a k : Nat) (le : Bool) :
    Orderly s (s.romRead a k le >>= s.regWrite rd tag) :=
  orderly_bind (by simp [romRead_error]) fun _ _ => regWrite_orderly ..

/-- READ_ONLY_WRITE belongs to the name program alone (20_memory.md R69). -/
theorem memWrite_orderly (s : State) {n : Space} (a k v : Nat) (hn : n ≠ .program) :
    Orderly s (s.memWrite n a k v) where
  status t ht := by
    obtain ⟨-, -, rfl⟩ := memWrite_ok.mp ht
    simp
  writable := by simp [memWrite_error, hn]

theorem aluWrite_orderly (s : State) (tag : Tag) (rd : Reg) (r : AluResult) : Orderly s (s.aluWrite tag rd r) where
  status t ht := by
    obtain ⟨-, rfl⟩ := aluWrite_ok.mp ht
    simp
  writable := by simp [aluWrite_error]

theorem aluBinary_orderly (s : State) (op : AluOp) (tag : Tag) (rd : Reg) (src : Source) :
    Orderly s (s.aluBinary op tag rd src) :=
  orderly_bind (by simp [compute_error]) fun _ _ => aluWrite_orderly ..

theorem aluCompare_orderly (s : State) (tag : Tag) (rd : Reg) (src : Source) :
    Orderly s (s.aluCompare tag rd src) :=
  orderly_bind (by simp [compute_error]) fun _ _ => orderly_ok rfl

theorem jumpIf_orderly (s : State) (cond : Condition) (a : Nat) : Orderly s (.ok (s.jumpIf cond a)) := by
  rcases jumpIf_cases s cond a with h | ⟨b, h⟩ <;> rw [h] <;> exact orderly_ok rfl

theorem loopTo_orderly (s : State) (a : Nat) : Orderly s (.ok (s.loopTo a)) := by
  refine orderly_ok ?_
  simp only [State.loopTo]
  split <;> rfl

theorem pushCells_orderly (s : State) (k v : Nat) : Orderly s (s.pushCells k v) where
  status t ht := by
    obtain ⟨-, rfl⟩ := pushCells_ok.mp ht
    simp
  writable := by simp [pushCells_error]

theorem callTo_orderly (s : State) (a : Nat) : Orderly s (s.callTo a) :=
  orderly_bind (pushCells_orderly ..).writable fun u hu => orderly_ok ((pushCells_orderly ..).status u hu)

/-- The cells popped go on to an orderly end. -/
theorem popCells_orderly {k : Nat} {g : Nat × State → Except FaultKind State} (hg : ∀ p, Orderly p.2 (g p)) :
    Orderly s (s.popCells k >>= g) := by
  refine orderly_bind (by simp [popCells_error]) fun ⟨v, u⟩ hu => ?_
  obtain ⟨-, -, -, rfl⟩ := popCells_ok.mp hu
  exact ⟨(hg _).status, (hg _).writable⟩

/-- An instruction that neither speaks with the host nor ends the run is the run of an orderly body. -/
theorem exec_eq_run {i : Instr} (h : speaks i.form = false) :
    ∃ body, (∀ s, exec i s = s.run i.form body) ∧ ∀ u, Orderly u (body u) := by
  cases i with
  | input | output | seek | halt => cases h
  | movbI2r | movwI2r | movbR2r | movwR2r =>
    simp only [exec]
    exact ⟨_, fun _ => rfl, fun _ => regWrite_orderly ..⟩
  | movbM2r | movwM2r | ldb | ldw | lda =>
    simp only [exec]
    exact ⟨_, fun _ => rfl, fun _ => load_orderly ..⟩
  | lpb =>
    simp only [exec]
    exact ⟨_, fun _ => rfl, fun _ => romLoad_orderly ..⟩
  | movbR2m | movwR2m | stb | stw | sta =>
    simp only [exec]
    exact ⟨_, fun _ => rfl, fun _ => memWrite_orderly _ _ _ _ (by decide)⟩
  | cmpBReg | cmpBImm | cmpWReg | cmpWImm =>
    simp only [exec]
    exact ⟨_, fun _ => rfl, fun _ => aluCompare_orderly ..⟩
  | notB | notW | negB | negW =>
    simp only [exec]
    exact ⟨_, fun _ => rfl, fun _ => aluWrite_orderly ..⟩
  | jmp | jmpRel =>
    simp only [exec]
    exact ⟨_, fun _ => rfl, fun _ => orderly_ok rfl⟩
  | je | jeRel | jne | jneRel | jb | jbRel | jbe | jbeRel | ja | jaRel | jae | jaeRel | jl | jlRel | jle | jleRel | jg
  | jgRel | jge | jgeRel =>
    simp only [exec]
    exact ⟨_, fun _ => rfl, fun _ => jumpIf_orderly ..⟩
  | loop | loopRel =>
    simp only [exec]
    exact ⟨_, fun _ => rfl, fun _ => loopTo_orderly ..⟩
  | call | callRel =>
    simp only [exec]
    exact ⟨_, fun _ => rfl, fun _ => callTo_orderly ..⟩
  | push =>
    simp only [exec]
    exact ⟨_, fun _ => rfl, fun _ => pushCells_orderly ..⟩
  | pop =>
    simp only [exec]
    exact ⟨_, fun _ => rfl, fun _ => popCells_orderly fun _ => regWrite_orderly ..⟩
  | ret =>
    simp only [exec]
    exact ⟨_, fun _ => rfl, fun _ => popCells_orderly fun _ => orderly_ok rfl⟩
  | _ =>
    simp only [exec]
    exact ⟨_, fun _ => rfl, fun _ => aluBinary_orderly ..⟩

/-- A running instruction does not end in READ_ONLY_WRITE. -/
theorem exec_status_ne_readOnly {i : Instr} {p : Nat} (hr : s.status = .running) (h : exec i s = .next t) :
    t.status ≠ .faulted .readOnlyWrite p := by
  cases hs : speaks i.form with
  | true =>
    rcases exec_canDo h with ⟨k, hs', -⟩ | ⟨-, rfl⟩ | he
    · simp [hs'] at hs
    · simp [hr]
    · rw [he.status_eq]
      split <;> simp [hr]
  | false =>
    obtain ⟨body, hbody, hord⟩ := exec_eq_run hs
    rcases run_next.mp (hbody s ▸ h) with hu | ⟨k, hk, rfl⟩
    · simp [(hord _).status t hu, hr]
    · rintro ⟨⟩
      exact (hord _).writable hk

theorem decodeOperands_ne_readOnly {c : Config} {le : Bool} {ks : List OperandClass} {cells : List Nat} :
    decodeOperands c le ks cells ≠ .error .readOnlyWrite := by
  induction ks generalizing cells with
  | nil => simp [decodeOperands]
  | cons k ks ih =>
    rw [decodeOperands]
    split
    · rename_i e he
      rcases decodeOperand_error.mp he with ⟨-, rfl⟩ | ⟨-, -, -, rfl⟩ <;> simp
    · split
      · rename_i e he
        rintro ⟨⟩
        exact ih he
      · simp

theorem decode_ne_readOnly {c : Config} {cells : List Nat} : decode c cells ≠ .error .readOnlyWrite := by
  intro h
  rcases decode_error.mp h with ⟨-, he⟩ | ⟨op, rest, -, ⟨-, he⟩ | ⟨f, -, he⟩⟩
  · cases he
  · cases he
  · exact decodeOperands_ne_readOnly he

end ReadOnly

/-- Settles O20: neither the decoder nor the instruction it answers raises the fault. -/
theorem readOnlyFaultIsNeverRaised : Obligations.ReadOnlyFaultIsNeverRaised := by
  rintro s t p ⟨-, hr⟩ h
  obtain ⟨-, ⟨k, hk, rfl⟩ | ⟨i, -, hi⟩⟩ := step_next.mp h
  · rintro ⟨⟩
    exact decode_ne_readOnly hk
  · exact exec_status_ne_readOnly hr hi

end Sys2Proof.Machine
end

section
/-! The encoder and the decoder are inverse to each other, operand by operand (30_encoding.md R90 to R95, R107). -/

namespace Sys2Proof

section Length

variable {c : Config}

/-- How many cells operands of the given classes take together (R93). -/
def operandLength (c : Config) (ks : List OperandClass) : Nat :=
  (ks.map (OperandClass.cells c)).sum

@[simp] theorem operandLength_nil : operandLength c [] = 0 := rfl

@[simp] theorem operandLength_cons (k : OperandClass) (ks : List OperandClass) :
    operandLength c (k :: ks) = k.cells c + operandLength c ks :=
  List.sum_cons

@[simp] theorem operandLength_append (ks ls : List OperandClass) :
    operandLength c (ks ++ ls) = operandLength c ks + operandLength c ls := by
  simp [operandLength]

theorem form_length (f : Form) : f.length c = 1 + operandLength c f.classes := rfl

theorem bits_pos_of_admissible (h : c.admissible = true) : 1 ≤ c.cellBits ∧ 1 ≤ c.wordCells ∧ 1 ≤ c.addrCells := by
  obtain ⟨hcb, -, hws, has, -⟩ := of_decide_eq_true h
  exact ⟨hcb, hws, has⟩

/-- The longest formats are those with a word or an address beside a register (R104's length column). -/
theorem form_length_le_longest (h : c.admissible = true) (f : Form) : f.length c ≤ c.longest := by
  obtain ⟨-, hws, -⟩ := bits_pos_of_admissible h
  rw [form_length, Form.classes, Config.longest]
  cases f.format <;> simp [Format.classes, OperandClass.cells] <;> omega

theorem encodeOperands_length (le : Bool) {ks : List OperandClass} {os : List Operand} (h : os.length = ks.length) :
    (encodeOperands c le ks os).length = operandLength c ks := by
  induction ks generalizing os with
  | nil => simp [encodeOperands]
  | cons k ks ih =>
    cases os with
    | nil => simp at h
    | cons o os => simp [encodeOperands, ih (Nat.succ.inj h)]

/-- Every instruction is its form and its operands, as many as the form has classes. -/
theorem instr_buildsBack (i : Instr) : Laws.BuildsBack.Statement i := by
  cases i <;> exact ⟨rfl, rfl⟩

theorem encode_length (i : Instr) : (encode c i).length = i.form.length c := by
  rw [encode, List.length_cons, encodeOperands_length _ (instr_buildsBack i).2, form_length, Nat.add_comm]

end Length

/-- Settles O5: each operand takes the cells of its class, and no format has more than a register and a word
or an address. -/
theorem encodedLengthIsFormLength : Obligations.EncodedLengthIsFormLength :=
  fun _ i => ⟨encode_length i, form_length_le_longest⟩

section RoundTrip

variable {c : Config} {le : Bool}

theorem encodeOperands_eq_flatMap (ks : List OperandClass) (os : List Operand) :
    encodeOperands c le ks os = (ks.zip os).flatMap fun p => pack c.cellBits (p.2.raw c) (p.1.cells c) le := by
  induction ks generalizing os with
  | nil => rfl
  | cons k ks ih =>
    cases os with
    | nil => rfl
    | cons o os => simp [encodeOperands, ih]

theorem addrBits_pos (h : c.admissible = true) : 1 ≤ c.addrBits := by
  obtain ⟨hcb, -, has⟩ := bits_pos_of_admissible h
  exact Nat.mul_pos has hcb

/-- The operand of class `k` that the raw value `v` is read as: what is left of R91 once the cells are assembled. -/
def OperandClass.reads (c : Config) (k : OperandClass) (v : Nat) (o : Operand) : Prop :=
  match k with
  | .r => ∃ r : Reg, v = r.id ∧ o = .reg r
  | .io => o = .off (signed c.addrBits v)
  | .ib | .iw | .ia => o = .imm v

/-- Reading a raw value that fits in the operand's cells is the inverse of encoding an operand in range. -/
theorem reads_iff (hc : c.admissible = true) {k : OperandClass} {v : Nat} {o : Operand} :
    v < 2 ^ (k.cells c * c.cellBits) ∧ k.reads c v o ↔ o.inRange c k = true ∧ v = o.raw c := by
  have haw := addrBits_pos hc
  cases k with
  | r =>
    simp only [OperandClass.cells, Nat.one_mul]
    constructor
    · rintro ⟨hv, r, rfl, rfl⟩
      exact ⟨decide_eq_true hv, rfl⟩
    · rintro ⟨ho, rfl⟩
      cases o with
      | reg r => exact ⟨of_decide_eq_true ho, r, rfl, rfl⟩
      | imm | off => cases ho
  | io =>
    constructor
    · rintro ⟨hv, rfl⟩
      exact ⟨decide_eq_true (signed_range haw hv), (ofInt_signed haw hv).symm⟩
    · rintro ⟨ho, rfl⟩
      cases o with
      | off d =>
        obtain ⟨hmin, hmax⟩ := of_decide_eq_true ho
        exact ⟨ofInt_lt _ _, congrArg Operand.off (signed_ofInt haw hmin hmax).symm⟩
      | reg | imm => cases ho
  | ib | iw | ia =>
    simp only [OperandClass.cells, Nat.one_mul]
    constructor
    · rintro ⟨hv, rfl⟩
      exact ⟨decide_eq_true hv, rfl⟩
    · rintro ⟨ho, rfl⟩
      cases o with
      | imm v => exact ⟨of_decide_eq_true ho, rfl⟩
      | reg | off => cases ho

theorem decodeOperand_iff_reads {k : OperandClass} {o : Operand} {cells rest : List Nat} :
    decodeOperand c le k cells = .ok (o, rest) ↔ k.cells c ≤ cells.length ∧ rest = cells.drop (k.cells c) ∧
      k.reads c (unpack c.cellBits (cells.take (k.cells c)) le) o :=
  decodeOperand_ok.trans (by cases k <;> exact Iff.rfl)

/-- An operand in range decodes from its own cells. -/
theorem decodeOperand_pack (hc : c.admissible = true) {k : OperandClass} {o : Operand} (ho : o.inRange c k = true)
    (rest : List Nat) :
    decodeOperand c le k (pack c.cellBits (o.raw c) (k.cells c) le ++ rest) = .ok (o, rest) := by
  obtain ⟨hlt, hreads⟩ := (reads_iff hc).mpr ⟨ho, rfl⟩
  refine decodeOperand_iff_reads.mpr ⟨by simp, (List.drop_left' (pack_length ..)).symm, ?_⟩
  rwa [List.take_left' (pack_length ..), unpack_pack, Nat.mod_eq_of_lt hlt]

/-- What decodes to an operand begins with that operand's cells. -/
theorem pack_of_decodeOperand (hc : c.admissible = true) {k : OperandClass} {o : Operand} {cells rest : List Nat}
    (hcells : ∀ x ∈ cells, x < 2 ^ c.cellBits) (h : decodeOperand c le k cells = .ok (o, rest)) :
    o.inRange c k = true ∧ cells = pack c.cellBits (o.raw c) (k.cells c) le ++ rest := by
  obtain ⟨hlen, rfl, hreads⟩ := decodeOperand_iff_reads.mp h
  have htake : (cells.take (k.cells c)).length = k.cells c := List.length_take_of_le hlen
  have hwidth : ∀ x ∈ cells.take (k.cells c), x < 2 ^ c.cellBits := fun x hx => hcells x (List.mem_of_mem_take hx)
  have hlt := htake ▸ unpack_lt le hwidth
  obtain ⟨ho, hraw⟩ := (reads_iff hc).mp ⟨hlt, hreads⟩
  have hpack := pack_unpack le hwidth
  rw [htake, hraw] at hpack
  exact ⟨ho, by rw [hpack, List.take_append_drop]⟩

theorem operandsInRange_cons {k : OperandClass} {ks : List OperandClass} {o : Operand} {os : List Operand} :
    operandsInRange c (k :: ks) (o :: os) = true ↔ o.inRange c k = true ∧ operandsInRange c ks os = true :=
  Bool.and_eq_true_iff

/-- Operands in range decode from their own cells, whatever follows. -/
theorem decodeOperands_encodeOperands (hc : c.admissible = true) {ks : List OperandClass} {os : List Operand}
    (h : operandsInRange c ks os = true) (rest : List Nat) :
    decodeOperands c le ks (encodeOperands c le ks os ++ rest) = .ok os := by
  induction ks generalizing os with
  | nil =>
    cases os with
    | nil => rfl
    | cons => cases h
  | cons k ks ih =>
    cases os with
    | nil => cases h
    | cons o os =>
      obtain ⟨ho, hos⟩ := operandsInRange_cons.mp h
      rw [encodeOperands, List.append_assoc]
      exact decodeOperands_cons.mpr ⟨o, _, os, decodeOperand_pack hc ho _, ih hos, rfl⟩

/-- What decodes to operands begins with the operands' cells, and they are in range. -/
theorem encodeOperands_of_decodeOperands (hc : c.admissible = true) {ks : List OperandClass} {os : List Operand}
    {cells : List Nat} (hcells : ∀ x ∈ cells, x < 2 ^ c.cellBits) (h : decodeOperands c le ks cells = .ok os) :
    operandsInRange c ks os = true ∧ ∃ rest, cells = encodeOperands c le ks os ++ rest := by
  induction ks generalizing os cells with
  | nil =>
    obtain rfl := decodeOperands_nil.mp h
    exact ⟨rfl, cells, rfl⟩
  | cons k ks ih =>
    obtain ⟨o, tail, ps, ho, hps, rfl⟩ := decodeOperands_cons.mp h
    obtain ⟨hrange, rfl⟩ := pack_of_decodeOperand hc hcells ho
    obtain ⟨hranges, rest, rfl⟩ := ih (fun x hx => hcells x (List.mem_append_right _ hx)) hps
    exact ⟨operandsInRange_cons.mpr ⟨hrange, hranges⟩, rest, by rw [encodeOperands, List.append_assoc]⟩

theorem wellFormed_iff {i : Instr} : i.wellFormed c = true ↔
    c.opcode i.form < 2 ^ c.cellBits ∧ operandsInRange c i.form.classes i.operands = true := by
  rw [Instr.wellFormed, Bool.and_eq_true, decide_eq_true_iff]

/-- A well-formed instruction decodes from its encoding, whatever follows. -/
theorem decode_encode_append (hc : c.admissible = true) {i : Instr} (h : i.wellFormed c = true) (rest : List Nat) :
    decode c (encode c i ++ rest) = .ok i :=
  decode_ok.mpr ⟨c.opcode i.form, _, rfl, formOf_opcode hc _,
    decodeOperands_encodeOperands hc (wellFormed_iff.mp h).2 rest, (instr_buildsBack i).1⟩

/-- What decodes to an instruction begins with its encoding, and the instruction is well formed. -/
theorem encode_of_decode (hc : c.admissible = true) {i : Instr} {cells : List Nat}
    (hcells : ∀ x ∈ cells, x < 2 ^ c.cellBits) (h : decode c cells = .ok i) :
    i.wellFormed c = true ∧ ∃ rest, cells = encode c i ++ rest := by
  obtain ⟨op, tail, rfl, hform, hos, -⟩ := decode_ok.mp h
  obtain rfl := opcode_of_formOf hc hform
  obtain ⟨hop, htail⟩ := List.forall_mem_cons.mp hcells
  obtain ⟨hrange, rest, rfl⟩ := encodeOperands_of_decodeOperands hc htail hos
  exact ⟨wellFormed_iff.mpr ⟨hop, hrange⟩, rest, rfl⟩

end RoundTrip

/-- Settles O1: the form from its opcode, then each operand from its own cells. -/
theorem encodeThenDecode : Obligations.EncodeThenDecode := fun _ _ rest hc hi =>
  ⟨congrArg _ (encodeOperands_eq_flatMap ..), decode_encode_append hc hi rest⟩

/-- Settles O2: the encoding is the part of the cells that the form's length says. -/
theorem decodeThenEncode : Obligations.DecodeThenEncode := by
  intro c cells i hc hcells h
  obtain ⟨hi, rest, rfl⟩ := encode_of_decode hc hcells h
  rw [List.length_append, encode_length, List.take_left' (encode_length i)]
  exact ⟨hi, Nat.le_add_right .., rfl⟩

/-- Settles O6: each word is encoded and decoded as it stands. -/
theorem wordsFromTheTable : Obligations.WordsFromTheTable := by
  unfold Obligations.WordsFromTheTable
  decide

end Sys2Proof
end

section
/-! The fetch: what the decoder reads at IP, the step it leads to, and the faults in stream order (30_encoding.md R96 to R101;
60_exceptions.md R304; 70_reset_and_hazards.md R333). -/

namespace Sys2Proof

section DecodeFaults

variable {c : Config} {le : Bool}

theorem cells_pos (h : c.admissible = true) (k : OperandClass) : 1 ≤ k.cells c := by
  obtain ⟨-, hws, has⟩ := bits_pos_of_admissible h
  cases k with
  | r | ib => exact le_rfl
  | iw => exact hws
  | ia | io => exact has

@[simp] theorem unpack_singleton (cb v : Nat) : unpack cb [v] le = v := by
  cases le <;> rfl

/-- A failing check behind operands that decode is the one raised: the operands are checked in stream order (R99, D26). -/
theorem decodeOperands_append_error {pre ks : List OperandClass} {os : List Operand} {cells : List Nat} {e : FaultKind}
    (hpre : decodeOperands c le pre cells = .ok os)
    (hks : decodeOperands c le ks (cells.drop (operandLength c pre)) = .error e) :
    decodeOperands c le (pre ++ ks) cells = .error e := by
  induction pre generalizing os cells with
  | nil => exact hks
  | cons k pre ih =>
    obtain ⟨o, rest, ps, ho, hps, -⟩ := decodeOperands_cons.mp hpre
    obtain ⟨-, rfl, -⟩ := decodeOperand_iff_reads.mp ho
    rw [operandLength_cons, ← List.drop_drop] at hks
    simp only [List.cons_append, decodeOperands, ho, ih hps hks]

theorem decodeOperands_cons_error {k : OperandClass} {cells : List Nat} {e : FaultKind}
    (h : decodeOperand c le k cells = .error e) (ks : List OperandClass) :
    decodeOperands c le (k :: ks) cells = .error e := by
  simp only [decodeOperands, h]

end DecodeFaults

namespace Machine

section Fetch

variable {s : State}

theorem step_of_decode_ok (h : s.live) {i : Instr} (hi : decode s.config s.fetchCells = .ok i) : step s = exec i s := by
  obtain ⟨hdropped, hstatus⟩ := h
  simp [step, hdropped, hstatus, hi]

theorem step_of_decode_error (h : s.live) {k : FaultKind} (hk : decode s.config s.fetchCells = .error k) :
    step s = .next (s.takeFault k) :=
  step_next.mpr ⟨h, .inl ⟨k, hk, rfl⟩⟩

theorem fetchCells_of_past_end (h : s.size .program ≤ s.ip) : s.fetchCells = [] := by
  rw [State.fetchCells, Nat.sub_eq_zero_of_le h, Nat.min_zero]
  rfl

/-- The cells the decoder reads after the opcode cell. -/
def State.operandCells (s : State) : List Nat :=
  (s.backing .program).getCells (s.ip + 1) (min (s.config.longest - 1) (s.size .program - (s.ip + 1)))

theorem operandCells_length :
    s.operandCells.length = min (s.config.longest - 1) (s.size .program - (s.ip + 1)) :=
  Memory.getCells_length ..

theorem operandCells_getElem {k : Nat} (h : k < s.operandCells.length) :
    s.operandCells[k] = s.readCell .program (s.ip + 1 + k) :=
  List.getElem_eq_iff h |>.mpr (Memory.getCells_getElem? _ _ _ _ (operandCells_length ▸ h))

theorem fetchCells_eq_cons (h : s.ip < s.size .program) :
    s.fetchCells = s.readCell .program s.ip :: s.operandCells := by
  have hcount : min s.config.longest (s.size .program - s.ip) =
      min (s.config.longest - 1) (s.size .program - (s.ip + 1)) + 1 := by
    rw [Config.longest]
    omega
  rw [State.fetchCells, hcount]
  rfl

/-- Cells that stand in the program from IP on, as many as the decoder reads or fewer, are the first it reads. -/
theorem fetchCells_eq_append {cells : List Nat} (hlen : cells.length ≤ s.config.longest)
    (hfit : s.ip + cells.length ≤ s.size .program)
    (h : ∀ k, k < cells.length → s.readCell .program (s.ip + k) = cells.getD k 0) :
    s.fetchCells = cells ++ s.fetchCells.drop cells.length := by
  have hcount : cells.length ≤ min s.config.longest (s.size .program - s.ip) := by omega
  have htake : s.fetchCells.take cells.length = cells := by
    rw [State.fetchCells, getCells_backing, ← List.map_take, List.take_range, Nat.min_eq_left hcount]
    refine List.ext_getElem (by simp) fun k _ hk => ?_
    rw [List.getElem_map, List.getElem_range, h k hk, List.getD_eq_getElem _ _ hk]
  calc s.fetchCells = s.fetchCells.take cells.length ++ s.fetchCells.drop cells.length := (List.take_append_drop ..).symm
    _ = cells ++ s.fetchCells.drop cells.length := by rw [htake]

end Fetch

/-- Settles O7: the decoder has no cell to read exactly when IP is past the end. -/
theorem fetchPastProgramEndFaults : Obligations.FetchPastProgramEndFaults := fun s hlive =>
  ⟨fun h => step_of_decode_error hlive (decode_error.mpr (.inl ⟨fetchCells_of_past_end h, rfl⟩)),
    fun h => by rw [fetchCells_eq_cons h, List.head?_cons]⟩

/-- Settles O10: a live machine does what the decoder answers. -/
theorem stepRunsDecodedInstruction : Obligations.StepRunsDecodedInstruction :=
  fun _ _ hlive hi => step_of_decode_ok hlive hi

/-- Settles O11: the cells from IP on are the encoding and what follows it. -/
theorem stepRunsEncodedInstruction : Obligations.StepRunsEncodedInstruction := by
  intro s i hlive hc hi hfit hcells
  have hlen : (encode s.config i).length = i.form.length s.config := encode_length i
  rw [← hlen] at hfit hcells
  refine step_of_decode_ok hlive ?_
  rw [fetchCells_eq_append (hlen ▸ form_length_le_longest hc i.form) hfit hcells]
  exact decode_encode_append hc hi _

/-- Settles O8: the opcode map is injective, and a value it gives no form looks none up. -/
theorem unassignedOpcodeFaults : Obligations.UnassignedOpcodeFaults := by
  intro s hlive hc hip
  refine ⟨fun f hf => hf ▸ formOf_opcode hc f, fun hnone => ?_⟩
  have hform : s.config.formOf (s.readCell .program s.ip) = none :=
    Option.eq_none_iff_forall_ne_some.mpr fun f hf => hnone f (opcode_of_formOf hc hf)
  exact step_of_decode_error hlive (decode_error.mpr (.inr ⟨_, _, fetchCells_eq_cons hip, .inl ⟨hform, rfl⟩⟩))

section StreamOrder

variable {s : State} {f : Form}

/-- A live machine with an opcode of the form `f` at IP. -/
structure State.Fetches (s : State) (f : Form) : Prop where
  live : s.live
  admissible : s.config.admissible = true
  inProgram : s.ip < s.size .program
  opcode : s.readCell .program s.ip = s.config.opcode f

/-- The operands of the classes `pre` decode from the cells after the opcode, in both byte orders. -/
def State.Decodes (s : State) (pre : List OperandClass) : Prop :=
  ∀ le, ∃ os, decodeOperands s.config le pre s.operandCells = .ok os

theorem decodes_nil : s.Decodes [] :=
  fun _ => ⟨[], rfl⟩

theorem decodes_singleton {k : OperandClass} (h : ∀ le, ∃ p, decodeOperand s.config le k s.operandCells = .ok p) :
    s.Decodes [k] := fun le =>
  have ⟨_, hp⟩ := h le
  ⟨_, decodeOperands_cons.mpr ⟨_, _, [], hp, rfl, rfl⟩⟩

/-- No operand ends behind the window: its cells are all read if the program space has them all. -/
theorem State.Fetches.operand_fits_iff (h : s.Fetches f) {pre ks : List OperandClass} {k : OperandClass}
    (hf : f.classes = pre ++ k :: ks) :
    operandLength s.config pre + k.cells s.config ≤ s.operandCells.length ↔
      s.ip + 1 + operandLength s.config pre + k.cells s.config ≤ s.size .program := by
  have hlen := form_length_le_longest h.admissible f
  have hpos := cells_pos h.admissible k
  rw [form_length, hf, operandLength_append, operandLength_cons] at hlen
  rw [operandCells_length]
  omega

/-- The fault of the first operand that does not decode is the step's. -/
theorem State.Fetches.step_fault (h : s.Fetches f) {pre ks : List OperandClass} {k : OperandClass} {e : FaultKind}
    (hf : f.classes = pre ++ k :: ks) (hpre : s.Decodes pre)
    (hk : ∀ le, decodeOperand s.config le k (s.operandCells.drop (operandLength s.config pre)) = .error e) :
    step s = .next (s.takeFault e) := by
  refine step_of_decode_error h.live
    (decode_error.mpr (.inr ⟨_, _, fetchCells_eq_cons h.inProgram, .inr ⟨f, ?_, ?_⟩⟩))
  · rw [h.opcode, formOf_opcode h.admissible]
  · obtain ⟨os, hos⟩ := hpre (s.readCell .program s.ip % 2 == 0)
    rw [hf]
    exact decodeOperands_append_error hos (decodeOperands_cons_error (hk _) ks)

/-- An operand whose cells do not all lie in the program space. -/
theorem State.Fetches.outOfBounds (h : s.Fetches f) {pre ks : List OperandClass} {k : OperandClass}
    (hf : f.classes = pre ++ k :: ks) (hpre : s.Decodes pre)
    (hn : s.size .program < s.ip + 1 + operandLength s.config pre + k.cells s.config) :
    step s = .next (s.takeFault .outOfBounds) := by
  refine h.step_fault hf hpre fun le => decodeOperand_error.mpr (.inl ⟨?_, rfl⟩)
  have hfits := h.operand_fits_iff hf
  have hpos := cells_pos h.admissible k
  rw [List.length_drop]
  omega

theorem State.Fetches.registerCell (h : s.Fetches f) {pre ks : List OperandClass}
    (hf : f.classes = pre ++ .r :: ks) (hn : s.ip + 1 + operandLength s.config pre < s.size .program) :
    (s.operandCells.drop (operandLength s.config pre)).take 1 =
      [s.readCell .program (s.ip + (1 + operandLength s.config pre))] := by
  have hlt : operandLength s.config pre < s.operandCells.length := (h.operand_fits_iff hf).mpr hn
  rw [List.take_one_drop_eq_of_lt_length hlt, List.get_eq_getElem, operandCells_getElem hlt, Nat.add_assoc]

/-- A register-id cell that lies in the program space and is no register's (D4). -/
theorem State.Fetches.badRegister (h : s.Fetches f) {pre ks : List OperandClass}
    (hf : f.classes = pre ++ .r :: ks) (hpre : s.Decodes pre)
    (hn : s.ip + 1 + operandLength s.config pre < s.size .program)
    (hcell : 5 < s.readCell .program (s.ip + (1 + operandLength s.config pre))) :
    step s = .next (s.takeFault .badRegister) := by
  have hlt : operandLength s.config pre < s.operandCells.length := (h.operand_fits_iff hf).mpr hn
  refine h.step_fault hf hpre fun le => decodeOperand_error.mpr (.inr ⟨?_, rfl, ?_, rfl⟩)
  · rw [List.length_drop]
    exact Nat.le_sub_of_add_le' hlt
  · rwa [OperandClass.cells, h.registerCell hf hn, unpack_singleton]

/-- A register id in the first operand cell decodes. -/
theorem State.Fetches.decodes_register (h : s.Fetches f) {ks : List OperandClass} (hf : f.classes = .r :: ks)
    (hn : s.ip + 1 < s.size .program) (hcell : s.readCell .program (s.ip + 1) ≤ 5) : s.Decodes [.r] := by
  obtain ⟨r, hr⟩ := Option.ne_none_iff_exists'.mp (mt Reg.ofId_eq_none.mp hcell.not_gt)
  have hlt := (h.operand_fits_iff (pre := []) hf).mpr hn
  have htake := h.registerCell (pre := []) hf hn
  refine decodes_singleton fun le => ⟨(.reg r, _), decodeOperand_iff_reads.mpr ⟨?_, rfl, r, ?_, rfl⟩⟩
  · simpa using hlt
  · rw [operandLength_nil, List.drop_zero] at htake
    rw [OperandClass.cells, htake, unpack_singleton]
    exact Reg.ofId_eq_some.mp hr

/-- An address whose cells lie in the program space decodes. -/
theorem State.Fetches.decodes_address (h : s.Fetches f) {ks : List OperandClass} (hf : f.classes = .ia :: ks)
    (hn : s.ip + 1 + s.config.addrCells ≤ s.size .program) : s.Decodes [.ia] :=
  have hlen := (h.operand_fits_iff (pre := []) hf).mpr hn
  decodes_singleton fun _ => ⟨_, decodeOperand_iff_reads.mpr ⟨by simpa using hlen, rfl, rfl⟩⟩

/-- The second operand of a form whose first is a register (D26, D36). -/
theorem State.Fetches.outOfBounds_after_register (h : s.Fetches f) {k : OperandClass} {ks : List OperandClass}
    (hf : f.classes = .r :: k :: ks) (hr : s.readCell .program (s.ip + 1) ≤ 5) (hfirst : s.ip + 1 < s.size .program)
    (hn : s.size .program < s.ip + 2 + k.cells s.config) : step s = .next (s.takeFault .outOfBounds) :=
  h.outOfBounds (pre := [.r]) hf (h.decodes_register hf hfirst hr) hn

end StreamOrder

/-- Settles O9: the operand that fails stands behind no operand, behind a register id or behind an address. -/
theorem decoderFaultsInStreamOrder : Obligations.DecoderFaultsInStreamOrder := by
  intro s f hlive hc hip hop n cell fault
  have h : s.Fetches f := ⟨hlive, hc, hip, hop⟩
  have classes {k : Format} (hk : f.format = k) : f.classes = k.classes := congrArg Format.classes hk
  refine ⟨fun hk => ?_, fun hk hr => ⟨fun hn => ?_, fun hn hcell => ?_⟩, fun hk hr hn => ?_, fun hk hr hn hn' => ?_,
    fun hk hr hn hn' => ?_, fun hk hn => ?_, fun hk => ⟨fun hn => ?_, fun hn hcell => ?_⟩⟩
  · have hf : ∃ ks, f.classes = [] ++ .r :: ks := by
      rcases hk with hk | hk | hk | hk | hk <;> exact ⟨_, classes hk⟩
    obtain ⟨ks, hf⟩ := hf
    exact ⟨fun hn => h.outOfBounds hf decodes_nil (Nat.lt_succ_of_le hn.le),
      fun hn hcell => h.badRegister hf decodes_nil hn hcell⟩
  · exact h.outOfBounds_after_register (classes hk) hr (by omega) (Nat.lt_succ_of_le hn.le)
  · exact h.badRegister (pre := [.r]) (classes hk) (h.decodes_register (classes hk) (by omega) hr) hn hcell
  · exact h.outOfBounds_after_register (classes hk) hr (by omega) (Nat.lt_succ_of_le hn.le)
  · exact h.outOfBounds_after_register (classes hk) hr hn hn'
  · exact h.outOfBounds_after_register (classes hk) hr hn hn'
  · rcases hk with hk | hk | hk <;> exact h.outOfBounds (pre := []) (classes hk) decodes_nil hn
  · exact h.outOfBounds (pre := [.ia]) (classes hk) (h.decodes_address (classes hk) hn.ge) (Nat.lt_succ_of_le hn.le)
  · exact h.badRegister (pre := [.ia]) (classes hk) (h.decodes_address (classes hk) hn.le) hn hcell

end Machine

end Sys2Proof
end

section
/-! What the encoding leaves alone: the opcode map says nothing about a decoded instruction (30_encoding.md R94, R103), and a
relative form is the absolute form at its target (42_control_flow.md R231). -/

namespace Sys2Proof.Machine

/-- The state under another opcode map. -/
def State.withOpmap (s : State) (m : List Nat) : State :=
  { s with config := { s.config with opmap := m } }

section Opmap

variable {m : List Nat}

@[simp] theorem withOpmap_advance (s : State) (f : Form) : (s.withOpmap m).advance f = (s.advance f).withOpmap m := rfl

@[simp] theorem withOpmap_channel (s : State) : (s.withOpmap m).channel = s.channel := rfl

@[simp] theorem withOpmap_c (s : State) : (s.withOpmap m).c = s.c := rfl

@[simp] theorem withOpmap_wordBits (s : State) : (s.withOpmap m).config.wordBits = s.config.wordBits := rfl

@[simp] theorem withOpmap_holds (s : State) (cond : Condition) : (s.withOpmap m).holds cond = s.holds cond := rfl

@[simp] theorem withOpmap_putReg (s : State) (r : Reg) (v : Nat) :
    (s.withOpmap m).putReg r v = (s.putReg r v).withOpmap m := by
  cases r <;> rfl

theorem withOpmap_setArray (s : State) (n : Space) (x : Memory) :
    (s.withOpmap m).setArray n x = (s.setArray n x).withOpmap m := by
  cases n <;> rfl

@[simp] theorem withOpmap_store (s : State) (n : Space) (a k v : Nat) :
    (s.withOpmap m).store n a k v = (s.store n a k v).withOpmap m :=
  withOpmap_setArray ..

/-- The map has no influence on the body of an instruction: under another one it answers the same state but for the map, or
raises the same fault. -/
structure OpmapFree (body : State → Except FaultKind State) : Prop where
  ok : ∀ {s t : State} (m : List Nat), body s = .ok t → body (s.withOpmap m) = .ok (t.withOpmap m)
  error : ∀ {s : State} {k : FaultKind} (m : List Nat), body s = .error k → body (s.withOpmap m) = .error k

theorem OpmapFree.run {f : Form} {body : State → Except FaultKind State} (hb : OpmapFree body) {s t : State}
    (h : s.run f body = .next t) : (s.withOpmap m).run f body = .next (t.withOpmap m) := by
  rcases run_next.mp h with ht | ⟨k, hk, rfl⟩
  · exact run_of_ok (hb.ok m ht)
  · exact run_of_error (hb.error m hk)

theorem opmapFree_ok {g : State → State} (hg : ∀ s m, g (s.withOpmap m) = (g s).withOpmap m) :
    OpmapFree fun u => .ok (g u) where
  ok m h := by cases h; rw [hg]
  error _ h := nomatch h

/-- A value the map has no influence on, and what is done with it. -/
theorem opmapFree_bind {α : Type} {x : State → Except FaultKind α} {g : State → α → Except FaultKind State}
    (hx : ∀ s m, x (s.withOpmap m) = x s) (hg : ∀ v, OpmapFree fun u => g u v) : OpmapFree fun u => x u >>= g u where
  ok m h := by
    obtain ⟨v, hv, ht⟩ := bind_eq_ok.mp h
    exact bind_eq_ok.mpr ⟨v, (hx _ m).trans hv, (hg v).ok m ht⟩
  error m h := by
    rcases bind_eq_error.mp h with hk | ⟨v, hv, hk⟩
    · exact bind_eq_error.mpr (.inl ((hx _ m).trans hk))
    · exact bind_eq_error.mpr (.inr ⟨v, (hx _ m).trans hv, (hg v).error m hk⟩)

/-- One body, and another from the state it answers. -/
theorem OpmapFree.bind {x g : State → Except FaultKind State} (hx : OpmapFree x) (hg : OpmapFree g) :
    OpmapFree fun u => x u >>= g where
  ok m h := by
    obtain ⟨u, hu, ht⟩ := bind_eq_ok.mp h
    exact bind_eq_ok.mpr ⟨_, hx.ok m hu, hg.ok m ht⟩
  error m h := by
    rcases bind_eq_error.mp h with hk | ⟨u, hu, hk⟩
    · exact bind_eq_error.mpr (.inl (hx.error m hk))
    · exact bind_eq_error.mpr (.inr ⟨_, hx.ok m hu, hg.error m hk⟩)

theorem popCells_withOpmap {s u : State} {k v : Nat} (h : s.popCells k = .ok (v, u)) :
    (s.withOpmap m).popCells k = .ok (v, u.withOpmap m) := by
  obtain ⟨hle, hsp, hv, rfl⟩ := popCells_ok.mp h
  exact popCells_ok.mpr ⟨hle, hsp, hv, rfl⟩

section Bodies

variable {a k v : State → Nat} {rd : Reg} {tag : Tag}

theorem opmapFree_regWrite (hv : ∀ s m, v (s.withOpmap m) = v s) : OpmapFree fun u => u.regWrite rd tag (v u) where
  ok m h := by
    obtain ⟨hsp, rfl⟩ := regWrite_ok.mp h
    rw [hv]
    exact regWrite_ok.mpr ⟨hsp, (withOpmap_putReg ..).symm⟩
  error m h := by
    have hwhy := regWrite_error.mp h
    rw [hv]
    exact regWrite_error.mpr hwhy

theorem opmapFree_load {x : State → Except FaultKind Nat} (hx : ∀ s m, x (s.withOpmap m) = x s) :
    OpmapFree fun u => x u >>= u.regWrite rd tag :=
  opmapFree_bind hx fun _ => opmapFree_regWrite fun _ _ => rfl

theorem opmapFree_memWrite {n : Space} (ha : ∀ s m, a (s.withOpmap m) = a s) (hk : ∀ s m, k (s.withOpmap m) = k s)
    (hv : ∀ s m, v (s.withOpmap m) = v s) : OpmapFree fun u => u.memWrite n (a u) (k u) (v u) where
  ok m h := by
    obtain ⟨hn, hfits, rfl⟩ := memWrite_ok.mp h
    rw [ha, hk, hv]
    exact memWrite_ok.mpr ⟨hn, hfits, (withOpmap_store ..).symm⟩
  error m h := by
    have hwhy := memWrite_error.mp h
    rw [ha, hk, hv]
    exact memWrite_error.mpr hwhy

theorem opmapFree_alu {x : State → Except FaultKind AluResult} (hx : ∀ s m, x (s.withOpmap m) = x s) :
    OpmapFree fun u => x u >>= u.aluWrite tag rd :=
  opmapFree_bind hx fun r =>
    (opmapFree_regWrite (v := fun _ => r.value) fun _ _ => rfl).bind
      (opmapFree_ok (g := fun u => u.setFlags (u.config.bits tag) r) fun _ _ => rfl)

theorem opmapFree_compare {src : Source} : OpmapFree fun u => u.aluCompare tag rd src :=
  opmapFree_bind (x := fun u => AluOp.sub.compute (u.config.bits tag) (u.regRead rd tag) (u.operand tag src))
    (fun _ _ => rfl) fun r => opmapFree_ok (g := fun u => u.setFlags (u.config.bits tag) r) fun _ _ => rfl

theorem opmapFree_jumpIf {cond : Condition} (ha : ∀ s m, a (s.withOpmap m) = a s) :
    OpmapFree fun u => .ok (u.jumpIf cond (a u)) :=
  opmapFree_ok fun s m => by
    simp only [ha, State.jumpIf, withOpmap_holds]
    split <;> rfl

theorem opmapFree_loopTo (ha : ∀ s m, a (s.withOpmap m) = a s) : OpmapFree fun u => .ok (u.loopTo (a u)) :=
  opmapFree_ok fun s m => by
    simp only [ha, State.loopTo, withOpmap_c, withOpmap_wordBits]
    split <;> rfl

theorem opmapFree_pushCells (hk : ∀ s m, k (s.withOpmap m) = k s) (hv : ∀ s m, v (s.withOpmap m) = v s) :
    OpmapFree fun u => u.pushCells (k u) (v u) where
  ok m h := by
    obtain ⟨hfits, rfl⟩ := pushCells_ok.mp h
    rw [hk, hv]
    refine pushCells_ok.mpr ⟨hfits, ?_⟩
    rw [withOpmap_store]
    rfl
  error m h := by
    have hwhy := pushCells_error.mp h
    rw [hk, hv]
    exact pushCells_error.mpr hwhy

theorem opmapFree_callTo (ha : ∀ s m, a (s.withOpmap m) = a s) : OpmapFree fun u => u.callTo (a u) :=
  opmapFree_bind (x := fun u => .ok (a u)) (fun s m => congrArg Except.ok (ha s m)) fun t =>
    (opmapFree_pushCells (k := fun u => u.config.addrCells) (v := fun u => u.ip) (fun _ _ => rfl) fun _ _ => rfl).bind
      (opmapFree_ok (g := fun u => u.jump t) fun _ _ => rfl)

theorem opmapFree_popCells (hk : ∀ s m, k (s.withOpmap m) = k s) {g : Nat × State → Except FaultKind State}
    (hg : ∀ v, OpmapFree fun u => g (v, u)) : OpmapFree fun u => u.popCells (k u) >>= g where
  ok m h := by
    obtain ⟨⟨v, u⟩, hpop, ht⟩ := bind_eq_ok.mp h
    rw [hk]
    exact bind_eq_ok.mpr ⟨(v, u.withOpmap m), popCells_withOpmap hpop, (hg v).ok m ht⟩
  error m h := by
    rw [hk]
    rcases bind_eq_error.mp h with he | ⟨⟨v, u⟩, hpop, he⟩
    · have hwhy := popCells_error.mp he
      exact bind_eq_error.mpr (.inl (popCells_error.mpr hwhy))
    · exact bind_eq_error.mpr (.inr ⟨(v, u.withOpmap m), popCells_withOpmap hpop, (hg v).error m he⟩)

theorem opmapFree_receive (r : HostAnswer) : OpmapFree fun u => u.receive r := by
  cases r with
  | byte b =>
    exact (opmapFree_regWrite (v := fun u => b.toNat % 2 ^ u.config.cellBits) fun _ _ => rfl).bind
      (opmapFree_ok (g := fun u => (u.setCarry false).takeAnswer) fun _ _ => rfl)
  | endOfStream =>
    exact (opmapFree_regWrite (v := fun u => mask u.config.cellBits) fun _ _ => rfl).bind
      (opmapFree_ok (g := fun u => (u.setCarry true).takeAnswer) fun _ _ => rfl)

end Bodies

/-- An instruction that neither speaks with the host nor ends the run is the run of a body the map does not enter. -/
theorem exec_eq_opmapFree_run {i : Instr} (h : speaks i.form = false) :
    ∃ body, (∀ s, exec i s = s.run i.form body) ∧ OpmapFree body := by
  cases i with
  | input | output | seek | halt => cases h
  | movbI2r | movwI2r | movbR2r | movwR2r =>
    simp only [exec]
    exact ⟨_, fun _ => rfl, opmapFree_regWrite fun _ _ => rfl⟩
  | movbM2r | movwM2r | ldb | ldw | lda | lpb =>
    simp only [exec]
    exact ⟨_, fun _ => rfl, opmapFree_load fun _ _ => rfl⟩
  | movbR2m | movwR2m | stb | stw | sta =>
    simp only [exec]
    exact ⟨_, fun _ => rfl, opmapFree_memWrite (fun _ _ => rfl) (fun _ _ => rfl) fun _ _ => rfl⟩
  | cmpBReg | cmpBImm | cmpWReg | cmpWImm =>
    simp only [exec]
    exact ⟨_, fun _ => rfl, opmapFree_compare⟩
  | notB | notW | negB | negW =>
    simp only [exec]
    exact ⟨_, fun _ => rfl, opmapFree_alu (x := fun _ => .ok _) fun _ _ => rfl⟩
  | jmp | jmpRel =>
    simp only [exec]
    exact ⟨_, fun _ => rfl, opmapFree_ok fun _ _ => rfl⟩
  | je | jeRel | jne | jneRel | jb | jbRel | jbe | jbeRel | ja | jaRel | jae | jaeRel | jl | jlRel | jle | jleRel | jg
  | jgRel | jge | jgeRel =>
    simp only [exec]
    exact ⟨_, fun _ => rfl, opmapFree_jumpIf fun _ _ => rfl⟩
  | loop | loopRel =>
    simp only [exec]
    exact ⟨_, fun _ => rfl, opmapFree_loopTo fun _ _ => rfl⟩
  | call | callRel =>
    simp only [exec]
    exact ⟨_, fun _ => rfl, opmapFree_callTo fun _ _ => rfl⟩
  | push =>
    simp only [exec]
    exact ⟨_, fun _ => rfl, opmapFree_pushCells (fun _ _ => rfl) fun _ _ => rfl⟩
  | pop =>
    simp only [exec]
    exact ⟨_, fun _ => rfl, opmapFree_popCells (fun _ _ => rfl) fun _ => opmapFree_regWrite fun _ _ => rfl⟩
  | ret =>
    simp only [exec]
    exact ⟨_, fun _ => rfl, opmapFree_popCells (fun _ _ => rfl) fun _ => opmapFree_ok fun _ _ => rfl⟩
  | _ =>
    simp only [exec]
    exact ⟨_, fun _ => rfl, opmapFree_alu fun _ _ => rfl⟩

/-- A request of the host waits under both maps, or sends the same event. -/
theorem request_withOpmap {s t : State} {f : Form} {e : State → HostEvent} (he : ∀ s m, e (s.withOpmap m) = e s)
    (h : s.request f e = .next t) : (s.withOpmap m).request f e = .next (t.withOpmap m) := by
  rcases request_next.mp h with ⟨hh, rfl⟩ | ⟨hh, rfl⟩
  · exact request_next.mpr (.inl ⟨hh, rfl⟩)
  · exact request_next.mpr (.inr ⟨hh, by rw [withOpmap_advance, he]; rfl⟩)

theorem execInput_withOpmap {s t : State} (h : execInput s = .next t) :
    execInput (s.withOpmap m) = .next (t.withOpmap m) := by
  cases hr : s.channel.answers with
  | nil =>
    simp only [execInput, withOpmap_channel, hr] at h ⊢
    cases h
    rfl
  | cons r rs =>
    simp only [execInput, withOpmap_channel, hr] at h ⊢
    exact (opmapFree_receive r).run h

/-- Under another opcode map an instruction does the same. -/
theorem exec_withOpmap {i : Instr} {s t : State} (h : exec i s = .next t) :
    exec i (s.withOpmap m) = .next (t.withOpmap m) := by
  cases hs : speaks i.form with
  | false =>
    obtain ⟨body, hi, hb⟩ := exec_eq_opmapFree_run hs
    rw [hi] at h ⊢
    exact hb.run h
  | true =>
    cases i with
    | input => exact execInput_withOpmap h
    | output | seek => exact request_withOpmap (fun _ _ => rfl) h
    | halt =>
      cases h
      rfl
    | _ => cases hs

end Opmap

/-- Settles O57: no body of an instruction depends on the map, nor does what passes between block and host. -/
theorem opcodeMapOnlyAffectsDecoding : Obligations.OpcodeMapOnlyAffectsDecoding :=
  fun _ _ _ _ => exec_withOpmap

/-- A relative form runs as the absolute form with the target it computes from ip_next (R231, D35). -/
theorem run_relTarget {fabs frel : Form} (habs : fabs.format = .IA) (hrel : frel.format = .IO) (s : State) (off : Int)
    (body : Nat → State → Except FaultKind State) :
    s.run frel (fun u => body (u.relTarget off) u) =
      s.run fabs (body (ofInt s.config.addrBits ((s.ipNext .jmpRel : Int) + off))) := by
  have hadvance : ∀ f : Form, f.format = .IA ∨ f.format = .IO → s.advance f = s.advance .jmpRel := by
    rintro f (hf | hf) <;> simp only [State.advance, State.ipNext, Form.length, Form.classes, hf] <;> rfl
  rw [State.run, State.run, hadvance _ (.inl habs), hadvance _ (.inr hrel)]
  rfl

/-- Settles O58: the two forms of each pair have one body, up to the target. -/
theorem relativeReachesAbsolute : Obligations.RelativeReachesAbsolute := fun s off =>
  have jumps {fabs frel : Form} (habs : fabs.format = .IA) (hrel : frel.format = .IO) (cond : Condition) :=
    run_relTarget habs hrel s off fun a u => .ok (u.jumpIf cond a)
  ⟨run_relTarget rfl rfl s off fun a u => .ok (u.jump a), jumps rfl rfl .e, jumps rfl rfl .ne, jumps rfl rfl .b,
    jumps rfl rfl .be, jumps rfl rfl .a, jumps rfl rfl .ae, jumps rfl rfl .l, jumps rfl rfl .le, jumps rfl rfl .g,
    jumps rfl rfl .ge, run_relTarget rfl rfl s off fun a u => u.callTo a,
    run_relTarget rfl rfl s off fun a u => .ok (u.loopTo a)⟩

end Sys2Proof.Machine
end

section
/-! The data-movement instructions complete: a move or a load is a register write behind what computes its value, a store is
one access to ram (40_data_movement.md R130 to R145). -/

namespace Sys2Proof.Machine

section Complete

variable {i : Instr} {f : Form} {rd rs : Reg} {tag : Tag} {addr : State → Nat} {k : Config → Nat}

/-- A value that is there, and a register that takes it. -/
theorem exec_next_of_write {s : State} {v : Nat} {x : State → Except FaultKind Nat}
    (hi : exec i s = s.run f fun u => x u >>= u.regWrite rd tag) (hx : x (s.advance f) = .ok v)
    (hsp : (s.advance f).accepts rd tag v) :
    exec i s = .next ((s.advance f).putReg rd ((s.advance f).merged rd tag v)) :=
  hi.trans (run_of_ok (bind_eq_ok.mpr ⟨v, hx, regWrite_ok.mpr ⟨hsp, rfl⟩⟩))

/-- A move: its value is there at once. -/
theorem exec_next_of_move {s : State} {v : State → Nat} (hi : exec i s = s.run f fun u => u.regWrite rd tag (v u))
    (hsp : (s.advance f).accepts rd tag (v (s.advance f))) :
    exec i s = .next ((s.advance f).putReg rd ((s.advance f).merged rd tag (v (s.advance f)))) :=
  exec_next_of_write (x := fun u => .ok (v u)) hi rfl hsp

/-- A load through any access `x` that answers the cells of the space wherever they fit in it. -/
theorem loadYields_of_access {n : Space} {x : State → Except FaultKind Nat}
    (hx : ∀ u, addr u + k u.config ≤ u.size n → x u = .ok (u.cellsValue n (addr u) (k u.config)))
    (hi : ∀ s, exec i s = s.run f fun u => x u >>= u.regWrite rd tag) : loadYields i f tag rd n addr k :=
  fun s hfits hsp => exec_next_of_write (hi s) (hx (s.advance f) hfits) hsp

theorem loadYields_of_memRead {n : Space}
    (hi : ∀ s, exec i s = s.run f fun u => u.memRead n (addr u) (k u.config) >>= u.regWrite rd tag) :
    loadYields i f tag rd n addr k :=
  loadYields_of_access (fun _ => memRead_of_fits) hi

theorem loadYields_of_romRead
    (hi : ∀ s, exec i s = s.run f fun u => u.romRead (addr u) (k u.config) true >>= u.regWrite rd tag) :
    loadYields i f tag rd .program addr k :=
  loadYields_of_access (fun _ => romRead_of_fits) hi

theorem storeYields_of_memWrite
    (hi : ∀ s, exec i s = s.run f fun u => u.memWrite .ram (addr u) (k u.config) (u.regRead rs tag)) :
    storeYields i f tag rs addr k :=
  fun s hfits => (hi s).trans (run_of_ok (memWrite_ok.mpr ⟨by decide, hfits, rfl⟩))

end Complete

/-- Settles O37: a move is a register write of its immediate, or of the register it reads at the tag's width. -/
theorem movesComplete : Obligations.MovesComplete := fun _ _ rs imm =>
  ⟨exec_next_of_move (v := fun _ => imm) rfl, exec_next_of_move (v := fun _ => imm) rfl,
    exec_next_of_move (v := fun u => u.regRead rs .byte) rfl, exec_next_of_move (v := fun u => u.regRead rs .word) rfl⟩

/-- Settles O38: five loads read ram through the memory port, `lpb` reads program through the ROM port. -/
theorem loadsComplete : Obligations.LoadsComplete := fun _ _ _ =>
  ⟨loadYields_of_memRead fun _ => rfl, loadYields_of_memRead fun _ => rfl, loadYields_of_memRead fun _ => rfl,
    loadYields_of_memRead fun _ => rfl, loadYields_of_memRead fun _ => rfl, loadYields_of_romRead fun _ => rfl⟩

/-- Settles O39: each store is one write to ram, which is not read-only, at an address that fits. -/
theorem storesComplete : Obligations.StoresComplete := fun _ _ _ =>
  ⟨storeYields_of_memWrite fun _ => rfl, storeYields_of_memWrite fun _ => rfl, storeYields_of_memWrite fun _ => rfl,
    storeYields_of_memWrite fun _ => rfl, storeYields_of_memWrite fun _ => rfl⟩

end Sys2Proof.Machine
end

section
/-! The ALU's results as integers: reduction modulo 2^w, the sign bit, and what carry and overflow say of a result
(41_alu.md R163 to R165; 00_scope.md R12, R13). -/

namespace Sys2Proof

theorem ofInt_congr {n : Nat} {x y : Int} (h : x ≡ y [ZMOD (2 ^ n : Nat)]) : ofInt n x = ofInt n y :=
  congrArg Int.toNat h

/-- The two readings of a value differ by a multiple of 2^n. -/
theorem signed_modEq (n v : Nat) : signed n v ≡ v [ZMOD (2 ^ n : Nat)] := by
  unfold signed
  split
  · exact Int.sub_emod_right _ _
  · rfl

theorem signed_inj {n a b : Nat} (hn : 1 ≤ n) (ha : a < 2 ^ n) (hb : b < 2 ^ n) : signed n a = signed n b ↔ a = b :=
  ⟨fun h => by rw [← ofInt_signed hn ha, h, ofInt_signed hn hb], congrArg (signed n)⟩

/-- The top bit is the sign of the signed reading. -/
theorem testBit_top {n v : Nat} (hv : v < 2 ^ n) : v.testBit (n - 1) = decide (signed n v < 0) := by
  unfold signed
  cases v.testBit (n - 1)
  · simp
  · simpa using mod_cast hv

/-- MIN_n and MAX_n are 2^n − 1 apart, and MAX_n is not negative. -/
theorem minSigned_maxSigned {n : Nat} (hn : 1 ≤ n) :
    minSigned n = -(maxSigned n + 1) ∧ ((2 ^ n : Nat) : Int) = 2 * (maxSigned n + 1) ∧ 0 ≤ maxSigned n := by
  have hpos := Nat.two_pow_pos (n - 1)
  have hhalf : 2 * 2 ^ (n - 1) = 2 ^ n := mul_pow_sub_one (by omega) 2
  unfold minSigned maxSigned
  omega

namespace Machine

theorem outsideSigned_eq_true {w : Nat} {x : Int} : outsideSigned w x = true ↔ x < minSigned w ∨ maxSigned w < x := by
  simp only [outsideSigned, Bool.not_eq_true', decide_eq_false_iff_not]
  omega

theorem overflows_eq_outsideSigned (w : Nat) (x : Int) : overflows w x = outsideSigned w x := by
  rw [Bool.eq_iff_iff, outsideSigned_eq_true, overflows, decide_eq_true_iff]

/-- Of an integer between −2^w and 2^w, the sign bit modulo 2^w is wrong outside the signed range and right inside. -/
theorem sign_bne_outsideSigned {w : Nat} {d : Int} (hw : 1 ≤ w) (hlo : -(2 ^ w : Nat) < d) (hhi : d < (2 ^ w : Nat)) :
    ((ofInt w d).testBit (w - 1) != outsideSigned w d) = decide (d < 0) := by
  obtain ⟨hmin, htwo, hmax⟩ := minSigned_maxSigned hw
  rw [testBit_top (ofInt_lt w d)]
  rcases lt_or_ge d (minSigned w) with hbelow | hmin'
  · have hs : signed w (ofInt w d) = d + (2 ^ w : Nat) := by
      rw [← ofInt_congr (Int.add_emod_right d _)]
      exact signed_ofInt hw (by omega) (by omega)
    have hsign : 0 ≤ signed w (ofInt w d) := by omega
    have hneg : d < 0 := by omega
    simp [hsign, hneg, outsideSigned_eq_true.mpr (.inl hbelow)]
  · rcases lt_or_ge (maxSigned w) d with habove | hmax'
    · have hs : signed w (ofInt w d) = d - (2 ^ w : Nat) := by
        rw [← ofInt_congr (Int.sub_emod_right d _)]
        exact signed_ofInt hw (by omega) (by omega)
      have hsign : signed w (ofInt w d) < 0 := by omega
      have hpos : 0 ≤ d := by omega
      simp [hsign, hpos, outsideSigned_eq_true.mpr (.inr habove)]
    · simp [signed_ofInt hw hmin' hmax', outsideSigned, hmin', hmax']

/-- Negation leaves the signed range for MIN_w alone. -/
theorem outsideSigned_neg_signed {w a : Nat} (hw : 1 ≤ w) (ha : a < 2 ^ w) :
    outsideSigned w (-signed w a) = decide (signed w a = minSigned w) := by
  obtain ⟨hmin, -, -⟩ := minSigned_maxSigned hw
  obtain ⟨hlo, hhi⟩ := signed_range hw ha
  rw [Bool.eq_iff_iff, outsideSigned_eq_true, decide_eq_true_iff]
  omega

/-- A quotient by anything but −1 stays in the signed range. -/
theorem tdiv_range {w a : Nat} {y : Int} (hw : 1 ≤ w) (ha : a < 2 ^ w) (hy : y ≠ -1) :
    minSigned w ≤ (signed w a).tdiv y ∧ (signed w a).tdiv y ≤ maxSigned w := by
  obtain ⟨hmin, -, hmax⟩ := minSigned_maxSigned hw
  obtain ⟨hlo, hhi⟩ := signed_range hw ha
  rcases eq_or_ne y 1 with rfl | hone
  · rw [Int.tdiv_one]
    exact ⟨hlo, hhi⟩
  · have habs := Int.natAbs_tdiv (signed w a) y
    rcases eq_or_ne y 0 with rfl | hzero
    · rw [Int.tdiv_zero]
      omega
    · have hhalf : (signed w a).natAbs / y.natAbs ≤ (signed w a).natAbs / 2 :=
        Nat.div_le_div_left (by omega) (by omega)
      change _ = (signed w a).natAbs / y.natAbs at habs
      omega

/-- A signed quotient leaves the signed range for MIN_w by −1 alone. -/
theorem outsideSigned_tdiv {w a : Nat} {y : Int} (hw : 1 ≤ w) (ha : a < 2 ^ w) :
    outsideSigned w ((signed w a).tdiv y) = decide (signed w a = minSigned w ∧ y = -1) := by
  rcases eq_or_ne y (-1) with rfl | hy
  · rw [Int.tdiv_neg, Int.tdiv_one, outsideSigned_neg_signed hw ha]
    simp
  · simp [outsideSigned, tdiv_range hw ha hy, hy]

/-- From a count of w on, a value other than 0 is shifted out of the signed range. -/
theorem outsideSigned_shl {w a k : Nat} (ha : a < 2 ^ w) (h0 : a ≠ 0) (hk : w ≤ k) :
    outsideSigned w (signed w a * 2 ^ k) = true := by
  have hw : 1 ≤ w := Nat.one_le_iff_ne_zero.mpr fun h => h0 (by simpa [h] using ha)
  obtain ⟨hmin, htwo, hmax⟩ := minSigned_maxSigned hw
  have hle : ((2 ^ w : Nat) : Int) ≤ 2 ^ k := mod_cast Nat.pow_le_pow_right (by decide) hk
  have hne : signed w a ≠ 0 := fun h => h0 (by rw [← ofInt_signed hw ha, h]; exact ofInt_natCast w 0)
  rw [outsideSigned_eq_true]
  rcases lt_or_gt_of_ne hne with hneg | hpos
  · left
    have hscaled : signed w a * 2 ^ k ≤ -1 * 2 ^ k := Int.mul_le_mul_of_nonneg_right (by omega) (by positivity)
    omega
  · right
    have hscaled : 1 * 2 ^ k ≤ signed w a * 2 ^ k := Int.mul_le_mul_of_nonneg_right (by omega) (by positivity)
    omega

/-- The capped count carries like the whole one: from w on, every value but 0 does (log entry 12). -/
theorem shl_carry_capped (w a b : Nat) : 2 ^ w ≤ a * 2 ^ shiftCount w b ↔ 2 ^ w ≤ a * 2 ^ b := by
  rcases le_total b w with hb | hb
  · rw [shiftCount, Nat.min_eq_left hb]
  · rcases Nat.eq_zero_or_pos a with rfl | ha
    · simp
    · have hcarry : ∀ {k}, w ≤ k → 2 ^ w ≤ a * 2 ^ k := fun hk =>
        (Nat.pow_le_pow_right (by decide) hk).trans (Nat.le_mul_of_pos_left _ ha)
      rw [shiftCount, Nat.min_eq_right hb]
      exact iff_of_true (hcarry le_rfl) (hcarry hb)

/-- The capped count overflows like the whole one: from w on, every value but 0 does (log entry 12). -/
theorem shl_overflow_capped {w a : Nat} (b : Nat) (ha : a < 2 ^ w) :
    outsideSigned w (signed w a * 2 ^ shiftCount w b) = outsideSigned w (signed w a * 2 ^ b) := by
  rcases le_total b w with hb | hb
  · rw [shiftCount, Nat.min_eq_left hb]
  · rcases eq_or_ne a 0 with rfl | h0
    · simp [signed]
    · rw [shiftCount, Nat.min_eq_right hb, outsideSigned_shl ha h0 le_rfl, outsideSigned_shl ha h0 hb]

/-! Each operation's result, carry and overflow, in the terms of the statements. -/

/-- The operation answers the result `res` with the carry `c` and the overflow `o` for a w-bit first operand and a second
one that `ok` admits. -/
def AluOp.Computes (op : AluOp) (ok : Nat → Prop) (res : Nat → Nat → Nat → Nat) (c o : Nat → Nat → Nat → Bool) : Prop :=
  ∀ w a b, a < 2 ^ w → ok b →
    op.compute w a b = .ok { value := res w a b, carry := c w a b, overflow := o w a b }

theorem computes_add : AluOp.add.Computes (fun _ => True) (fun w a b => (a + b) % 2 ^ w)
    (fun w a b => decide (2 ^ w ≤ a + b)) (fun w a b => outsideSigned w (signed w a + signed w b)) :=
  fun _ _ _ _ _ => by simp only [AluOp.compute, overflows_eq_outsideSigned]

/-- The result of a subtraction, which sub writes and cmp leaves to its flags. -/
def subResult (w a b : Nat) : AluResult where
  value := ofInt w ((a : Int) - b)
  carry := decide (a < b)
  overflow := outsideSigned w (signed w a - signed w b)

theorem compute_sub (w a b : Nat) : AluOp.sub.compute w a b = .ok (subResult w a b) := by
  simp only [AluOp.compute, overflows_eq_outsideSigned, subResult]

theorem computes_sub : AluOp.sub.Computes (fun _ => True) (fun w a b => ofInt w ((a : Int) - b))
    (fun _ a b => decide (a < b)) (fun w a b => outsideSigned w (signed w a - signed w b)) :=
  fun w a b _ _ => compute_sub w a b

theorem computes_mul : AluOp.mul.Computes (fun _ => True) (fun w a b => a * b % 2 ^ w)
    (fun w a b => decide (2 ^ w ≤ a * b)) (fun w a b => outsideSigned w (signed w a * signed w b)) :=
  fun _ _ _ _ _ => by simp only [AluOp.compute, overflows_eq_outsideSigned]

theorem computes_div : AluOp.div.Computes (fun b => b ≠ 0) (fun w a b => ofInt w ((signed w a).tdiv (signed w b)))
    (fun _ _ _ => false) (fun w a b => decide (signed w a = minSigned w ∧ signed w b = -1)) :=
  fun _ _ _ _ => compute_div

theorem computes_mod : AluOp.mod.Computes (fun b => b ≠ 0) (fun w a b => ofInt w ((signed w a).tmod (signed w b)))
    (fun _ _ _ => false) (fun _ _ _ => false) :=
  fun _ _ _ _ => compute_mod

theorem computes_and : AluOp.and.Computes (fun _ => True) (fun _ a b => a &&& b) (fun _ _ _ => false)
    (fun _ _ _ => false) :=
  fun _ _ _ _ _ => rfl

theorem computes_or : AluOp.or.Computes (fun _ => True) (fun _ a b => a ||| b) (fun _ _ _ => false)
    (fun _ _ _ => false) :=
  fun _ _ _ _ _ => rfl

theorem computes_xor : AluOp.xor.Computes (fun _ => True) (fun _ a b => a ^^^ b) (fun _ _ _ => false)
    (fun _ _ _ => false) :=
  fun _ _ _ _ _ => rfl

theorem computes_shl : AluOp.shl.Computes (fun _ => True) (fun w a b => a * 2 ^ b % 2 ^ w)
    (fun w a b => decide (2 ^ w ≤ a * 2 ^ b)) (fun w a b => outsideSigned w (signed w a * 2 ^ b)) := by
  intro w a b ha _
  simp only [AluOp.compute, shl_capped, shl_carry_capped, overflows_eq_outsideSigned, Nat.cast_pow, Nat.cast_ofNat,
    shl_overflow_capped b ha]

theorem computes_shr : AluOp.shr.Computes (fun _ => True) (fun _ a b => a / 2 ^ b) (fun _ _ _ => false)
    (fun _ _ _ => false) :=
  fun w a b ha _ => by simp only [AluOp.compute, shr_capped b ha]

/-- The result, carry and overflow say of the unsigned result `x` and the signed result `y` what R163 to R165 say. -/
def AluResult.Exact (r : AluResult) (w : Nat) (x y : Int) : Prop :=
  r.value = ofInt w x ∧ r.value = ofInt w y ∧ r.carry = (!decide (0 ≤ x ∧ x < (2 ^ w : Nat))) ∧
    r.overflow = outsideSigned w y

/-- Both readings of a result agree modulo 2^w, so its value needs to be said once. -/
theorem AluResult.exact_of_modEq {r : AluResult} {w : Nat} {x y : Int} (hxy : y ≡ x [ZMOD (2 ^ w : Nat)])
    (hvalue : r.value = ofInt w x) (hcarry : r.carry = true ↔ x < 0 ∨ (2 ^ w : Nat) ≤ x)
    (hoverflow : r.overflow = outsideSigned w y) : r.Exact w x y := by
  refine ⟨hvalue, hvalue.trans (ofInt_congr hxy).symm, ?_, hoverflow⟩
  rw [Bool.eq_iff_iff, hcarry, Bool.not_eq_true', decide_eq_false_iff_not]
  omega

/-- An unsigned result that is not negative, with the carry where it reaches 2^w. -/
theorem AluResult.exact_natCast {w n : Nat} {y : Int} (hy : y ≡ n [ZMOD (2 ^ w : Nat)]) :
    AluResult.Exact { value := n % 2 ^ w, carry := decide (2 ^ w ≤ n), overflow := outsideSigned w y } w n y := by
  refine exact_of_modEq hy (ofInt_natCast w n).symm ?_ rfl
  rw [decide_eq_true_iff]
  omega

theorem exact_sub {w a : Nat} (b : Nat) (ha : a < 2 ^ w) :
    (subResult w a b).Exact w ((a : Int) - b) (signed w a - signed w b) := by
  refine AluResult.exact_of_modEq ((signed_modEq w a).sub (signed_modEq w b)) rfl ?_ rfl
  rw [subResult, decide_eq_true_iff]
  omega

theorem exact_neg {w a : Nat} (hw : 1 ≤ w) (ha : a < 2 ^ w) : (aluNeg w a).Exact w (-(a : Int)) (-signed w a) := by
  refine AluResult.exact_of_modEq (signed_modEq w a).neg rfl ?_ (outsideSigned_neg_signed hw ha).symm
  rw [aluNeg, decide_eq_true_iff]
  omega

/-- Settles O33: the signed reading is the unsigned one modulo 2^w, so one reduction serves both. -/
theorem arithmeticIsExact : Obligations.ArithmeticIsExact := by
  intro w a b hw ha _ _
  have hma := signed_modEq w a
  have hmb := signed_modEq w b
  refine ⟨⟨_, computes_add w a b ha trivial, ?_⟩, ⟨_, compute_sub w a b, exact_sub b ha⟩,
    ⟨_, computes_mul w a b ha trivial, ?_⟩, ⟨_, computes_shl w a b ha trivial, ?_⟩, exact_neg hw ha,
    fun hb => ⟨_, computes_div w a b ha hb, (outsideSigned_tdiv hw ha).symm⟩⟩
  · exact mod_cast AluResult.exact_natCast (n := a + b) (mod_cast hma.add hmb)
  · exact mod_cast AluResult.exact_natCast (n := a * b) (mod_cast hma.mul hmb)
  · exact mod_cast AluResult.exact_natCast (n := a * 2 ^ b) (mod_cast hma.mul_right (2 ^ b))

theorem aluNot_lt {w a : Nat} : (aluNot w a).value < 2 ^ w :=
  (Nat.sub_le _ _).trans_lt (Nat.sub_one_lt (Nat.two_pow_pos w).ne')

theorem testBit_aluNot {w a : Nat} (k : Nat) (ha : a < 2 ^ w) :
    (aluNot w a).value.testBit k = (decide (k < w) && !a.testBit k) := by
  rw [aluNot, mask, Nat.sub_sub, Nat.add_comm 1 a, Nat.testBit_two_pow_sub_succ ha]

/-- Settles O35: the results are bitwise, and a count of w or more leaves no bit of a w-bit value. -/
theorem bitwiseResults : Obligations.BitwiseResults := by
  intro w a b k ha hb _
  refine ⟨⟨_, rfl, Nat.and_lt_two_pow a hb, Nat.testBit_and a b k, rfl, rfl⟩,
    ⟨_, rfl, Nat.or_lt_two_pow ha hb, Nat.testBit_or a b k, rfl, rfl⟩,
    ⟨_, rfl, Nat.xor_lt_two_pow ha hb, Nat.testBit_xor a b k, rfl, rfl⟩,
    ⟨_, rfl, aluNot_lt, testBit_aluNot k ha, rfl, rfl⟩,
    ⟨_, computes_shr w a b ha trivial, (Nat.div_le_self _ _).trans_lt ha, ?_, rfl, rfl⟩⟩
  rw [Nat.testBit_div_two_pow, Nat.add_comm]

end Machine

end Sys2Proof
end

section
/-! The ALU's instructions: a compare and the conditions it decides, the forms that complete, and division by zero
(41_alu.md R161 to R167, R170 to R217; 42_control_flow.md R232). -/

namespace Sys2Proof.Machine

theorem aluCompare_ok {s t : State} {tag : Tag} {rd : Reg} {src : Source} : s.aluCompare tag rd src = .ok t ↔
    t = s.setFlags (s.config.bits tag) (subResult (s.config.bits tag) (s.regRead rd tag) (s.operand tag src)) := by
  rw [State.aluCompare, compute_sub, bind_eq_ok]
  simp only [Except.ok.injEq, exists_eq_left', eq_comm (b := t)]

/-- Every width of an admissible configuration has a bit. -/
theorem one_le_bits {c : Config} (hc : c.admissible = true) (tag : Tag) : 1 ≤ c.bits tag := by
  obtain ⟨hcell, -, -, haddr, hword, -⟩ := of_decide_eq_true hc
  cases tag with
  | byte => exact hcell
  | word => exact hword.trans' (by decide)
  | addr => exact Nat.mul_pos haddr hcell

theorem ofInt_eq_zero {n : Nat} {x : Int} : ofInt n x = 0 ↔ ((2 ^ n : Nat) : Int) ∣ x := by
  have hnonneg : 0 ≤ x % (2 ^ n : Nat) := Int.emod_nonneg x (mod_cast (Nat.two_pow_pos n).ne')
  rw [Int.dvd_iff_emod_eq_zero, ofInt]
  omega

theorem subResult_value_eq_zero {w a b : Nat} (ha : a < 2 ^ w) (hb : b < 2 ^ w) :
    (subResult w a b).value = 0 ↔ a = b := by
  rw [subResult, ofInt_eq_zero]
  constructor
  · intro hdvd
    have hsub : (a : Int) - b = 0 := Int.eq_zero_of_abs_lt_dvd hdvd (by rw [abs_lt]; omega)
    omega
  · rintro rfl
    simp

/-- Sign and overflow of a difference differ where the signed difference is negative. -/
theorem subResult_sign_bne_overflow {w a b : Nat} (hw : 1 ≤ w) (ha : a < 2 ^ w) (hb : b < 2 ^ w) :
    ((subResult w a b).value.testBit (w - 1) != (subResult w a b).overflow) = decide (signed w a < signed w b) := by
  obtain ⟨hmin, htwo, -⟩ := minSigned_maxSigned hw
  obtain ⟨halo, hahi⟩ := signed_range hw ha
  obtain ⟨hblo, hbhi⟩ := signed_range hw hb
  rw [subResult, ← ofInt_congr ((signed_modEq w a).sub (signed_modEq w b)),
    sign_bne_outsideSigned hw (by omega) (by omega)]
  simp only [sub_neg]

/-- What the flags say after a compare; F.S alone says less, as it is wrong where F.O is set. -/
theorem aluCompare_flags {s t : State} {tag : Tag} {rd : Reg} {src : Source} (hc : s.config.admissible = true)
    (h : s.aluCompare tag rd src = .ok t) (hb : s.operand tag src < 2 ^ s.config.bits tag) :
    t.flagZ = decide (s.regRead rd tag = s.operand tag src) ∧
      t.flagC = decide (s.regRead rd tag < s.operand tag src) ∧
      (t.flagS != t.flagO) = decide (signed (s.config.bits tag) (s.regRead rd tag) <
        signed (s.config.bits tag) (s.operand tag src)) := by
  have ha := regRead_lt s rd tag
  obtain rfl := aluCompare_ok.mp h
  obtain ⟨hz, hs, hcarry, ho, -⟩ := flagUpdateWritesFourBits s (s.config.bits tag) _ hc
  refine ⟨?_, hcarry, ?_⟩
  · rw [hz, Bool.eq_iff_iff, beq_iff_eq, decide_eq_true_iff, subResult_value_eq_zero ha hb]
  · rw [hs, ho, subResult_sign_bne_overflow (one_le_bits hc tag) ha hb]

/-- Settles O36: Z, C and the difference of S and O decide the two orders, and every condition is made of these. -/
theorem compareDecidesConditions : Obligations.CompareDecidesConditions := by
  intro s t tag rd src hc h
  dsimp only
  intro hb
  obtain ⟨hz, hcarry, hlt⟩ := aluCompare_flags hc h hb
  have hinj := signed_inj (one_le_bits hc tag) (regRead_lt s rd tag) hb
  have hge : (t.flagS == t.flagO) = !(t.flagS != t.flagO) := (Bool.not_not _).symm
  simp only [State.holds, hge, hz, hcarry, hlt, Bool.not_eq_true', Bool.or_eq_true, Bool.and_eq_true,
    decide_eq_true_iff, decide_eq_false_iff_not, true_and]
  omega

section Complete

variable {i : Instr} {f : Form} {tag : Tag} {rd : Reg} {src : Source} {ok : Nat → Prop}
  {res : Nat → Nat → Nat → Nat} {c o : Nat → Nat → Nat → Bool}

theorem AluOp.Computes.yields {op : AluOp} (hop : op.Computes ok res c o)
    (hi : ∀ s, exec i s = s.run f fun u => u.aluBinary op tag rd src) : aluYields i f tag rd src ok res c o :=
  fun s hok hsp => (hi s).trans (run_of_ok (aluBinary_ok.mpr
    ⟨_, hop _ _ _ (regRead_lt (s.advance f) rd tag) hok, aluWrite_ok.mpr ⟨hsp, rfl⟩⟩))

theorem aluYields_of_unary {op : Nat → Nat → AluResult}
    (hop : ∀ w a b, a < 2 ^ w → op w a = { value := res w a b, carry := c w a b, overflow := o w a b })
    (hi : ∀ s, exec i s = s.run f fun u => u.aluUnary op tag rd) : aluYields i f tag rd src ok res c o :=
  fun s _ hsp => (hi s).trans (run_of_ok (by
    rw [State.aluUnary, hop _ _ _ (regRead_lt (s.advance f) rd tag)]
    exact aluWrite_ok.mpr ⟨hsp, rfl⟩))

theorem compareYields_of_aluCompare (hi : ∀ s, exec i s = s.run f fun u => u.aluCompare tag rd src) :
    compareYields i f tag rd src :=
  fun s => (hi s).trans (run_of_ok (aluCompare_ok.mpr rfl))

/-- A zero divisor is met before anything is written. -/
theorem faults_divByZero {s : State} {op : AluOp} (hop : op = .div ∨ op = .mod)
    (hi : exec i s = s.run f fun u => u.aluBinary op tag rd src)
    (hb : (s.advance f).operand tag src = 0) : faults i s .divByZero :=
  hi.trans (run_of_error (aluBinary_error.mpr (.inl ⟨hop, hb, rfl⟩)))

end Complete

/-- Settles O43: the capped count gives the whole count's result, carry and overflow. -/
theorem shiftsComplete : Obligations.ShiftsComplete := fun _ _ _ =>
  ⟨computes_shl.yields fun _ => rfl, computes_shl.yields fun _ => rfl,
    computes_shl.yields fun _ => rfl, computes_shl.yields fun _ => rfl,
    computes_shr.yields fun _ => rfl, computes_shr.yields fun _ => rfl,
    computes_shr.yields fun _ => rfl, computes_shr.yields fun _ => rfl⟩

/-- Settles O40: each form reads its operands at its width and computes what its operation does. -/
theorem addSubMulComplete : Obligations.AddSubMulComplete := fun _ _ _ =>
  ⟨computes_add.yields fun _ => rfl, computes_add.yields fun _ => rfl,
    computes_add.yields fun _ => rfl, computes_add.yields fun _ => rfl,
    computes_sub.yields fun _ => rfl, computes_sub.yields fun _ => rfl,
    computes_sub.yields fun _ => rfl, computes_sub.yields fun _ => rfl,
    computes_mul.yields fun _ => rfl, computes_mul.yields fun _ => rfl,
    computes_mul.yields fun _ => rfl, computes_mul.yields fun _ => rfl⟩

/-- Settles O41: a divisor that is not zero is all that the two operations ask for. -/
theorem divModComplete : Obligations.DivModComplete := fun _ _ _ =>
  ⟨computes_div.yields fun _ => rfl, computes_div.yields fun _ => rfl,
    computes_div.yields fun _ => rfl, computes_div.yields fun _ => rfl,
    computes_mod.yields fun _ => rfl, computes_mod.yields fun _ => rfl,
    computes_mod.yields fun _ => rfl, computes_mod.yields fun _ => rfl⟩

/-- Settles O42: the three operations answer for any operands, with neither carry nor overflow. -/
theorem logicCompletes : Obligations.LogicCompletes := fun _ _ _ =>
  ⟨⟨computes_and.yields fun _ => rfl, computes_and.yields fun _ => rfl,
      computes_and.yields fun _ => rfl, computes_and.yields fun _ => rfl⟩,
    ⟨computes_or.yields fun _ => rfl, computes_or.yields fun _ => rfl,
      computes_or.yields fun _ => rfl, computes_or.yields fun _ => rfl⟩,
    ⟨computes_xor.yields fun _ => rfl, computes_xor.yields fun _ => rfl,
      computes_xor.yields fun _ => rfl, computes_xor.yields fun _ => rfl⟩⟩

theorem aluNeg_eq {w a : Nat} (ha : a < 2 ^ w) : aluNeg w a =
    { value := (2 ^ w - a) % 2 ^ w, carry := decide (a ≠ 0), overflow := decide (signed w a = minSigned w) } := by
  rw [aluNeg, ofInt_neg ha]

/-- Settles O44: a compare writes the flags alone; not and neg have one operand, so any second one will do. -/
theorem compareNotNegComplete : Obligations.CompareNotNegComplete := fun _ _ _ =>
  ⟨compareYields_of_aluCompare fun _ => rfl, compareYields_of_aluCompare fun _ => rfl,
    compareYields_of_aluCompare fun _ => rfl, compareYields_of_aluCompare fun _ => rfl,
    aluYields_of_unary (op := aluNot) (fun _ _ _ _ => rfl) fun _ => rfl,
    aluYields_of_unary (op := aluNot) (fun _ _ _ _ => rfl) fun _ => rfl,
    aluYields_of_unary (fun _ _ _ => aluNeg_eq) fun _ => rfl,
    aluYields_of_unary (fun _ _ _ => aluNeg_eq) fun _ => rfl⟩

/-- Settles O52: the operation raises before the register write; an immediate 0 is its own operand. -/
theorem divisionByZeroFaults : Obligations.DivisionByZeroFaults := by
  intro s rd rs
  have himm : ∀ f tag, (s.advance f).operand tag (.immediate 0) = 0 := fun _ _ => rfl
  exact ⟨faults_divByZero (src := .register rs) (.inl rfl) rfl, faults_divByZero (src := .register rs) (.inl rfl) rfl,
    faults_divByZero (src := .register rs) (.inr rfl) rfl, faults_divByZero (src := .register rs) (.inr rfl) rfl,
    faults_divByZero (rd := rd) (.inl rfl) rfl (himm .divBImm .byte),
    faults_divByZero (rd := rd) (.inl rfl) rfl (himm .divWImm .word),
    faults_divByZero (rd := rd) (.inr rfl) rfl (himm .modBImm .byte),
    faults_divByZero (rd := rd) (.inr rfl) rfl (himm .modWImm .word)⟩

end Sys2Proof.Machine
end

section
/-! Control flow: what jumps, loops, calls and returns lead to, and where the stack instructions fault (42_control_flow.md
R230 to R260; 43_stack.md R270, R271). -/

namespace Sys2Proof

/-- One less modulo 2^n, without a negative number in between. -/
theorem ofInt_pred (n v : Nat) : ofInt n ((v : Int) - 1) = (v + (2 ^ n - 1)) % 2 ^ n := by
  have hpos := Nat.two_pow_pos n
  have hsum : ((v + (2 ^ n - 1) : Nat) : Int) = (v : Int) - 1 + (2 ^ n : Nat) := by omega
  rw [← ofInt_natCast, hsum]
  exact (ofInt_congr (Int.add_emod_right _ _)).symm

namespace Machine

/-- A relative target is an address already, so a jump there takes it as it is. -/
theorem advance_relTarget_mod (s : State) (f : Form) (off : Int) :
    (s.advance f).relTarget off % 2 ^ s.config.addrBits = ofInt s.config.addrBits ((s.ipNext f : Int) + off) :=
  Nat.mod_eq_of_lt (ofInt_lt _ _)

/-- A store before or after the decoder's advance. -/
theorem advance_store (s : State) (f : Form) (n : Space) (a k v : Nat) :
    (s.advance f).store n a k v = { s.store n a k v with ip := s.ipNext f } := by
  simp only [State.store, State.setBacking, advance_backing, advance_config]
  cases s.config.map.resolve n <;> rfl

/-- Two states with the same configuration and the same arrays show the same values. -/
theorem cellsValue_congr {s t : State} (hc : t.config = s.config) (ha : ∀ n, t.array n = s.array n) :
    t.cellsValue = s.cellsValue := by
  funext n a k
  simp only [State.cellsValue, readCell_congr hc ha, hc]

theorem cellsValue_store {s : State} {n : Space} {a k : Nat} (v : Nat) (hw : (s.backing n).wf = true)
    (hf : a + k ≤ s.size n) : (s.store n a k v).cellsValue n a k = v % 2 ^ (k * s.config.cellBits) := by
  have hread := memRead_store (v := v) hw hf rfl
  rw [memRead_of_fits (by simpa using hf)] at hread
  exact Except.ok.inj hread

theorem popCells_advance_of_frame {s : State} (f : Form) {k : Nat} (hk : k ≤ s.sp) (hsp : s.sp ≤ s.size .stack) :
    (s.advance f).popCells k = .ok (s.cellsValue .stack (s.sp - k) k, { s.advance f with sp := s.sp - k }) :=
  popCells_ok.mpr ⟨hk, by simpa using hsp, by simp [State.cellsValue, getCells_backing], rfl⟩

/-- The state after a call to `target`: the frame that holds the address `back` lies below SP. -/
def State.afterCall (s : State) (back target : Nat) : State :=
  { s.store .stack s.sp s.config.addrCells back with
    sp := (s.sp + s.config.addrCells) % 2 ^ s.config.addrBits
    ip := target % 2 ^ s.config.addrBits }

theorem callTo_ok {s t : State} {a : Nat} :
    s.callTo a = .ok t ↔ s.sp + s.config.addrCells ≤ s.size .stack ∧ t = s.afterCall s.ip a := by
  simp only [State.callTo, bind_eq_ok, pushCells_ok, Except.ok.injEq]
  constructor
  · rintro ⟨u, ⟨hf, rfl⟩, rfl⟩
    exact ⟨hf, by simp [State.jump, State.afterCall]⟩
  · rintro ⟨hf, rfl⟩
    exact ⟨_, ⟨hf, rfl⟩, by simp [State.jump, State.afterCall]⟩

theorem callTo_error {s : State} {a : Nat} {e : FaultKind} :
    s.callTo a = .error e ↔ s.size .stack < s.sp + s.config.addrCells ∧ e = .stackOverflow := by
  simp [State.callTo, bind_eq_error, pushCells_error]

@[simp] theorem afterCall_config (s : State) (back target : Nat) : (s.afterCall back target).config = s.config :=
  store_config ..

@[simp] theorem afterCall_size (s : State) (back target : Nat) (n : Space) :
    (s.afterCall back target).size n = s.size n :=
  size_congr n (store_config ..) (store_imageLen ..)

theorem afterCall_sp {s : State} (back target : Nat) (h : s.sp + s.config.addrCells < 2 ^ s.config.addrBits) :
    (s.afterCall back target).sp = s.sp + s.config.addrCells :=
  Nat.mod_eq_of_lt h

/-- A call writes IP, so it does not matter that the decoder has. -/
theorem advance_afterCall (s : State) (f : Form) (back target : Nat) :
    (s.advance f).afterCall back target = s.afterCall back target := by
  simp only [State.afterCall, advance_store, advance_config, advance_sp]

/-- The frame of a call reads back as the address it holds. -/
theorem afterCall_cellsValue {s : State} {back : Nat} (target : Nat) (hs : s.Inv)
    (hf : s.sp + s.config.addrCells ≤ s.size .stack) (hback : back < 2 ^ s.config.addrBits) :
    (s.afterCall back target).cellsValue .stack s.sp s.config.addrCells = back := by
  have hshown : (s.afterCall back target).cellsValue = (s.store .stack s.sp s.config.addrCells back).cellsValue :=
    cellsValue_congr rfl fun n => by cases n <;> rfl
  rw [hshown, cellsValue_store back (hs.canonical _) hf]
  exact Nat.mod_eq_of_lt hback

/-- C after `loop` has lowered it. -/
def State.countDown (s : State) : Nat :=
  (s.c + (2 ^ s.config.wordBits - 1)) % 2 ^ s.config.wordBits

theorem loopTo_eq (s : State) (a : Nat) : s.loopTo a =
    { s with c := s.countDown, ip := if s.countDown = 0 then s.ip else a % 2 ^ s.config.addrBits } := by
  have hc : ofInt s.config.wordBits ((s.c : Int) - 1) = s.countDown := ofInt_pred _ _
  by_cases h : s.countDown = 0 <;> simp [State.loopTo, State.jump, hc, h]

/-! The body of each instruction that counts C or moves SP. -/

theorem exec_loop (addr : Nat) (s : State) : exec (.loop addr) s = s.run .loop fun u => .ok (u.loopTo addr) :=
  rfl

theorem exec_loopRel (off : Int) (s : State) :
    exec (.loopRel off) s = s.run .loopRel fun u => .ok (u.loopTo (u.relTarget off)) :=
  rfl

theorem exec_call (addr : Nat) (s : State) : exec (.call addr) s = s.run .call fun u => u.callTo addr :=
  rfl

theorem exec_callRel (off : Int) (s : State) :
    exec (.callRel off) s = s.run .callRel fun u => u.callTo (u.relTarget off) :=
  rfl

theorem exec_ret (s : State) :
    exec .ret s = s.run .ret fun u => u.popCells u.config.addrCells >>= fun p => .ok (p.2.jump p.1) :=
  rfl

theorem exec_push (rs : Reg) (s : State) :
    exec (.push rs) s = s.run .push fun u => u.pushCells u.config.wordCells (u.regRead rs .word) :=
  rfl

theorem exec_pop (rd : Reg) (s : State) :
    exec (.pop rd) s = s.run .pop fun u => u.popCells u.config.wordCells >>= fun p => p.2.regWrite rd .word p.1 :=
  rfl

section Complete

variable {i : Instr} {f : Form} {s : State}

/-- A pair of jumps whose condition does not depend on IP. -/
theorem jumpYields_of_taken {abs : Nat → Instr} {rel : Int → Instr} {fabs frel : Form} {taken : State → Bool}
    (hkept : ∀ s f, taken (State.advance s f) = taken s)
    (habs : ∀ s addr, exec (abs addr) s = s.run fabs fun u => .ok (if taken u then u.jump addr else u))
    (hrel : ∀ s off, exec (rel off) s = s.run frel fun u => .ok (if taken u then u.jump (u.relTarget off) else u)) :
    jumpYields abs rel fabs frel taken := by
  refine fun s => ⟨fun addr => (habs s addr).trans (run_of_ok ?_), fun off => (hrel s off).trans (run_of_ok ?_)⟩
  · rw [hkept]
    split <;> rfl
  · simp only [hkept, State.jump, advance_config, advance_relTarget_mod]
    split <;> rfl

/-- A pair of conditional jumps. -/
theorem jumpYields_of_jumpIf (cond : Condition) {abs : Nat → Instr} {rel : Int → Instr} {fabs frel : Form}
    (habs : ∀ s addr, exec (abs addr) s = s.run fabs fun u => .ok (u.jumpIf cond addr))
    (hrel : ∀ s off, exec (rel off) s = s.run frel fun u => .ok (u.jumpIf cond (u.relTarget off))) :
    jumpYields abs rel fabs frel fun s => s.holds cond :=
  jumpYields_of_taken (fun _ _ => by cases cond <;> rfl) habs hrel

theorem exec_next_of_loop {x : State → Nat} (hi : exec i s = s.run f fun u => .ok (u.loopTo (x u))) :
    exec i s = .next { s with
      c := s.countDown
      ip := if s.countDown = 0 then s.ipNext f else x (s.advance f) % 2 ^ s.config.addrBits } :=
  hi.trans (run_of_ok (congrArg _ (loopTo_eq _ _)))

theorem exec_next_of_call {x : State → Nat} (hi : exec i s = s.run f fun u => u.callTo (x u))
    (hf : s.sp + s.config.addrCells ≤ s.size .stack) :
    exec i s = .next (s.afterCall (s.ipNext f) (x (s.advance f))) :=
  hi.trans (run_of_ok (callTo_ok.mpr ⟨by simpa using hf, (advance_afterCall ..).symm⟩))

theorem exec_ret_of_frame (hk : s.config.addrCells ≤ s.sp) (hsp : s.sp ≤ s.size .stack) :
    exec .ret s = .next { s with
      sp := s.sp - s.config.addrCells
      ip := s.cellsValue .stack (s.sp - s.config.addrCells) s.config.addrCells % 2 ^ s.config.addrBits } :=
  (exec_ret s).trans (run_of_ok (bind_eq_ok.mpr ⟨_, popCells_advance_of_frame .ret hk hsp, rfl⟩))

/-- A return from the frame of a call goes to the address the frame holds and takes the frame away. -/
theorem exec_ret_afterCall {back target : Nat} (hs : s.Inv) (hf : s.sp + s.config.addrCells ≤ s.size .stack)
    (hlt : s.sp + s.config.addrCells < 2 ^ s.config.addrBits) (hback : back < 2 ^ s.config.addrBits) :
    exec .ret (s.afterCall back target) = .next { s.afterCall back target with sp := s.sp, ip := back } := by
  have hsp := afterCall_sp back target hlt
  have hret := exec_ret_of_frame (s := s.afterCall back target) (by simp [hsp]) (by simpa [hsp] using hf)
  simpa only [hsp, afterCall_config, Nat.add_sub_cancel, afterCall_cellsValue target hs hf hback,
    Nat.mod_eq_of_lt hback] using hret

/-- The frame of a call holds ip_next, so the return comes back there. -/
theorem call_then_ret {x : State → Nat} (hi : exec i s = s.run f fun u => u.callTo (x u)) (hs : s.Inv)
    (hf : s.sp + s.config.addrCells ≤ s.size .stack) (hlt : s.sp + s.config.addrCells < 2 ^ s.config.addrBits) :
    ∃ t u, exec i s = .next t ∧ exec .ret t = .next u ∧ u.ip = s.ipNext f ∧ ∀ q, q ≠ .ip → u.reg q = s.reg q := by
  have hback : s.ipNext f < 2 ^ s.config.addrBits := Nat.mod_lt _ (Nat.two_pow_pos _)
  refine ⟨_, _, exec_next_of_call hi hf, exec_ret_afterCall hs hf hlt hback, rfl, fun q hip => ?_⟩
  cases q with
  | ip => exact absurd rfl hip
  | sp => rfl
  | a => exact store_a ..
  | b => exact store_b ..
  | c => exact store_c ..
  | f => exact store_f ..

end Complete

/-- Settles O45: every jump but `jmp` tests one condition, and the advance leaves the flags. -/
theorem jumpsComplete : Obligations.JumpsComplete :=
  ⟨jumpYields_of_taken (fun _ _ => rfl) (fun _ _ => rfl) fun _ _ => rfl,
    jumpYields_of_jumpIf .e (fun _ _ => rfl) fun _ _ => rfl,
    jumpYields_of_jumpIf .ne (fun _ _ => rfl) fun _ _ => rfl,
    jumpYields_of_jumpIf .b (fun _ _ => rfl) fun _ _ => rfl,
    jumpYields_of_jumpIf .be (fun _ _ => rfl) fun _ _ => rfl,
    jumpYields_of_jumpIf .a (fun _ _ => rfl) fun _ _ => rfl,
    jumpYields_of_jumpIf .ae (fun _ _ => rfl) fun _ _ => rfl,
    jumpYields_of_jumpIf .l (fun _ _ => rfl) fun _ _ => rfl,
    jumpYields_of_jumpIf .le (fun _ _ => rfl) fun _ _ => rfl,
    jumpYields_of_jumpIf .g (fun _ _ => rfl) fun _ _ => rfl,
    jumpYields_of_jumpIf .ge (fun _ _ => rfl) fun _ _ => rfl⟩

/-- Settles O47: absolute and relative differ in the target alone. -/
theorem loopsComplete : Obligations.LoopsComplete := by
  intro s addr off c
  have hrel := exec_next_of_loop (exec_loopRel off s)
  rw [advance_relTarget_mod] at hrel
  exact ⟨exec_next_of_loop (exec_loop addr s), hrel⟩

/-- Settles O46: a call leads to `State.afterCall`, absolute and relative but for the target. -/
theorem callsAndRetComplete : Obligations.CallsAndRetComplete := by
  intro s addr off n modulus
  refine ⟨fun hf => ⟨exec_next_of_call (exec_call addr s) hf, ?_⟩, exec_ret_of_frame⟩
  have hrel := exec_next_of_call (exec_callRel off s) hf
  rwa [State.afterCall, advance_relTarget_mod] at hrel

/-- Settles O60: both calls leave ip_next in their frame. -/
theorem callThenRet : Obligations.CallThenRet := fun s addr off hs hf hlt =>
  ⟨call_then_ret (exec_call addr s) hs hf hlt, call_then_ret (exec_callRel off s) hs hf hlt⟩

/-- Settles O53: the frame is checked before anything is written, and SP only once the word is there. -/
theorem stackFaults : Obligations.StackFaults := by
  intro s r addr off word
  refine ⟨fun h => ?_, fun h => ⟨?_, ?_⟩, fun h => ?_, fun h => ?_, fun hk hsp h => ?_⟩
  · exact faults_of_error (exec_push r s) (pushCells_error.mpr ⟨by simpa using h, rfl⟩)
  · exact faults_of_error (exec_call addr s) (callTo_error.mpr ⟨by simpa using h, rfl⟩)
  · exact faults_of_error (exec_callRel off s) (callTo_error.mpr ⟨by simpa using h, rfl⟩)
  · exact faults_of_error (exec_pop r s) (bind_eq_error.mpr (.inl (popCells_error.mpr (.inl ⟨h, rfl⟩))))
  · exact faults_of_error (exec_ret s) (bind_eq_error.mpr (.inl (popCells_error.mpr (.inl ⟨h, rfl⟩))))
  · have hsize : { s.advance .pop with sp := s.sp - word }.size .stack = s.size .stack := size_congr .stack rfl rfl
    exact faults_of_error (exec_pop .sp s) (bind_eq_error.mpr (.inr ⟨_, popCells_advance_of_frame .pop hk hsp,
      regWrite_error.mpr ⟨rfl, rfl, hsize.trans_lt h⟩⟩))

end Machine

end Sys2Proof
end

section
/-! The stack instructions complete, and a word pushed is the word the next pop gives (43_stack.md R270 to R272). -/

namespace Sys2Proof.Machine

section Frames

variable {s : State} {rd : Reg} {v : Nat}

/-- The state after a push of `v`: its frame lies below SP. -/
def State.afterPush (s : State) (v : Nat) : State :=
  { s.store .stack s.sp s.config.wordCells v with sp := (s.sp + s.config.wordCells) % 2 ^ s.config.addrBits }

/-- The state in which pop writes its register: IP is advanced and SP lowered. -/
def State.popped (s : State) : State :=
  { s.advance .pop with sp := s.sp - s.config.wordCells }

@[simp] theorem afterPush_config (s : State) (v : Nat) : (s.afterPush v).config = s.config :=
  store_config ..

@[simp] theorem afterPush_size (s : State) (v : Nat) (n : Space) : (s.afterPush v).size n = s.size n :=
  size_congr n (store_config ..) (store_imageLen ..)

theorem afterPush_sp (v : Nat) (h : s.sp + s.config.wordCells < 2 ^ s.config.addrBits) :
    (s.afterPush v).sp = s.sp + s.config.wordCells :=
  Nat.mod_eq_of_lt h

theorem afterPush_reg_of_ne (s : State) (v : Nat) {q : Reg} (h : q ≠ .sp) : (s.afterPush v).reg q = s.reg q :=
  (putReg_reg_of_ne _ _ h).trans (store_reg ..)

@[simp] theorem popped_config (s : State) : s.popped.config = s.config :=
  rfl

@[simp] theorem popped_size (s : State) (n : Space) : s.popped.size n = s.size n :=
  size_congr n rfl rfl

theorem popped_reg_of_ne (s : State) {q : Reg} (hsp : q ≠ .sp) (hip : q ≠ .ip) : s.popped.reg q = s.reg q :=
  (putReg_reg_of_ne _ _ hsp).trans (advance_reg_of_ne s .pop hip)

theorem popped_afterPush_sp (v : Nat) (h : s.sp + s.config.wordCells < 2 ^ s.config.addrBits) :
    (s.afterPush v).popped.sp = s.sp := by
  rw [State.popped, afterPush_sp v h, afterPush_config, Nat.add_sub_cancel]

/-- A pop takes away what the push before it did to the registers. -/
theorem popped_afterPush_reg (v : Nat) (h : s.sp + s.config.wordCells < 2 ^ s.config.addrBits) {q : Reg}
    (hip : q ≠ .ip) : (s.afterPush v).popped.reg q = s.reg q := by
  by_cases hsp : q = .sp
  · subst hsp
    exact popped_afterPush_sp v h
  · rw [popped_reg_of_ne _ hsp hip, afterPush_reg_of_ne s v hsp]

/-- The frame of a push reads back as the word it holds. -/
theorem afterPush_cellsValue (hw : (s.backing .stack).wf = true) (hf : s.sp + s.config.wordCells ≤ s.size .stack)
    (hv : v < 2 ^ s.config.wordBits) : (s.afterPush v).cellsValue .stack s.sp s.config.wordCells = v := by
  have hshown : (s.afterPush v).cellsValue = (s.store .stack s.sp s.config.wordCells v).cellsValue :=
    cellsValue_congr rfl fun n => by cases n <;> rfl
  rw [hshown, cellsValue_store v hw hf]
  exact Nat.mod_eq_of_lt hv

/-- A whole word written to a register is truncated to the register alone. -/
theorem merged_word (s : State) (r : Reg) (hv : v < 2 ^ s.config.wordBits) :
    s.merged r .word v = v % 2 ^ s.config.regBits r :=
  congrArg (· % _) (Nat.mod_eq_of_lt hv)

theorem exec_push_of_frame (rs : Reg) (hf : s.sp + s.config.wordCells ≤ s.size .stack) :
    exec (.push rs) s = .next ((s.advance .push).afterPush ((s.advance .push).regRead rs .word)) :=
  (exec_push rs s).trans (run_of_ok (pushCells_ok.mpr ⟨by simpa using hf, rfl⟩))

theorem exec_pop_of_frame (hk : s.config.wordCells ≤ s.sp) (hsp : s.sp ≤ s.size .stack)
    (hv : s.cellsValue .stack (s.sp - s.config.wordCells) s.config.wordCells = v) (ha : s.popped.accepts rd .word v) :
    exec (.pop rd) s = .next (s.popped.putReg rd (s.popped.merged rd .word v)) := by
  subst hv
  exact (exec_pop rd s).trans
    (run_of_ok (bind_eq_ok.mpr ⟨_, popCells_advance_of_frame .pop hk hsp, regWrite_ok.mpr ⟨ha, rfl⟩⟩))

/-- A pop from the frame of a push gives the word the frame holds. -/
theorem exec_pop_afterPush (hw : (s.backing .stack).wf = true) (hf : s.sp + s.config.wordCells ≤ s.size .stack)
    (hlt : s.sp + s.config.wordCells < 2 ^ s.config.addrBits) (hv : v < 2 ^ s.config.wordBits)
    (ha : rd = .sp → v % 2 ^ s.config.addrBits ≤ s.size .stack) :
    exec (.pop rd) (s.afterPush v) = .next ((s.afterPush v).popped.putReg rd (v % 2 ^ s.config.regBits rd)) := by
  have hsp := afterPush_sp v hlt
  have hword : (s.afterPush v).popped.merged rd .word v = v % 2 ^ s.config.regBits rd := by
    simpa using merged_word (s.afterPush v).popped rd (by simpa using hv)
  rw [← hword]
  refine exec_pop_of_frame (by simp [hsp]) (by simpa [hsp] using hf) ?_ fun hrd => ?_
  · simpa [hsp] using afterPush_cellsValue hw hf hv
  · rw [hword, popped_size, afterPush_size]
    subst hrd
    exact ha rfl

end Frames

/-- Settles O48: a push leads to `State.afterPush`; a pop reads its frame and then writes the register. -/
theorem pushPopComplete : Obligations.PushPopComplete := fun _ rs _ =>
  ⟨exec_push_of_frame rs, fun hk hsp => exec_pop_of_frame hk hsp rfl⟩

/-- Settles O59: the frame of a push holds the word that was read, and the pop takes the frame away. -/
theorem pushThenPop : Obligations.PushThenPop := by
  intro s rs rd hs hf hlt v ha
  have hw : ((s.advance .push).backing .stack).wf = true := (advance_backing s .push .stack).symm ▸ hs.canonical _
  have hpop := exec_pop_afterPush (rd := rd) hw (by simpa using hf) hlt (regRead_lt _ rs .word) (by simpa using ha)
  have hkept : ∀ q, q ≠ rd → q ≠ .ip →
      (((s.advance .push).afterPush v).popped.putReg rd (v % 2 ^ s.config.regBits rd)).reg q = s.reg q := by
    intro q hrd hip
    rw [putReg_reg_of_ne _ _ hrd, popped_afterPush_reg (s := s.advance .push) v hlt hip, advance_reg_of_ne s .push hip]
  exact ⟨_, _, exec_push_of_frame rs hf, hpop, putReg_reg .., fun hrd => hkept .sp hrd.symm (by decide), hkept⟩

end Sys2Proof.Machine
end

section
/-! The instructions that speak with the host, and halt: how long each waits, and what it does once the host has answered
or returned (44_io_halt.md R280 to R283; 60_exceptions.md R312; 70_reset_and_hazards.md R340). -/

namespace Sys2Proof.Machine

section Waits

variable {s : State} {i : Instr}

theorem exec_input_of_no_answer (h : s.channel.answers = []) : exec .input s = .next s := by
  change execInput s = .next s
  simp only [execInput, h]

/-- While the host holds the block, a request of it is a step that changes nothing. -/
theorem request_of_held (f : Form) (e : State → HostEvent) (h : s.channel.returns = some 0) :
    s.request f e = .next s :=
  request_next.mpr (.inl ⟨hostHolds_iff.mpr h, rfl⟩)

/-- An instruction that waits leaves the state as it is. -/
theorem exec_of_waitsIn (h : s.waitsIn i) : exec i s = .next s := by
  cases i with
  | input => exact exec_input_of_no_answer h
  | output | seek => exact request_of_held _ _ (hostHolds_iff.mp h)
  | _ => exact h.elim

/-- A state that steps to itself is where a run of any length ends. -/
theorem core_run_of_step_self (h : step s = .next s) (k : Nat) : core.run k s = .next s := by
  induction k with
  | zero => rfl
  | succ k ih => rw [core_run_succ k h, ih]

end Waits

/-- Settles O50: a wait steps to the same state, so by induction on the number of steps it does not end. -/
theorem hostWaitsAreUnbounded : Obligations.HostWaitsAreUnbounded := fun _ =>
  ⟨exec_input_of_no_answer, fun h => ⟨request_of_held _ _ h, fun _ _ => request_of_held _ _ h⟩,
    fun _ hlive hi hw => core_run_of_step_self ((step_of_decode_ok hlive hi).trans (exec_of_waitsIn hw))⟩

section Input

variable {s : State} {r : HostAnswer} {rest : List HostAnswer}

/-- The low cell of A that an answer of the host gives (R280). -/
def answerCell (c : Config) : HostAnswer → Nat
  | .byte b => b.toNat % 2 ^ c.cellBits
  | .endOfStream => mask c.cellBits

/-- F.C after an answer of the host: set at end-of-stream (R280, D20). -/
def answerCarry : HostAnswer → Bool
  | .byte _ => false
  | .endOfStream => true

theorem answerCell_lt (c : Config) (r : HostAnswer) : answerCell c r < 2 ^ c.cellBits := by
  have hpos := Nat.two_pow_pos c.cellBits
  cases r with
  | byte b => exact Nat.mod_lt _ hpos
  | endOfStream => exact Nat.sub_lt hpos Nat.one_pos

/-- An answer is received by one write of A, which no address bounds, and one of F.C. -/
theorem receive_eq (s : State) (r : HostAnswer) : s.receive r =
    .ok ((s.putReg .a (s.merged .a .byte (answerCell s.config r))).setCarry (answerCarry r)).takeAnswer := by
  cases r <;> exact bind_eq_ok.mpr ⟨_, regWrite_of_ne .byte _ (by decide), rfl⟩

/-- The state after `in` has taken the answer `r`, with the answers `rest` still pending. -/
def State.afterInput (s : State) (r : HostAnswer) (rest : List HostAnswer) : State :=
  { s with
    a := s.merged .a .byte (answerCell s.config r)
    f := setBit s.f s.config.flagPos.c (answerCarry r)
    ip := s.ipNext .input
    channel := { s.channel with answers := rest } }

theorem exec_input_of_answer (h : s.channel.answers = r :: rest) : exec .input s = .next (s.afterInput r rest) := by
  have hrest : rest = s.channel.answers.tail := by rw [h, List.tail_cons]
  have hexec : exec .input s = s.run .input fun u => u.receive r := by
    change execInput s = _
    simp only [execInput, h]
  rw [hexec, hrest]
  exact run_of_ok (receive_eq (s.advance .input) r)

theorem afterInput_a_div : (s.afterInput r rest).a / 2 ^ s.config.cellBits = s.a / 2 ^ s.config.cellBits :=
  merged_byte_div s .a _

theorem afterInput_a_mod : (s.afterInput r rest).a % 2 ^ s.config.cellBits = answerCell s.config r :=
  (merged_byte_mod s .a _).trans (Nat.mod_eq_of_lt (answerCell_lt s.config r))

theorem afterInput_flagC : (s.afterInput r rest).flagC = answerCarry r :=
  (testBit_setBit ..).trans (if_pos rfl)

theorem afterInput_testBit_of_ne {p : Nat} (h : p ≠ s.config.flagPos.c) :
    (s.afterInput r rest).f.testBit p = s.f.testBit p :=
  (testBit_setBit ..).trans (if_neg h)

end Input

/-- Settles O49: the state is `State.afterInput`, which writes the low cell of A and one bit of F. -/
theorem inputCompletes : Obligations.InputCompletes := by
  intro s r rest h
  refine ⟨s.afterInput r rest, exec_input_of_answer h, rfl, afterInput_a_div, ?_, ?_,
    fun p hp => afterInput_testBit_of_ne hp⟩
  · rw [afterInput_a_mod]
    cases r <;> rfl
  · rw [afterInput_flagC]
    cases r <;> rfl

/-- Where the host does not hold the block, a request of it sends its event, computed after the decoder's advance. -/
theorem request_of_not_held {s : State} (f : Form) (e : State → HostEvent) (h : s.channel.returns ≠ some 0) :
    s.request f e = .next ((s.advance f).send (e (s.advance f))) :=
  request_next.mpr (.inr ⟨Bool.eq_false_iff.mpr (hostHolds_iff.not.mpr h), rfl⟩)

/-- Settles O51: `out` and `seek` are requests, whose events read the registers after the advance. -/
theorem outputSeekHaltComplete : Obligations.OutputSeekHaltComplete := fun _ _ _ =>
  ⟨request_of_not_held .output _, request_of_not_held .seek _, exec_halt⟩

end Sys2Proof.Machine
end

section
/-! What a fault is and which instruction raises which: the state of a fault is the one before the instruction but for the
status, and the kind is one that the instruction's own rule names (60_exceptions.md R300 to R303). -/

namespace Sys2Proof.Machine

section Precise

variable {i : Instr} {s t : State} {k : FaultKind} {p : Nat}

/-- An instruction that ends a running machine in FAULTED took that fault in the state before it, and is none of those that
speak with the host. -/
theorem exec_faulted (hr : s.status = .running) (h : exec i s = .next t) (ht : t.status = .faulted k p) :
    speaks i.form = false ∧ t = s.takeFault k := by
  rcases exec_canDo h with ⟨k', hs, rfl⟩ | ⟨-, rfl⟩ | he
  · cases ht
    exact ⟨hs, rfl⟩
  · simp [hr] at ht
  · rw [he.status_eq, hr] at ht
    split at ht <;> cases ht

end Precise

/-- Settles O18: the fault of the decoder and that of the instruction are both taken in the state before the step. -/
theorem faultsArePrecise : Obligations.FaultsArePrecise := by
  rintro s t k p ⟨-, hr⟩ h ht
  obtain ⟨-, ⟨k', -, rfl⟩ | ⟨i, -, hi⟩⟩ := step_next.mp h
  · cases ht
    rfl
  · exact (exec_faulted hr hi ht).2

section Kinds

variable {i : Instr} {s t : State} {k : FaultKind} {rd : Reg}

/-- The fault kinds that the rule of the instruction `i` names (60_exceptions.md R301). -/
inductive MayRaise (i : Instr) : FaultKind → Prop where
  /-- div (41_alu.md R167), mod (D12). -/
  | division (form : i.form ∈ [Form.divBReg, .divBImm, .divWReg, .divWImm, .modBReg, .modBImm, .modWReg, .modWImm]) :
      MayRaise i .divByZero
  /-- What puts a frame on the stack (42_control_flow.md R233, 43_stack.md R270). -/
  | overflow (form : i.form ∈ [Form.push, .call, .callRel]) : MayRaise i .stackOverflow
  /-- What takes a frame off the stack (42_control_flow.md R233, 43_stack.md R271; D19). -/
  | underflow (form : i.form ∈ [Form.pop, .ret]) : MayRaise i .stackUnderflow
  /-- A write of SP (10_state.md R33, D16). -/
  | stackPointer (dest : i.dest = some .sp) : MayRaise i .outOfBounds
  /-- A load or a store (20_memory.md R68, R72; D27). -/
  | access (form : i.form ∈ [Form.movbM2r, .movwM2r, .movbR2m, .movwR2m, .ldb, .ldw, .lda, .stb, .stw, .sta, .lpb]) :
      MayRaise i .outOfBounds

/-- What the body of the instruction `i` keeps to at the state `s`: it is orderly, and while SP lies within the stack it
raises only what the rule of `i` names. -/
structure RaisesNamed (i : Instr) (s : State) (x : Except FaultKind State) : Prop extends Orderly s x where
  named : s.sp ≤ s.size .stack → ∀ k, x = .error k → MayRaise i k

theorem raisesNamed_ok {x : State} (h : Orderly s (.ok x)) : RaisesNamed i s (.ok x) where
  toOrderly := h
  named _ _ he := by cases he

theorem mayRaise_of_regWrite {tag : Tag} {v : Nat} (hd : i.dest = some rd) (he : s.regWrite rd tag v = .error k) :
    MayRaise i k := by
  obtain ⟨rfl, rfl, -⟩ := regWrite_error.mp he
  exact .stackPointer hd

theorem mayRaise_of_aluWrite {tag : Tag} {r : AluResult} (hd : i.dest = some rd)
    (he : s.aluWrite tag rd r = .error k) : MayRaise i k := by
  obtain ⟨rfl, rfl, -⟩ := aluWrite_error.mp he
  exact .stackPointer hd

theorem regWrite_raisesNamed {tag : Tag} {v : Nat} (hd : i.dest = some rd) :
    RaisesNamed i s (s.regWrite rd tag v) where
  toOrderly := regWrite_orderly ..
  named _ _ := mayRaise_of_regWrite hd

theorem aluWrite_raisesNamed {tag : Tag} {r : AluResult} (hd : i.dest = some rd) :
    RaisesNamed i s (s.aluWrite tag rd r) where
  toOrderly := aluWrite_orderly ..
  named _ _ := mayRaise_of_aluWrite hd

/-- The ALU raises only for a division; the rest is the write of the destination. -/
theorem aluBinary_raisesNamed {op : AluOp} {tag : Tag} {src : Source} (hd : i.dest = some rd)
    (hop : op = .div ∨ op = .mod → MayRaise i .divByZero) : RaisesNamed i s (s.aluBinary op tag rd src) where
  toOrderly := aluBinary_orderly ..
  named _ k he := by
    rcases aluBinary_error.mp he with ⟨hdiv, -, rfl⟩ | ⟨r, -, hw⟩
    · exact hop hdiv
    · exact mayRaise_of_aluWrite hd hw

/-- A compare subtracts, which the ALU does without a fault. -/
theorem aluCompare_raisesNamed {tag : Tag} {src : Source} : RaisesNamed i s (s.aluCompare tag rd src) where
  toOrderly := aluCompare_orderly ..
  named _ k he := by
    obtain ⟨r, -, hr⟩ := aluCompare_eq s tag rd src
    rw [hr] at he
    cases he

/-- A read that can only be out of bounds, through a name or the ROM port, and the write of what it read. -/
theorem load_raisesNamed {tag : Tag} {x : Except FaultKind Nat} (hx : ∀ k, x = .error k → k = .outOfBounds)
    (ha : MayRaise i .outOfBounds) : RaisesNamed i s (x >>= s.regWrite rd tag) where
  toOrderly := orderly_bind (fun he => by cases hx _ he) fun _ _ => regWrite_orderly ..
  named _ k he := by
    rcases bind_eq_error.mp he with he | ⟨v, -, he⟩
    · obtain rfl := hx k he
      exact ha
    · obtain ⟨rfl, -⟩ := regWrite_error.mp he
      exact ha

theorem store_raisesNamed {a c v : Nat} (ha : MayRaise i .outOfBounds) :
    RaisesNamed i s (s.memWrite .ram a c v) where
  toOrderly := memWrite_orderly _ _ _ _ (by decide)
  named _ k he := by
    rcases memWrite_error.mp he with ⟨hn, -⟩ | ⟨-, -, rfl⟩
    · cases hn
    · exact ha

theorem pushCells_raisesNamed {c v : Nat} (hi : MayRaise i .stackOverflow) : RaisesNamed i s (s.pushCells c v) where
  toOrderly := pushCells_orderly ..
  named _ k he := by
    obtain ⟨-, rfl⟩ := pushCells_error.mp he
    exact hi

theorem callTo_raisesNamed {a : Nat} (hi : MayRaise i .stackOverflow) : RaisesNamed i s (s.callTo a) where
  toOrderly := callTo_orderly ..
  named _ k he := by
    obtain ⟨-, rfl⟩ := callTo_error.mp he
    exact hi

/-- Within the stack, taking a frame off raises STACK_UNDERFLOW alone: the cells below SP are then in bounds. -/
theorem popCells_raisesNamed {c : Nat} {g : Nat × State → Except FaultKind State} (hi : MayRaise i .stackUnderflow)
    (hg : ∀ q, Orderly q.2 (g q)) (hraise : ∀ q k, g q = .error k → MayRaise i k) :
    RaisesNamed i s (s.popCells c >>= g) where
  toOrderly := popCells_orderly hg
  named hsp k he := by
    rcases bind_eq_error.mp he with he | ⟨q, -, he⟩
    · rcases popCells_error.mp he with ⟨-, rfl⟩ | ⟨-, hlt, -⟩
      · exact hi
      · omega
    · exact hraise q k he

/-- An instruction that neither speaks with the host nor ends the run is the run of a body that raises only what its rule
names. -/
theorem exec_eq_raisesNamed_run (h : speaks i.form = false) :
    ∃ body, (∀ s, exec i s = s.run i.form body) ∧ ∀ u, RaisesNamed i u (body u) := by
  cases i with
  | input | output | seek | halt => cases h
  | movbI2r | movwI2r | movbR2r | movwR2r =>
    simp only [exec]
    exact ⟨_, fun _ => rfl, fun _ => regWrite_raisesNamed rfl⟩
  | movbM2r | movwM2r | ldb | ldw | lda =>
    simp only [exec]
    exact ⟨_, fun _ => rfl, fun _ => load_raisesNamed (fun _ he => (memRead_error.mp he).1)
      (.access (by simp [Instr.form]))⟩
  | lpb =>
    simp only [exec]
    exact ⟨_, fun _ => rfl, fun _ => load_raisesNamed (fun _ he => (romRead_error.mp he).1)
      (.access (by simp [Instr.form]))⟩
  | movbR2m | movwR2m | stb | stw | sta =>
    simp only [exec]
    exact ⟨_, fun _ => rfl, fun _ => store_raisesNamed (.access (by simp [Instr.form]))⟩
  | divBReg | divBImm | divWReg | divWImm | modBReg | modBImm | modWReg | modWImm =>
    simp only [exec]
    exact ⟨_, fun _ => rfl, fun _ => aluBinary_raisesNamed rfl fun _ => .division (by simp [Instr.form])⟩
  | cmpBReg | cmpBImm | cmpWReg | cmpWImm =>
    simp only [exec]
    exact ⟨_, fun _ => rfl, fun _ => aluCompare_raisesNamed⟩
  | notB | notW | negB | negW =>
    simp only [exec]
    exact ⟨_, fun _ => rfl, fun _ => aluWrite_raisesNamed rfl⟩
  | jmp | jmpRel =>
    simp only [exec]
    exact ⟨_, fun _ => rfl, fun _ => raisesNamed_ok (orderly_ok rfl)⟩
  | je | jeRel | jne | jneRel | jb | jbRel | jbe | jbeRel | ja | jaRel | jae | jaeRel | jl | jlRel | jle | jleRel | jg
  | jgRel | jge | jgeRel =>
    simp only [exec]
    exact ⟨_, fun _ => rfl, fun _ => raisesNamed_ok (jumpIf_orderly ..)⟩
  | loop | loopRel =>
    simp only [exec]
    exact ⟨_, fun _ => rfl, fun _ => raisesNamed_ok (loopTo_orderly ..)⟩
  | call | callRel =>
    simp only [exec]
    exact ⟨_, fun _ => rfl, fun _ => callTo_raisesNamed (.overflow (by simp [Instr.form]))⟩
  | push =>
    simp only [exec]
    exact ⟨_, fun _ => rfl, fun _ => pushCells_raisesNamed (.overflow (by simp [Instr.form]))⟩
  | pop =>
    simp only [exec]
    exact ⟨_, fun _ => rfl, fun _ => popCells_raisesNamed (.underflow (by simp [Instr.form]))
      (fun _ => regWrite_orderly ..) fun _ _ => mayRaise_of_regWrite rfl⟩
  | ret =>
    simp only [exec]
    exact ⟨_, fun _ => rfl, fun _ => popCells_raisesNamed (.underflow (by simp [Instr.form]))
      (fun _ => orderly_ok rfl) fun _ _ he => by cases he⟩
  | _ =>
    simp only [exec]
    exact ⟨_, fun _ => rfl, fun _ => aluBinary_raisesNamed rfl (by simp)⟩

/-- From a running state with SP within the stack, an instruction raises only what its rule names. -/
theorem exec_mayRaise {p : Nat} (hsp : s.sp ≤ s.size .stack) (hr : s.status = .running) (h : exec i s = .next t)
    (ht : t.status = .faulted k p) : MayRaise i k := by
  obtain ⟨hs, -⟩ := exec_faulted hr h ht
  obtain ⟨body, hbody, hraise⟩ := exec_eq_raisesNamed_run hs
  have hu := hraise (s.advance i.form)
  rcases run_next.mp (hbody s ▸ h) with hok | ⟨k', hk, rfl⟩
  · simp [hu.status t hok, hr] at ht
  · cases ht
    exact hu.named (by simpa using hsp) k hk

end Kinds

/-- Settles O56: what an instruction raises its body raises, and the body raises only what its rule names. -/
theorem instructionsRaiseOnlyTheirFaults : Obligations.InstructionsRaiseOnlyTheirFaults := by
  intro i s t k p hs hr h ht
  cases exec_mayRaise hs.stackPointer hr h ht with
  | division form => exact .inl ⟨rfl, form⟩
  | overflow form => exact .inr (.inl ⟨rfl, form⟩)
  | underflow form => exact .inr (.inr (.inl ⟨rfl, form⟩))
  | stackPointer dest => exact .inr (.inr (.inr ⟨rfl, .inl dest⟩))
  | access form => exact .inr (.inr (.inr ⟨rfl, .inr form⟩))

end Sys2Proof.Machine
end
